-- ==== Sys2Proof/Word.lean ====
section
/-! DEFINITION. Word sizes of the sequencer (00_scope.md R7, R8; 30_encoding.md R77). -/

namespace Sys2Proof

/-- A byte: one SPI exchange, one host-buffer cell, one status value (R8). -/
abbrev Byte := BitVec 8

/-- `W = CLK_W = 32`: addresses, lengths, timeouts, delays, clock readings, working registers (R7, R24). -/
abbrev Word := BitVec 32

/-- The address field of a 3-byte-mode frame (R66). -/
abbrev Addr24 := BitVec 24

/-- The identify value (R72). -/
abbrev Ident := BitVec 24

/-- A host request record (R77). -/
abbrev Record := BitVec 136

end Sys2Proof
end

