-- ==== Sys2Proof/Config.lean ====
section
/-! DEFINITION. What is fixed for one instance of the sequencer (the Device Handle, 10_state.md R17, R18; the named
parameters of 00_scope.md R7) and the model's free values (the Chip and Clock oracles, R38, R134). -/

namespace Sys2Proof

/-- The transport settings `ApplyBus` hands over: opaque values no rule interprets (R18, R23). -/
structure BusSettings where
  speed : Nat
  order : Nat
  mode  : Nat
  deriving DecidableEq, Repr

/-- `CFG`, the configuration record fixed when the instance is constructed (R17, R18). No field has a default in the
source. `addrBytes` is a plain number because INIT must be able to find it malformed (R92). -/
structure Cfg where
  /-- `ADDR_BYTES`, legal values 3 and 4 (R19). -/
  addrBytes      : Nat
  /-- `PAGE_SIZE`, legal when a power of two above 0 (R20). -/
  pageSize       : Word
  /-- `MFR_ID` (R21). -/
  mfrId          : Byte
  /-- `WAIT_DEFAULT_MS` (R22). -/
  waitDefaultMs  : Word
  /-- `PP_TIMEOUT_MS`. -/
  ppTimeoutMs    : Word
  /-- `SE_TIMEOUT_MS`. -/
  seTimeoutMs    : Word
  /-- `BCE_TIMEOUT_MS`, shared by block and chip erase. -/
  bceTimeoutMs   : Word
  /-- `WE_SETTLE_US` (R23). -/
  weSettleUs     : Word
  /-- `SHARED`: the bus is shared with other devices. -/
  shared         : Bool
  /-- `SHARED_SETTLE_US` (R23). -/
  sharedSettleUs : Word
  /-- `BUS_SPEED`, `BIT_ORDER` and `SPI_MODE`. -/
  bus            : BusSettings
  deriving DecidableEq, Repr

/-- The constants of R7 that the source leaves to the implementation and that are not fields of `CFG`. -/
structure Params where
  /-- `CMD_WRITE_STATUS`; the spec's value is `Config.specWriteStatus` (D8, G1: kept a parameter). -/
  cmdWriteStatus   : Byte
  /-- `RESET_SETTLE_US` (OPEN, D13). -/
  resetSettleUs    : Word
  /-- `TRES_US` (OPEN, D13). -/
  tresUs           : Word
  /-- `DPD_SETTLE_US` (OPEN, D13); 0 means skipped. -/
  dpdSettleUs      : Word
  /-- `YIELD_THRESHOLD_MS` (OPEN, D11). -/
  yieldThresholdMs : Word
  deriving DecidableEq, Repr

namespace Config

/-- The value this spec gives `CMD_WRITE_STATUS` (R7, R69, D8, G1). -/
def specWriteStatus : Byte := 0x01

/-- The configuration `State.reset` is constructed with. The spec leaves every field to the configurer (R18); this is the
base configuration of 95_test_vectors.md section 0 (log entry 2, DESIGN CHOICE). -/
def resetCfg : Cfg :=
  { addrBytes := 3
    pageSize := 256
    mfrId := 0xEF
    waitDefaultMs := 10
    ppTimeoutMs := 5
    seTimeoutMs := 400
    bceTimeoutMs := 2000
    weSettleUs := 0
    shared := false
    sharedSettleUs := 0
    bus := { speed := 0, order := 0, mode := 0 } }

/-- The parameters `State.reset` is constructed with (R7, OPEN; log entry 2, DESIGN CHOICE). `TRES_US` is above 0, as D13
requires of a conforming implementation: the value of vector Q5. -/
def resetParams : Params :=
  { cmdWriteStatus := specWriteStatus
    resetSettleUs := 0
    tresUs := 3
    dpdSettleUs := 0
    yieldThresholdMs := 100 }

/-- The Chip oracle once a state's own script of received bytes is used up: the byte of the n-th draw, any byte at all
(R38, U12; log entry 3). -/
opaque chipByte : Nat → Byte

/-- The Clock oracle once a state's own script of readings is used up: the n-th reading, any value at all
(R134, U16; log entry 3). -/
opaque clockReading : Nat → Word

/-- What a host-buffer byte reads as while nothing has written it (log entry 4, DESIGN CHOICE). -/
def hostFill : Byte := 0

end Config

end Sys2Proof
end

