-- ==== Sys2Proof/Syntax.lean ====
section
/-! DEFINITION. The instructions: one constructor per row of spec/opcode_table.json, in its order. The first eighteen are
the SPI frames the block emits (30_encoding.md R67, R69), the next sixteen the host requests it accepts (R78, R80), the
last the reserved request codes (R81). An operand is a field the encoding carries and the rule reads; a frame's chunk
length `n` is told by where chip-select rises (R68). -/

namespace Sys2Proof

inductive Instr where
  /-- `FMT_ID` frame 0x9F (R97). -/
  | spiIdentify
  /-- `FMT_RR` frame 0x05 (R99). -/
  | spiReadStatus
  /-- `FMT_RR` frame 0x15 (R100). -/
  | spiReadConfig
  /-- `FMT_AR` frame 0x03, address and chunk length (R116). -/
  | spiRead3 (a : Addr24) (n : Word)
  /-- `FMT_AR` frame 0x13 (R116). -/
  | spiRead4 (a : Word) (n : Word)
  /-- `FMT_AW` frame 0x02; its `n` data bytes come from the host buffer (R118). -/
  | spiProgram3 (a : Addr24) (n : Word)
  /-- `FMT_AW` frame 0x12 (R118). -/
  | spiProgram4 (a : Word) (n : Word)
  /-- `FMT_A` frame 0x20 (R105). -/
  | spiSectorErase3 (a : Addr24)
  /-- `FMT_A` frame 0x21 (R105). -/
  | spiSectorErase4 (a : Word)
  /-- `FMT_A` frame 0xD8 (R106). -/
  | spiBlockErase3 (a : Addr24)
  /-- `FMT_A` frame 0xDC (R106). -/
  | spiBlockErase4 (a : Word)
  /-- `FMT_C` frame 0xC7 (R107). -/
  | spiChipErase
  /-- `FMT_C` frame 0x06 (R103). -/
  | spiWriteEnable
  /-- `FMT_C` frame 0x66 (R109). -/
  | spiResetEnable
  /-- `FMT_C` frame 0x99 (R109). -/
  | spiReset
  /-- `FMT_C` frame 0xB9 (R110). -/
  | spiPowerDown
  /-- `FMT_C` frame 0xAB (R111). -/
  | spiReleasePowerDown
  /-- `FMT_RW` frame `CMD_WRITE_STATUS`, value (R101). -/
  | spiWriteStatus (v : Byte)
  /-- OP 0x00 (R92). -/
  | init
  /-- OP 0x01 (R97). -/
  | identify
  /-- OP 0x02 (R98). -/
  | validate
  /-- OP 0x03 (R99). -/
  | readStatus
  /-- OP 0x04 (R100). -/
  | readConfig
  /-- OP 0x05, status value `ARG[7:0]` (R101). -/
  | writeStatus (v : Byte)
  /-- OP 0x06, timeout `ARG` (R102). -/
  | waitWrite (t : Word)
  /-- OP 0x07 (R103). -/
  | writeEnable
  /-- OP 0x08, `ADDR_IN` (R105). -/
  | sectorErase (a : Word)
  /-- OP 0x09, `ADDR_IN` (R106). -/
  | blockErase (a : Word)
  /-- OP 0x0A (R107). -/
  | chipErase
  /-- OP 0x0B (R109). -/
  | resetDevice
  /-- OP 0x0C (R110). -/
  | deepPowerDown
  /-- OP 0x0D (R111). -/
  | wake
  /-- OP 0x0E, `ADDR_IN`, `LEN`, `BUF` (R115). -/
  | readData (a n buf : Word)
  /-- OP 0x0F, `ADDR_IN`, `LEN`, `BUF` (R117). -/
  | writeData (a n buf : Word)
  /-- OP 0x10..0xFF: no operation (R81). -/
  | reservedOp (op : Byte)
  deriving DecidableEq, Repr

namespace Instr

/-- The instruction is an SPI frame, not a host request (30_encoding.md sections 1 and 4). -/
def isFrame : Instr → Bool
  | spiIdentify | spiReadStatus | spiReadConfig | spiRead3 _ _ | spiRead4 _ _ | spiProgram3 _ _ | spiProgram4 _ _
  | spiSectorErase3 _ | spiSectorErase4 _ | spiBlockErase3 _ | spiBlockErase4 _ | spiChipErase | spiWriteEnable
  | spiResetEnable | spiReset | spiPowerDown | spiReleasePowerDown | spiWriteStatus _ => true
  | init | identify | validate | readStatus | readConfig | writeStatus _ | waitWrite _ | writeEnable | sectorErase _
  | blockErase _ | chipErase | resetDevice | deepPowerDown | wake | readData _ _ _ | writeData _ _ _
  | reservedOp _ => false

/-- `BUF` and `LEN` of a data request: the buffer range the request names (R46). -/
def buffer : Instr → Option (Word × Word)
  | readData _ n buf | writeData _ n buf => some (buf, n)
  | spiIdentify | spiReadStatus | spiReadConfig | spiRead3 _ _ | spiRead4 _ _ | spiProgram3 _ _ | spiProgram4 _ _
  | spiSectorErase3 _ | spiSectorErase4 _ | spiBlockErase3 _ | spiBlockErase4 _ | spiChipErase | spiWriteEnable
  | spiResetEnable | spiReset | spiPowerDown | spiReleasePowerDown | spiWriteStatus _
  | init | identify | validate | readStatus | readConfig | writeStatus _ | waitWrite _ | writeEnable | sectorErase _
  | blockErase _ | chipErase | resetDevice | deepPowerDown | wake | reservedOp _ => none

/-- The pseudo-operation `WAIT` (R83). -/
def pseudoWait : Instr := waitWrite 0

/-- The pseudo-operation `IS_BUSY` (R83): the Host tests bit 0 of the result. -/
def pseudoIsBusy : Instr := readStatus

/-- A request in the assembly form of R82, numbers in decimal. A frame has no such form. -/
def assembly : Instr → Option String
  | init => some "INIT"
  | identify => some "IDENTIFY"
  | validate => some "VALIDATE"
  | readStatus => some "READ_STATUS"
  | readConfig => some "READ_CONFIG"
  | writeStatus v => some ("WRITE_STATUS " ++ Nat.repr v.toNat)
  | waitWrite t => some ("WAIT_WRITE " ++ Nat.repr t.toNat)
  | writeEnable => some "WRITE_ENABLE"
  | sectorErase a => some ("SECTOR_ERASE " ++ Nat.repr a.toNat)
  | blockErase a => some ("BLOCK_ERASE " ++ Nat.repr a.toNat)
  | chipErase => some "CHIP_ERASE"
  | resetDevice => some "RESET_DEVICE"
  | deepPowerDown => some "DEEP_POWER_DOWN"
  | wake => some "WAKE"
  | readData a n buf =>
    some ("READ_DATA " ++ Nat.repr a.toNat ++ ", " ++ Nat.repr n.toNat ++ ", " ++ Nat.repr buf.toNat)
  | writeData a n buf =>
    some ("WRITE_DATA " ++ Nat.repr a.toNat ++ ", " ++ Nat.repr n.toNat ++ ", " ++ Nat.repr buf.toNat)
  | reservedOp _ => none
  | spiIdentify | spiReadStatus | spiReadConfig | spiRead3 _ _ | spiRead4 _ _ | spiProgram3 _ _ | spiProgram4 _ _
  | spiSectorErase3 _ | spiSectorErase4 _ | spiBlockErase3 _ | spiBlockErase4 _ | spiChipErase | spiWriteEnable
  | spiResetEnable | spiReset | spiPowerDown | spiReleasePowerDown | spiWriteStatus _ => none

end Instr

end Sys2Proof
end

