-- ==== Sys2Proof/Machine/State.lean ====
section
/-! DEFINITION. The sequencer's state (10_state.md R24 to R31, 70_reset_and_hazards.md R141), the environment it is driven by
(the agents of 00_scope.md R6), and the reasons a step can stop. Plain data throughout. -/

namespace Sys2Proof.Machine

/-- `SEQ_STATE` (R27). -/
inductive SeqState where
  | uninit | idle | busy | faulted
  deriving DecidableEq, Repr

/-- `CS`, the level driven on the chip-select output, active low (R30). -/
inductive CsLevel where
  | undriven | high | low
  deriving DecidableEq, Repr

/-- A transmitted byte as the trace records it: a byte, or `DC` (R10, R71). -/
inductive TxByte where
  | byte (b : Byte)
  | dc
  deriving DecidableEq, Repr

/-- The result values of R26; `nothing` is `respond()`. -/
inductive Response where
  | nothing
  | ident (v : Ident)
  | valid (b : Bool)
  | byte (v : Byte)
  deriving DecidableEq, Repr

/-- The events of the trace (R31). -/
inductive Event where
  | apply (b : BusSettings)
  | delayUs (n : Word)
  | csLow
  | csHigh
  | xfer (t : TxByte) (r : Byte)
  | clock (t : Word)
  | yield
  | spin
  | req (r : Record)
  | resp (v : Response)
  | memWrite (a : Word) (v : Byte)
  | fault (c : Byte)
  deriving DecidableEq, Repr

/-- The working registers (R24), by name. -/
inductive Reg where
  | addr | rem | cur | chunk | t | start | s
  deriving DecidableEq, Repr

/-- One working register. `value` is `none` where R141 and R25 say it holds no value. `fresh` says that a step of the
current request wrote it: R25 lets no rule read it before that, and earlier values stay where they are (P2, P4). -/
structure RegCell where
  value : Option Word
  fresh : Bool
  deriving DecidableEq, Repr

/-- The seven working registers (R24). -/
structure RegFile where
  addr  : RegCell
  rem   : RegCell
  cur   : RegCell
  chunk : RegCell
  t     : RegCell
  start : RegCell
  s     : RegCell
  deriving DecidableEq, Repr

/-- The byte-wide local temporaries of the pseudocode: `r1 r2 r3` of `IdRead` (R97), `c` of READ_CONFIG (R100), `r` of
`ReadChunk` (R116). -/
inductive Local where
  | r1 | r2 | r3 | c | r
  deriving DecidableEq, Repr

/-- The local temporaries, `none` until written and again once their procedure or request has ended (R12). -/
structure Locals where
  r1 : Option Byte
  r2 : Option Byte
  r3 : Option Byte
  c  : Option Byte
  r  : Option Byte
  deriving DecidableEq, Repr

/-- What becomes of the byte an exchange receives (the `rx used` column of R67). -/
inductive RxDest where
  | discard
  /-- `x[S]`. -/
  | status
  | keep (l : Local)
  deriving DecidableEq, Repr

/-- The delays an operation rule names (R18, R7). -/
inductive DelayName where
  | sharedSettle | weSettle | resetSettle | tres | dpdSettle
  deriving DecidableEq, Repr

/-- The argument a rule passes to `Wait` (R102, R108, R118). -/
inductive Timeout where
  | arg (t : Word)
  | sector
  | blockChip
  | program
  deriving DecidableEq, Repr

/-- Sector or block (R105, R106). -/
inductive EraseKind where
  | sector | block
  deriving DecidableEq, Repr

/-- The chunk loop of READ_DATA or of WRITE_DATA (R115, R117). -/
inductive DataDir where
  | read | write
  deriving DecidableEq, Repr

/-- The value a rule responds with (R26). -/
inductive RespKind where
  | nothing | ident | valid | status | config
  deriving DecidableEq, Repr

/-- One line of the pseudocode that is no frame: the primitives of R10 and R11, the register writes of R9, and the
loop heads of R102, R115 and R117. -/
inductive Prim where
  /-- INIT's `if CFG.SHARED == 0: ApplyBus(...)` (R92). -/
  | applyIfExclusive
  /-- `DelayUs(n)`. -/
  | delay (d : DelayName)
  | csAssert
  | csDeassert
  /-- `Xfer(t)`. -/
  | xfer (t : TxByte) (rx : RxDest)
  /-- Head of `ReadChunk`'s byte loop: `n` bytes still to come, the next for host address `d` (R116). -/
  | dataIn (d n : Nat)
  /-- `MemWrite(d, 1, r)`, then the loop goes on with `n` bytes to come. -/
  | storeIn (d n : Nat)
  /-- `ReadChunk` returns: its local temporary dies with it (R12, R116). -/
  | dropLocal (l : Local)
  /-- `ProgramChunk`'s byte loop: `n` bytes still to go, the next from host address `d` (R118). -/
  | dataOut (d n : Nat)
  /-- `x[r] <- v`. -/
  | setReg (r : Reg) (v : Word)
  /-- `x[T] <- (t == 0) ? CFG.WAIT_DEFAULT_MS : t` (R102). -/
  | waitBegin (t : Timeout)
  /-- `x[START] <- NowMs()`. -/
  | readStart
  /-- `if x[S][0] == 0: return`. -/
  | pollTest
  /-- `if ((NowMs() - x[START]) mod 2^32) >= x[T]: return`. -/
  | pollClock
  /-- `if x[T] > YIELD_THRESHOLD_MS: Yield() else: Spin()`, and round the loop. -/
  | pollPause
  /-- `NextChunk()` (R113). -/
  | nextChunk
  /-- The three advances at the end of a chunk (R115, R117). -/
  | advance
  /-- `while x[REM] > 0` (R115, R117). -/
  | chunkLoop (d : DataDir)
  /-- `respond(v)` (R35). -/
  | respond (k : RespKind)
  deriving DecidableEq, Repr

/-- One place in the pseudocode where a frame is sent. -/
inductive FrameCall where
  /-- A frame known when the request starts. -/
  | fixed (f : Instr)
  /-- `SendFrame([CmdSector] ++ AddrBytes(a))` or `[CmdBlock]` (R105, R106). -/
  | erase (k : EraseKind) (a : Word)
  /-- `ReadChunk(x[ADDR], x[CHUNK], BUF + x[CUR])` (R115). -/
  | readChunk
  /-- The page-program frame of `ProgramChunk(x[ADDR], x[CHUNK], BUF + x[CUR])` (R118). -/
  | programChunk
  deriving DecidableEq, Repr

/-- One position of the pseudocode. -/
inductive Micro where
  | prim (p : Prim)
  | frame (c : FrameCall)
  deriving DecidableEq, Repr

/-- A move of the agents around the sequencer (R6), in the order they act. -/
inductive EnvMove where
  /-- The Host presents a request now, whatever `SEQ_STATE` is (R34). -/
  | request (r : Record)
  /-- The Host issues a request once the previous one has responded (R40). -/
  | requestWhenFree (r : Record)
  /-- The Host writes a byte of its own buffer space while no request runs (R40, R46). -/
  | store (a : Word) (b : Byte)
  /-- Another device reconfigures a shared bus between two frames of this sequencer (R6, R137). -/
  | otherDevice (b : BusSettings)
  /-- Nobody but the sequencer moves. -/
  | pass
  deriving DecidableEq, Repr

/-- Why a step has no next state. The faults the spec gives the block (FAULT_CODE 0x01 to 0x05) are none of these: they
are states (R123). Each of these is safe: the model stops, and proves nothing of what would follow. -/
inductive Fault where
  /-- `FAULTED` has no step at all: the stuck state of R123, R129 and U6. Raised by every step and every instruction
  there. Safe. -/
  | stuckFaulted
  /-- A frame is opened while `CS` is not `HIGH` (R89, U7: "must `fault`"). Raised by opening a frame. Safe. -/
  | nestedTransaction
  /-- A byte is exchanged while `CS` is not `LOW` (R89). Raised by `Xfer`. Safe. -/
  | xferOutsideTransaction
  /-- A response while `CS` is not `HIGH` (R89). Raised by `respond`. Safe. -/
  | responseInsideTransaction
  /-- A working register is read that no step of the current request has written: R25 and D18 order this fault. Raised by
  `State.readReg`. Safe. -/
  | registerNoValue (r : Reg)
  /-- A local temporary is read before it is written (R12). Safe. -/
  | localNoValue (l : Local)
  /-- A host-buffer access outside the range the request names, or past 2^32 (R11, R46). Raised by the data frames.
  Safe. -/
  | outsideBuffer
  /-- A value would be computed for a malformed configuration (R20: "never computes a value"). Raised by the addressed
  frames and `NextChunk`. Safe. -/
  | malformedConfig
  /-- An SPI frame with no request running (R27, R86: the Host cannot request one). Raised by the SPI_ rows. Safe. -/
  | frameOutsideRequest
  /-- `BUSY` with no next primitive (R27, R28). Raised by the sequencer's step. Safe. -/
  | noNextPrimitive
  deriving DecidableEq, Repr

/-- Why an instruction has no meaning. Safe. -/
inductive Refusal where
  /-- Raised by exec for a row of the opcode table that has no meaning yet. No row is left so. -/
  | notModelled (mnemonic : String)
  deriving DecidableEq, Repr

/-- The host buffer space: address and byte, in the canonical form `Memory.wf` (R46). -/
abbrev Memory := List Host.Cell

structure State where
  /-- `CFG` (R17, R18): a parameter no step writes. -/
  cfg        : Cfg
  /-- The named parameters of R7, which no step writes. -/
  par        : Params
  /-- `SEQ_STATE` (R27). -/
  seqState   : SeqState
  /-- The request being executed (R27). -/
  current    : Option Instr
  /-- `pc`: what is left of the request's pseudocode, the next position first (R27, R28). -/
  pc         : Option (List Micro)
  /-- `CS` (R30). -/
  cs         : CsLevel
  /-- The working registers (R24). -/
  regs       : RegFile
  /-- Local temporaries (R12). -/
  locals     : Locals
  /-- `FAULT_CODE` (R29). -/
  faultCode  : Option Byte
  /-- The result of the last request (R26, R141). -/
  result     : Option Response
  /-- The trace, oldest event first (R31). -/
  trace      : List Event
  /-- The host buffer space (R46). -/
  mem        : Memory
  /-- The transport's settings, `none` while unknown (R44, R141). -/
  transport  : Option BusSettings
  /-- What the agents around the sequencer do next (R6). -/
  env        : List EnvMove
  /-- The Chip oracle's next bytes, and how many were drawn (R38). -/
  chipIn     : List Byte
  chipCount  : Nat
  /-- The Clock oracle's next readings, and how many were drawn (R134). -/
  clockIn    : List Word
  clockCount : Nat
  deriving DecidableEq, Repr

/-- A working register at reset: no value (R141). -/
def RegCell.empty : RegCell := { value := none, fresh := false }

/-- All working registers at reset (R141). -/
def RegFile.empty : RegFile :=
  { addr := .empty, rem := .empty, cur := .empty, chunk := .empty, t := .empty, start := .empty, s := .empty }

/-- No local temporary is alive (R12). -/
def Locals.empty : Locals := { r1 := none, r2 := none, r3 := none, c := none, r := none }

/-- Reset is the construction of a new instance with its configuration (R141). -/
def State.construct (cfg : Cfg) (par : Params) : State :=
  { cfg := cfg
    par := par
    seqState := .uninit
    current := none
    pc := none
    cs := .undriven
    regs := .empty
    locals := .empty
    faultCode := none
    result := none
    trace := []
    mem := []
    transport := none
    env := []
    chipIn := []
    chipCount := 0
    clockIn := []
    clockCount := 0 }

/-- The machine right after reset (R141), for the configuration and parameters log entry 2 names. `State.construct` gives
it for every other. -/
def State.reset : State := State.construct Config.resetCfg Config.resetParams

end Sys2Proof.Machine
end

