-- ==== Sys2Proof/Machine/Flags.lean ====
section
/-! DEFINITION. The block has no condition codes (00_scope.md R13, 10_state.md R26): what stands for flags are the WIP bit of a
status byte and the values a request returns. -/

namespace Sys2Proof.Machine

/-- `S[0]`, the write-in-progress bit of a status value (R41). -/
def wip (s : Word) : Bool := s.getLsbD 0

/-- The identify value: the first received byte most significant (R49, R72). -/
def identValue (r1 r2 r3 : Byte) : Ident :=
  (r1.setWidth 24 <<< 16) ||| (r2.setWidth 24 <<< 8) ||| r3.setWidth 24

/-- `ID[23:16]`, the manufacturer byte (R72). -/
def identTop (id : Ident) : Byte := id.extractLsb' 16 8

/-- `VALID = (ID[23:16] == CFG.MFR_ID)` (R74). -/
def validResult (c : Cfg) (id : Ident) : Bool := identTop id == c.mfrId

/-- The 24-bit response field: the value in its low bits, the rest 0 (R84). -/
def Response.field : Response → BitVec 24
  | .nothing => 0
  | .ident v => v
  | .valid b => if b then 1 else 0
  | .byte v => v.setWidth 24

end Sys2Proof.Machine
end

