-- ==== Sys2Proof/WellFormed.lean ====
section
/-! DEFINITION. Which terms of `Instr` stand for an encoding (`wellFormed`), and which frames a given configuration may
emit (`fits`): the checks of 30_encoding.md R67, R70, R81. -/

namespace Sys2Proof.Instr

/-- The term is some encoding's meaning: a data frame carries at least one byte (R67), a reserved request code is one
of 0x10..0xFF (R81). -/
def wellFormed : Instr → Bool
  | spiRead3 _ n | spiRead4 _ n | spiProgram3 _ n | spiProgram4 _ n => decide (1 ≤ n.toNat)
  | reservedOp op => decide (0x10 ≤ op.toNat)
  | spiIdentify | spiReadStatus | spiReadConfig | spiSectorErase3 _ | spiSectorErase4 _ | spiBlockErase3 _
  | spiBlockErase4 _ | spiChipErase | spiWriteEnable | spiResetEnable | spiReset | spiPowerDown | spiReleasePowerDown
  | spiWriteStatus _ => true
  | init | identify | validate | readStatus | readConfig | writeStatus _ | waitWrite _ | writeEnable | sectorErase _
  | blockErase _ | chipErase | resetDevice | deepPowerDown | wake | readData _ _ _ | writeData _ _ _ => true

/-- A sequencer configured as `c` may emit this frame: the variant of its addressing mode (R70), a chunk no longer than
a page (R67). A request is not emitted. No step consults this: `frameAt` builds only frames that fit, and one that does
not, put at `pc` from outside, runs all the same (log entry 23). -/
def fits (c : Cfg) : Instr → Bool
  | spiRead3 _ n | spiProgram3 _ n => c.addrBytes == 3 && decide (1 ≤ n.toNat) && decide (n.toNat ≤ c.pageSize.toNat)
  | spiRead4 _ n | spiProgram4 _ n => c.addrBytes == 4 && decide (1 ≤ n.toNat) && decide (n.toNat ≤ c.pageSize.toNat)
  | spiSectorErase3 _ | spiBlockErase3 _ => c.addrBytes == 3
  | spiSectorErase4 _ | spiBlockErase4 _ => c.addrBytes == 4
  | spiIdentify | spiReadStatus | spiReadConfig | spiChipErase | spiWriteEnable | spiResetEnable | spiReset
  | spiPowerDown | spiReleasePowerDown | spiWriteStatus _ => true
  | init | identify | validate | readStatus | readConfig | writeStatus _ | waitWrite _ | writeEnable | sectorErase _
  | blockErase _ | chipErase | resetDevice | deepPowerDown | wake | readData _ _ _ | writeData _ _ _
  | reservedOp _ => false

end Sys2Proof.Instr
end

