-- ==== Sys2Proof/Decode.lean ====
section
/-! DEFINITION. The two encodings of 30_encoding.md and their decoders: host requests (136-bit records, R77 to R82) and SPI
frames (byte sequences, R65 to R71). Decoding is total and rejects by name; the encoder stands after it. The table's two
kinds of row share the numbering of their first byte (0x05 is SPI_READ_STATUS on the SPI side and WRITE_STATUS on the
host side): the port a word arrives at says which it is (log entry 5). -/

namespace Sys2Proof

/-- Why a byte sequence is no frame of R67. -/
inductive DecodeError where
  /-- No byte between `CS_LOW` and `CS_HIGH`. -/
  | emptyFrame
  /-- A command byte outside the table of R69 (R75). -/
  | unknownCommand (c : Byte)
  /-- The frame's length is not one its command's format allows (R67, R68). -/
  | badLength (c : Byte)
  deriving DecidableEq, Repr

/-- The content of one transmitted position of a frame (the `tx` column of R67). -/
inductive Slot where
  | byte (b : Byte)
  /-- `DC`: the sequencer leaves the transmitted value undefined (R71). -/
  | dc
  /-- Data byte `i` of a page-program chunk: host buffer byte `BUF + CUR + i` (R50). -/
  | host (i : Nat)
  deriving DecidableEq, Repr

/-- What arrives at one of the block's two ports. -/
inductive Wire where
  | request (r : Record)
  | frame (bytes : List Byte)
  deriving DecidableEq, Repr

/-- What the encoder gives for one instruction. -/
inductive Encoded where
  | request (r : Record)
  | frame (tx : List Slot)
  deriving DecidableEq, Repr

/-! ### Address bytes (R48, R66) -/

/-- The three address bytes of a 3-byte-mode frame, most significant first. -/
def addrBytes3 (a : Addr24) : List Byte :=
  [a.extractLsb' 16 8, a.extractLsb' 8 8, a.extractLsb' 0 8]

/-- The four address bytes of a 4-byte-mode frame, most significant first. -/
def addrBytes4 (a : Word) : List Byte :=
  [a.extractLsb' 24 8, a.extractLsb' 16 8, a.extractLsb' 8 8, a.extractLsb' 0 8]

/-- `a[23:0]`: what a 3-byte-mode frame carries of a 32-bit address (R66, D4). -/
def low24 (a : Word) : Addr24 := a.extractLsb' 0 24

/-! ### Host request records (R77, R79) -/

/-- `OP`, bits [7:0]. -/
def opField (r : Record) : Byte := r.extractLsb' 0 8
/-- `ADDR_IN`, bits [39:8]. -/
def addrField (r : Record) : Word := r.extractLsb' 8 32
/-- `LEN`, bits [71:40]. -/
def lenField (r : Record) : Word := r.extractLsb' 40 32
/-- `ARG`, bits [103:72]. -/
def argField (r : Record) : Word := r.extractLsb' 72 32
/-- `BUF`, bits [135:104]. -/
def bufField (r : Record) : Word := r.extractLsb' 104 32

/-- The request decoder of R80, R81 and R85: total, and read from `OP` alone; an operation takes the operands R78
lists for it and ignores every other field. -/
def decodeRequest (r : Record) : Instr :=
  match (opField r).toNat with
  | 0x00 => .init
  | 0x01 => .identify
  | 0x02 => .validate
  | 0x03 => .readStatus
  | 0x04 => .readConfig
  | 0x05 => .writeStatus ((argField r).extractLsb' 0 8)
  | 0x06 => .waitWrite (argField r)
  | 0x07 => .writeEnable
  | 0x08 => .sectorErase (addrField r)
  | 0x09 => .blockErase (addrField r)
  | 0x0A => .chipErase
  | 0x0B => .resetDevice
  | 0x0C => .deepPowerDown
  | 0x0D => .wake
  | 0x0E => .readData (addrField r) (lenField r) (bufField r)
  | 0x0F => .writeData (addrField r) (lenField r) (bufField r)
  | _ => .reservedOp (opField r)

/-! ### SPI frames (R65 to R70). `ws` is the parameter `CMD_WRITE_STATUS`. -/

/-- A frame of exactly `k` bytes after its command. -/
def frameOf (c : Byte) (k : Nat) (rest : List Byte) (i : Instr) : Except DecodeError Instr :=
  if rest.length = k then .ok i else .error (.badLength c)

/-- `FMT_A` in 3-byte mode. -/
def frameA3 (c : Byte) (rest : List Byte) (k : Addr24 → Instr) : Except DecodeError Instr :=
  match rest with
  | [x, y, z] => .ok (k (x ++ y ++ z))
  | _ => .error (.badLength c)

/-- `FMT_A` in 4-byte mode. -/
def frameA4 (c : Byte) (rest : List Byte) (k : Word → Instr) : Except DecodeError Instr :=
  match rest with
  | [x, y, z, w] => .ok (k (x ++ y ++ z ++ w))
  | _ => .error (.badLength c)

/-- A data phase of `n` bytes, at least one, as long as a 32-bit chunk length can say (R54, R67). -/
def frameData (c : Byte) (data : List Byte) (k : Word → Instr) : Except DecodeError Instr :=
  if 1 ≤ data.length ∧ data.length < 2 ^ 32 then .ok (k (BitVec.ofNat 32 data.length)) else .error (.badLength c)

/-- `FMT_AR` and `FMT_AW` in 3-byte mode. -/
def frameD3 (c : Byte) (rest : List Byte) (k : Addr24 → Word → Instr) : Except DecodeError Instr :=
  match rest with
  | x :: y :: z :: data => frameData c data (k (x ++ y ++ z))
  | _ => .error (.badLength c)

/-- `FMT_AR` and `FMT_AW` in 4-byte mode. -/
def frameD4 (c : Byte) (rest : List Byte) (k : Word → Word → Instr) : Except DecodeError Instr :=
  match rest with
  | x :: y :: z :: w :: data => frameData c data (k (x ++ y ++ z ++ w))
  | _ => .error (.badLength c)

/-- The frame a byte sequence between `CS_LOW` and `CS_HIGH` is (R67, R69). -/
def decodeFrame (ws : Byte) (bytes : List Byte) : Except DecodeError Instr :=
  match bytes with
  | [] => .error .emptyFrame
  | c :: rest =>
    if c = 0x9F then frameOf c 3 rest .spiIdentify
    else if c = 0x05 then frameOf c 1 rest .spiReadStatus
    else if c = 0x15 then frameOf c 1 rest .spiReadConfig
    else if c = 0x03 then frameD3 c rest .spiRead3
    else if c = 0x13 then frameD4 c rest .spiRead4
    else if c = 0x02 then frameD3 c rest .spiProgram3
    else if c = 0x12 then frameD4 c rest .spiProgram4
    else if c = 0x20 then frameA3 c rest .spiSectorErase3
    else if c = 0x21 then frameA4 c rest .spiSectorErase4
    else if c = 0xD8 then frameA3 c rest .spiBlockErase3
    else if c = 0xDC then frameA4 c rest .spiBlockErase4
    else if c = 0xC7 then frameOf c 0 rest .spiChipErase
    else if c = 0x06 then frameOf c 0 rest .spiWriteEnable
    else if c = 0x66 then frameOf c 0 rest .spiResetEnable
    else if c = 0x99 then frameOf c 0 rest .spiReset
    else if c = 0xB9 then frameOf c 0 rest .spiPowerDown
    else if c = 0xAB then frameOf c 0 rest .spiReleasePowerDown
    else if c = ws then
      match rest with
      | [v] => .ok (.spiWriteStatus v)
      | _ => .error (.badLength c)
    else .error (.unknownCommand c)

/-- The block's decoder: what a word at one of its ports stands for. -/
def decode (ws : Byte) : Wire → Except DecodeError Instr
  | .request r => .ok (decodeRequest r)
  | .frame bytes => decodeFrame ws bytes

/-! ### The encoder -/

/-- A record with the given fields (R77): `BUF ARG LEN ADDR_IN OP`, most significant first. -/
def makeRecord (op : Byte) (addr len arg buf : Word) : Record := buf ++ arg ++ len ++ addr ++ op

/-- The record of a request, an omitted operand 0 (R80, R82). A frame is no request. -/
def encodeRequest : Instr → Option Record
  | .init => some (makeRecord 0x00 0 0 0 0)
  | .identify => some (makeRecord 0x01 0 0 0 0)
  | .validate => some (makeRecord 0x02 0 0 0 0)
  | .readStatus => some (makeRecord 0x03 0 0 0 0)
  | .readConfig => some (makeRecord 0x04 0 0 0 0)
  | .writeStatus v => some (makeRecord 0x05 0 0 (v.setWidth 32) 0)
  | .waitWrite t => some (makeRecord 0x06 0 0 t 0)
  | .writeEnable => some (makeRecord 0x07 0 0 0 0)
  | .sectorErase a => some (makeRecord 0x08 a 0 0 0)
  | .blockErase a => some (makeRecord 0x09 a 0 0 0)
  | .chipErase => some (makeRecord 0x0A 0 0 0 0)
  | .resetDevice => some (makeRecord 0x0B 0 0 0 0)
  | .deepPowerDown => some (makeRecord 0x0C 0 0 0 0)
  | .wake => some (makeRecord 0x0D 0 0 0 0)
  | .readData a n buf => some (makeRecord 0x0E a n 0 buf)
  | .writeData a n buf => some (makeRecord 0x0F a n 0 buf)
  | .reservedOp op => some (makeRecord op 0 0 0 0)
  | .spiIdentify | .spiReadStatus | .spiReadConfig | .spiRead3 _ _ | .spiRead4 _ _ | .spiProgram3 _ _
  | .spiProgram4 _ _ | .spiSectorErase3 _ | .spiSectorErase4 _ | .spiBlockErase3 _ | .spiBlockErase4 _
  | .spiChipErase | .spiWriteEnable | .spiResetEnable | .spiReset | .spiPowerDown | .spiReleasePowerDown
  | .spiWriteStatus _ => none

/-- The bytes of a frame that the sequencer decides and that do not come from the host buffer: the command byte, then
the address field or the value (R67, R69). A request sends none of its own. -/
def frameHeader (ws : Byte) : Instr → List Byte
  | .spiIdentify => [0x9F]
  | .spiReadStatus => [0x05]
  | .spiReadConfig => [0x15]
  | .spiRead3 a _ => 0x03 :: addrBytes3 a
  | .spiRead4 a _ => 0x13 :: addrBytes4 a
  | .spiProgram3 a _ => 0x02 :: addrBytes3 a
  | .spiProgram4 a _ => 0x12 :: addrBytes4 a
  | .spiSectorErase3 a => 0x20 :: addrBytes3 a
  | .spiSectorErase4 a => 0x21 :: addrBytes4 a
  | .spiBlockErase3 a => 0xD8 :: addrBytes3 a
  | .spiBlockErase4 a => 0xDC :: addrBytes4 a
  | .spiChipErase => [0xC7]
  | .spiWriteEnable => [0x06]
  | .spiResetEnable => [0x66]
  | .spiReset => [0x99]
  | .spiPowerDown => [0xB9]
  | .spiReleasePowerDown => [0xAB]
  | .spiWriteStatus v => [ws, v]
  | .init | .identify | .validate | .readStatus | .readConfig | .writeStatus _ | .waitWrite _ | .writeEnable
  | .sectorErase _ | .blockErase _ | .chipErase | .resetDevice | .deepPowerDown | .wake | .readData _ _ _
  | .writeData _ _ _ | .reservedOp _ => []

/-- The rest of a frame: `DC` bytes where it receives, host buffer bytes where it programs (R67). -/
def framePayload : Instr → List Slot
  | .spiIdentify => [.dc, .dc, .dc]
  | .spiReadStatus | .spiReadConfig => [.dc]
  | .spiRead3 _ n | .spiRead4 _ n => List.replicate n.toNat .dc
  | .spiProgram3 _ n | .spiProgram4 _ n => (List.range n.toNat).map .host
  | .spiSectorErase3 _ | .spiSectorErase4 _ | .spiBlockErase3 _ | .spiBlockErase4 _ | .spiChipErase
  | .spiWriteEnable | .spiResetEnable | .spiReset | .spiPowerDown | .spiReleasePowerDown | .spiWriteStatus _ => []
  | .init | .identify | .validate | .readStatus | .readConfig | .writeStatus _ | .waitWrite _ | .writeEnable
  | .sectorErase _ | .blockErase _ | .chipErase | .resetDevice | .deepPowerDown | .wake | .readData _ _ _
  | .writeData _ _ _ | .reservedOp _ => []

/-- The whole frame, position by position (R67). -/
def encodeFrame (ws : Byte) (i : Instr) : List Slot := (frameHeader ws i).map .byte ++ framePayload i

/-- The encoding of an instruction. -/
def encode (ws : Byte) (i : Instr) : Encoded :=
  match encodeRequest i with
  | some r => .request r
  | none => .frame (encodeFrame ws i)

/-- What a position carries on the wire when `fill k` is what stands at position `k` where the sequencer does not
decide it: the wire value of a `DC` byte is a draw (R16, R71), a data byte is the Host's. -/
def Slot.onWire (fill : Nat → Byte) (k : Nat) : Slot → Byte
  | .byte b => b
  | .dc => fill k
  | .host _ => fill k

/-- An encoding as it arrives at its port. -/
def Encoded.onWire (fill : Nat → Byte) : Encoded → Wire
  | .request r => .request r
  | .frame tx => .frame (tx.mapIdx (Slot.onWire fill))

/-! ### Words numbered as spec/opcode_table.json numbers them -/

/-- The seventeen command bytes the source fixes (R69, E9). -/
def fixedCommands : List Byte :=
  [0x9F, 0x05, 0x15, 0x03, 0x13, 0x02, 0x12, 0x20, 0x21, 0xD8, 0xDC, 0xC7, 0x06, 0x66, 0x99, 0xB9, 0xAB]

/-- How many bytes follow the command byte in the shortest frame of that command (R67). -/
def frameTail (ws c : Byte) : Nat :=
  if c = 0x9F then 3
  else if c = 0x05 ∨ c = 0x15 then 1
  else if c = 0x03 ∨ c = 0x02 then 4
  else if c = 0x13 ∨ c = 0x12 then 5
  else if c = 0x20 ∨ c = 0xD8 then 3
  else if c = 0x21 ∨ c = 0xDC then 4
  else if fixedCommands.contains c then 0
  else if c = ws then 1
  else 0

/-- Which port a table word stands for. A word of one byte is a request's `OP` where R80 names that code, else a frame's
command where R69 names that byte, else a reserved request code; a longer word is a frame up to 5 bytes and a request
record above (log entry 5). -/
def tableWordIsFrame (nbits w : Nat) : Bool :=
  if nbits ≤ 8 then decide (0x10 ≤ w % 256) && (fixedCommands.contains (BitVec.ofNat 8 w))
  else decide (nbits ≤ 40)

/-- The word as it arrives at its port: the bits above `nbits` are 0, and a frame is as long as its command needs. -/
def tableWire (nbits w : Nat) : Wire :=
  if tableWordIsFrame nbits w then
    let len := max (nbits / 8) (1 + frameTail Config.specWriteStatus (BitVec.ofNat 8 w))
    .frame ((List.range len).map fun k => BitVec.ofNat 8 ((w % 2 ^ nbits) >>> (8 * k)))
  else .request (BitVec.ofNat 136 (w % 2 ^ nbits))

/-- The instruction the decoder reads from a table word of `nbits` bits. -/
def decodeTableWord (nbits w : Nat) : Option Instr :=
  match decode Config.specWriteStatus (tableWire nbits w) with
  | .ok i => some i
  | .error _ => none

end Sys2Proof
end

