-- ==== Sys2Proof/Machine/Operands.lean ====
section
/-! DEFINITION. Operand forms and the address arithmetic: `AddrBytes` and the command selectors (30_encoding.md R66, R70),
timeouts and delays (10_state.md R22, R23), the range check (44_paged_io.md R120) and `NextChunk`'s arithmetic (R113). -/

namespace Sys2Proof.Machine

/-- `v > 0 and (v & (v - 1)) == 0` (R92). -/
def isPowerOfTwo (v : Word) : Bool := v != 0 && (v &&& (v - 1)) == 0

/-- The configuration checks of INIT (R20, R92). -/
def cfgOk (c : Cfg) : Bool := (c.addrBytes == 3 || c.addrBytes == 4) && isPowerOfTwo c.pageSize

/-- `AddrBytes(a)` (R66). -/
def addrBytes (c : Cfg) (a : Word) : List Byte :=
  if c.addrBytes = 3 then addrBytes3 (low24 a) else addrBytes4 a

/-- The erase frame the addressing mode selects: `[CmdSector]` or `[CmdBlock]`, then `AddrBytes(a)` (R70, R105, R106). No
frame is built for a malformed mode (R20). -/
def eraseFrame (c : Cfg) (k : EraseKind) (a : Word) : Option Instr :=
  if c.addrBytes = 3 then
    some (match k with
      | .sector => .spiSectorErase3 (low24 a)
      | .block => .spiBlockErase3 (low24 a))
  else if c.addrBytes = 4 then
    some (match k with
      | .sector => .spiSectorErase4 a
      | .block => .spiBlockErase4 a)
  else none

/-- The read frame the addressing mode selects: `[CmdRead] ++ AddrBytes(a)`, `n` bytes (R70, R116). -/
def readFrame (c : Cfg) (a n : Word) : Option Instr :=
  if c.addrBytes = 3 then some (.spiRead3 (low24 a) n)
  else if c.addrBytes = 4 then some (.spiRead4 a n)
  else none

/-- The page-program frame the addressing mode selects: `[CmdProg] ++ AddrBytes(a)`, `n` bytes (R70, R118). -/
def programFrame (c : Cfg) (a n : Word) : Option Instr :=
  if c.addrBytes = 3 then some (.spiProgram3 (low24 a) n)
  else if c.addrBytes = 4 then some (.spiProgram4 a n)
  else none

/-- The timeout a rule passes to `Wait`. -/
def timeoutArg (c : Cfg) : Timeout → Word
  | .arg t => t
  | .sector => c.seTimeoutMs
  | .blockChip => c.bceTimeoutMs
  | .program => c.ppTimeoutMs

/-- The effective timeout: 0 selects `CFG.WAIT_DEFAULT_MS` (R22, R102). -/
def effectiveTimeout (c : Cfg) (t : Word) : Word := if t = 0 then c.waitDefaultMs else t

/-- The length of a named delay, in microseconds (R7, R18). -/
def delayLength (c : Cfg) (p : Params) : DelayName → Word
  | .sharedSettle => c.sharedSettleUs
  | .weSettle => c.weSettleUs
  | .resetSettle => p.resetSettleUs
  | .tres => p.tresUs
  | .dpdSettle => p.dpdSettleUs

/-- `(now - start) mod 2^32` (R102). -/
def elapsed (now start : Word) : Word := now - start

/-- `ADDR_IN + LEN` and `BUF + LEN`, computed exactly, do not pass 2^32 (R120). -/
def rangeOk (a n buf : Word) : Bool :=
  decide (a.toNat + n.toNat ≤ 2 ^ 32) && decide (buf.toNat + n.toNat ≤ 2 ^ 32)

/-- `min(P - (a mod P), rem)` (R113). -/
def chunkLength (p a rem : Word) : Word :=
  let room := p - a % p
  if room ≤ rem then room else rem

end Sys2Proof.Machine
end

