-- ==== Sys2Proof/Machine/Ops.lean ====
section
/-! DEFINITION. The named operations every instruction is made of: the host buffer space, the working registers, the
primitives of 00_scope.md R10 and R11, raising a fault (60_exceptions.md R123), responding (10_state.md R35), taking a
request (R126) and opening a frame (40_bus_transaction.md R87). -/

namespace Sys2Proof.Machine

/-- What a step or an instruction answers. -/
abbrev Out := Host.Outcome State Fault Refusal

/-- Go on with a value, or stop with the fault its read gave. -/
def withValue {α : Type} (e : Except Fault α) (k : α → Out) : Out :=
  match e with
  | .ok v => k v
  | .error f => .fault f

/-! ### The host buffer space (R46) -/

/-- Addresses strictly rising from `lo`, inside 2^32, and no entry equal to what an unlisted address reads as. -/
def Memory.wfFrom (lo : Nat) : Memory → Bool
  | [] => true
  | (a, b) :: rest => decide (lo ≤ a) && decide (a < 2 ^ 32) && (b != Config.hostFill) && wfFrom (a + 1) rest

/-- The canonical form of a memory. -/
def Memory.wf (m : Memory) : Bool := Memory.wfFrom 0 m

/-- The byte at an address. -/
def Memory.read : Memory → Nat → Byte
  | [], _ => Config.hostFill
  | (a, b) :: rest, x => if a = x then b else read rest x

/-- The memory with one byte written, in canonical form again. -/
def Memory.write : Memory → Nat → Byte → Memory
  | [], x, v => if v = Config.hostFill then [] else [(x, v)]
  | (a, b) :: rest, x, v =>
    if x < a then (if v = Config.hostFill then (a, b) :: rest else (x, v) :: (a, b) :: rest)
    else if x = a then (if v = Config.hostFill then rest else (a, v) :: rest)
    else (a, b) :: write rest x v

/-! ### Working registers and local temporaries (R12, R24, R25) -/

def RegFile.get (f : RegFile) : Reg → RegCell
  | .addr => f.addr
  | .rem => f.rem
  | .cur => f.cur
  | .chunk => f.chunk
  | .t => f.t
  | .start => f.start
  | .s => f.s

def RegFile.put (f : RegFile) (r : Reg) (v : Word) : RegFile :=
  let cell : RegCell := { value := some v, fresh := true }
  match r with
  | .addr => { f with addr := cell }
  | .rem => { f with rem := cell }
  | .cur => { f with cur := cell }
  | .chunk => { f with chunk := cell }
  | .t => { f with t := cell }
  | .start => { f with start := cell }
  | .s => { f with s := cell }

def RegCell.stale (c : RegCell) : RegCell := { c with fresh := false }

/-- At the start of a request no register counts as written, and every register keeps its value (R25). -/
def RegFile.stale (f : RegFile) : RegFile :=
  { addr := f.addr.stale, rem := f.rem.stale, cur := f.cur.stale, chunk := f.chunk.stale
    t := f.t.stale, start := f.start.stale, s := f.s.stale }

def Locals.get (x : Locals) : Local → Option Byte
  | .r1 => x.r1
  | .r2 => x.r2
  | .r3 => x.r3
  | .c => x.c
  | .r => x.r

def Locals.put (x : Locals) (l : Local) (b : Byte) : Locals :=
  match l with
  | .r1 => { x with r1 := some b }
  | .r2 => { x with r2 := some b }
  | .r3 => { x with r3 := some b }
  | .c => { x with c := some b }
  | .r => { x with r := some b }

def Locals.drop (x : Locals) (l : Local) : Locals :=
  match l with
  | .r1 => { x with r1 := none }
  | .r2 => { x with r2 := none }
  | .r3 => { x with r3 := none }
  | .c => { x with c := none }
  | .r => { x with r := none }

/-- `x[r]`: only a value the current request wrote. The spec orders the stop: "A working register that no step of the
current request has written holds no value." and "A model that finds such a read must fault, not pick a value." (R25;
92_eei_decisions.md D18; the reset value of every working register is "no value", R141). -/
def State.readReg (s : State) (r : Reg) : Except Fault Word :=
  match (s.regs.get r).fresh, (s.regs.get r).value with
  | true, some v => .ok v
  | _, _ => .error (.registerNoValue r)

/-- `x[r] <- v` (R9). -/
def State.writeReg (s : State) (r : Reg) (v : Word) : State := { s with regs := s.regs.put r v }

def State.readLocal (s : State) (l : Local) : Except Fault Byte :=
  match s.locals.get l with
  | some b => .ok b
  | none => .error (.localNoValue l)

def State.writeLocal (s : State) (l : Local) (b : Byte) : State := { s with locals := s.locals.put l b }

/-- The procedure that owns `l` has returned (R12). -/
def State.dropLocal (s : State) (l : Local) : State := { s with locals := s.locals.drop l }

/-! ### The trace and the control position -/

/-- Record one event (R31). -/
def State.record (s : State) (e : Event) : State := { s with trace := s.trace ++ [e] }

/-- `pc` at the given rest of the pseudocode. -/
def State.setPc (s : State) (ops : List Micro) : State := { s with pc := some ops }

/-- Execute `ops` in place, before what was next (R12). -/
def State.pushOps (s : State) (ops : List Micro) : State := s.setPc (ops ++ s.pc.getD [])

/-! ### Bus primitives (R10) -/

/-- `ApplyBus`: the transport takes this device's settings (R10, R94). -/
def State.applyBus (s : State) : State :=
  { s.record (.apply s.cfg.bus) with transport := some s.cfg.bus }

/-- `DelayUs(n)`: recorded when `n > 0` (R10). -/
def State.delayUs (s : State) (n : Word) : State := if n = 0 then s else s.record (.delayUs n)

/-- `CsAssert()`. -/
def State.lowerCs (s : State) : State := { s.record .csLow with cs := .low }

/-- `CsDeassert()`. -/
def State.raiseCs (s : State) : State := { s.record .csHigh with cs := .high }

/-- The byte the Chip oracle gives at the k-th exchange from here (R38). -/
def State.chipDraw (s : State) (k : Nat) : Byte :=
  match s.chipIn[k]? with
  | some b => b
  | none => Config.chipByte (s.chipCount + k)

/-- The reading the Clock oracle gives at the k-th read from here (R134). -/
def State.clockDraw (s : State) (k : Nat) : Word :=
  match s.clockIn[k]? with
  | some t => t
  | none => Config.clockReading (s.clockCount + k)

/-- `Xfer(t)`: the state after exchanging `t` for the next byte of the Chip oracle, which is `chipDraw 0` (R10, R36). -/
def State.exchange (s : State) (t : TxByte) : State :=
  { s.record (.xfer t (s.chipDraw 0)) with chipIn := s.chipIn.tail, chipCount := s.chipCount + 1 }

/-- `NowMs()`: the state after reading the clock; the reading is `clockDraw 0` (R10, R134). -/
def State.readClock (s : State) : State :=
  { s.record (.clock (s.clockDraw 0)) with clockIn := s.clockIn.tail, clockCount := s.clockCount + 1 }

/-- Keep the received byte where the rule uses it (R67); `S` is 32 bits wide (R24). -/
def State.keepByte (s : State) (rx : RxDest) (b : Byte) : State :=
  match rx with
  | .discard => s
  | .status => s.writeReg .s (b.setWidth 32)
  | .keep l => s.writeLocal l b

/-- `r <- Xfer(t)`, the byte kept where `rx` says. -/
def State.xferTo (s : State) (t : TxByte) (rx : RxDest) : State := (s.exchange t).keepByte rx (s.chipDraw 0)

/-- `MemWrite(d, 1, b)` (R11): the byte is stored and recorded. -/
def State.storeByte (s : State) (d : Nat) (b : Byte) : State :=
  { s.record (.memWrite (BitVec.ofNat 32 d) b) with mem := s.mem.write d b }

/-! ### Faults and responses -/

/-- The fault codes of R124. -/
inductive FaultCode where
  | busy | undefinedOp | notInit | config | range
  deriving DecidableEq, Repr

def FaultCode.code : FaultCode → Byte
  | .busy => 0x01
  | .undefinedOp => 0x02
  | .notInit => 0x03
  | .config => 0x04
  | .range => 0x05

/-- `raise Fault(c)`: it writes `FAULT_CODE`, records `FAULT(c)` and sets `SEQ_STATE <- FAULTED`, and does nothing else
(R123, R127). There is no return from it (R128). -/
def State.raiseFault (s : State) (c : FaultCode) : State :=
  { s.record (.fault c.code) with faultCode := some c.code, seqState := .faulted }

/-- `respond(v)` (R28, R35): `SEQ_STATE <- IDLE`, `pc` and the local temporaries lose their values. -/
def State.respondWith (s : State) (v : Response) : State :=
  { s.record (.resp v) with
    seqState := .idle, current := none, pc := none, locals := .empty, result := some v }

/-! ### Taking a request (R34, R126) -/

/-- The accepted request starts at the head of its pseudocode (R27). -/
def State.startRequest (s : State) (i : Instr) (ops : List Micro) : State :=
  { s with seqState := .busy, current := some i, pc := some ops, regs := s.regs.stale, locals := .empty }

/-- The state checks a request other than INIT meets, in R126's order; `k` is what an accepted one does, the checks of
its own rule included. -/
def acceptIdle (s : State) (k : State → State) : Out :=
  match s.seqState with
  | .faulted => .fault .stuckFaulted
  | .busy => .next (s.raiseFault .busy)
  | .uninit => .next (s.raiseFault .notInit)
  | .idle => .next (k s)

/-- The state checks of INIT and of the reserved codes, which do not ask for an initialized sequencer (R92, R126). -/
def acceptAny (s : State) (k : State → State) : Out :=
  match s.seqState with
  | .faulted => .fault .stuckFaulted
  | .busy => .next (s.raiseFault .busy)
  | .uninit => .next (k s)
  | .idle => .next (k s)

/-! ### Procedures as positions of the pseudocode (R12) -/

/-- `Wait(t)`, up to its first test; the loop goes on from `pollTest` (R102). -/
def waitOps (t : Timeout) : List Micro :=
  [.prim (.waitBegin t), .prim .readStart, .frame (.fixed .spiReadStatus), .prim .pollTest]

/-- `WrenSeq()` (R103). -/
def wrenOps : List Micro := [.frame (.fixed .spiWriteEnable), .prim (.delay .weSettle)]

/-- The body of the chunk loops, and round them again (R115, R117, R118). -/
def chunkBody : DataDir → List Micro
  | .read =>
    [.prim .nextChunk, .frame .readChunk, .prim (.dropLocal .r), .prim .advance, .prim (.chunkLoop .read)]
  | .write =>
    .prim .nextChunk :: (waitOps (.arg 0) ++ wrenOps ++ .frame .programChunk :: waitOps .program
      ++ [.prim .advance, .prim (.chunkLoop .write)])

/-! ### Frames (R87, R88, R91) -/

/-- `XferOut` of a frame's header bytes, every received byte discarded. -/
def headerOps (s : State) (i : Instr) : List Micro :=
  (frameHeader s.par.cmdWriteStatus i).map fun b => .prim (.xfer (.byte b) .discard)

/-- Open a frame whose exchanges are `ops`: its `EndTx` and then what was next follow them. The first primitive of
`BeginTx` is performed: `ApplyBus` on a shared bus, `CsAssert` on an exclusive one (R87). A frame is part of a running
request (R27, R86) and opens only from `CS = HIGH` (R89). Which frame it is, is not checked against the configuration:
a frame the sequencer would not emit (R67, R70; `Instr.fits`) opens as any other (DESIGN CHOICE, log entry 23). -/
def openFrame (s : State) (ops : List Micro) : Out :=
  match s.seqState with
  | .uninit => .fault .frameOutsideRequest
  | .idle => .fault .frameOutsideRequest
  | .faulted => .fault .stuckFaulted
  | .busy =>
    match s.cs with
    | .undriven => .fault .nestedTransaction
    | .low => .fault .nestedTransaction
    | .high =>
      .next (
        let s' := s.pushOps (ops ++ [.prim .csDeassert])
        if s.cfg.shared then (s'.pushOps [.prim (.delay .sharedSettle), .prim .csAssert]).applyBus else s'.lowerCs)

/-- A frame of fixed length: the header, then `rx`'s `DC` exchanges. -/
def sendFrame (s : State) (i : Instr) (rx : List RxDest) : Out :=
  openFrame s (headerOps s i ++ rx.map fun d => .prim (.xfer .dc d))

/-- Where in the host buffer the current chunk of `n` bytes stands, `BUF + x[CUR]`, if all of it lies in the range the
request names and below 2^32 (R11, R46, R116, R118). -/
def chunkBuffer (s : State) (n : Word) : Except Fault Nat :=
  match s.current.bind Instr.buffer, s.readReg .cur with
  | some (buf, len), .ok cur =>
    if cur.toNat + n.toNat ≤ len.toNat ∧ buf.toNat + cur.toNat + n.toNat ≤ 2 ^ 32 then .ok (buf.toNat + cur.toNat)
    else .error .outsideBuffer
  | none, .ok _ => .error .outsideBuffer
  | _, .error f => .error f

/-- A read frame: the header, then `n` received bytes stored in the host buffer (R116). -/
def receiveFrame (s : State) (i : Instr) (n : Word) : Out :=
  withValue (chunkBuffer s n) fun d => openFrame s (headerOps s i ++ [.prim (.dataIn d n.toNat)])

/-- A page-program frame: the header, then `n` bytes from the host buffer (R118). -/
def programFrom (s : State) (i : Instr) (n : Word) : Out :=
  withValue (chunkBuffer s n) fun d => openFrame s (headerOps s i ++ [.prim (.dataOut d n.toNat)])

end Sys2Proof.Machine
end

