-- ==== Sys2Proof/Machine/Erase.lean ====
section
/-! DEFINITION. The erase requests (42_erase_ops.md R105 to R108): prior wait, write-enable, erase frame, trailing wait. -/

namespace Sys2Proof.Machine

/-- The one shape of the three erases (R108 (a)). -/
def eraseOps (c : FrameCall) (t : Timeout) : List Micro :=
  waitOps (.arg 0) ++ wrenOps ++ .frame c :: waitOps t ++ [.prim (.respond .nothing)]

/-- SECTOR_ERASE (R105). -/
def execSectorErase (a : Word) (s : State) : Out :=
  acceptIdle s fun s => s.startRequest (.sectorErase a) (eraseOps (.erase .sector a) .sector)

/-- BLOCK_ERASE (R106). -/
def execBlockErase (a : Word) (s : State) : Out :=
  acceptIdle s fun s => s.startRequest (.blockErase a) (eraseOps (.erase .block a) .blockChip)

/-- CHIP_ERASE (R107). -/
def execChipErase (s : State) : Out :=
  acceptIdle s fun s => s.startRequest .chipErase (eraseOps (.fixed .spiChipErase) .blockChip)

end Sys2Proof.Machine
end

