-- ==== Sys2Proof/Machine/Frames.lean ====
section
/-! DEFINITION. The eighteen SPI frames (30_encoding.md R65 to R71): each opens its transaction (40_bus_transaction.md R87), and its
exchanges, its `EndTx` and what was next stand at `pc`. Where a received byte is kept is the rule's. -/

namespace Sys2Proof.Machine

/-- 0x9F: three received bytes to `r1`, `r2`, `r3` (R97). -/
def execSpiIdentify (s : State) : Out := sendFrame s .spiIdentify [.keep .r1, .keep .r2, .keep .r3]

/-- 0x05: the second received byte to `x[S]` (R99). -/
def execSpiReadStatus (s : State) : Out := sendFrame s .spiReadStatus [.status]

/-- 0x15: the second received byte to `c` (R100). -/
def execSpiReadConfig (s : State) : Out := sendFrame s .spiReadConfig [.keep .c]

/-- 0x03 (R116). -/
def execSpiRead3 (a : Addr24) (n : Word) (s : State) : Out := receiveFrame s (.spiRead3 a n) n

/-- 0x13 (R116). -/
def execSpiRead4 (a n : Word) (s : State) : Out := receiveFrame s (.spiRead4 a n) n

/-- 0x02 (R118). -/
def execSpiProgram3 (a : Addr24) (n : Word) (s : State) : Out := programFrom s (.spiProgram3 a n) n

/-- 0x12 (R118). -/
def execSpiProgram4 (a n : Word) (s : State) : Out := programFrom s (.spiProgram4 a n) n

/-- 0x20 (R105). -/
def execSpiSectorErase3 (a : Addr24) (s : State) : Out := sendFrame s (.spiSectorErase3 a) []

/-- 0x21 (R105). -/
def execSpiSectorErase4 (a : Word) (s : State) : Out := sendFrame s (.spiSectorErase4 a) []

/-- 0xD8 (R106). -/
def execSpiBlockErase3 (a : Addr24) (s : State) : Out := sendFrame s (.spiBlockErase3 a) []

/-- 0xDC (R106). -/
def execSpiBlockErase4 (a : Word) (s : State) : Out := sendFrame s (.spiBlockErase4 a) []

/-- 0xC7 (R107). -/
def execSpiChipErase (s : State) : Out := sendFrame s .spiChipErase []

/-- 0x06 (R103). -/
def execSpiWriteEnable (s : State) : Out := sendFrame s .spiWriteEnable []

/-- 0x66 (R109). -/
def execSpiResetEnable (s : State) : Out := sendFrame s .spiResetEnable []

/-- 0x99 (R109). -/
def execSpiReset (s : State) : Out := sendFrame s .spiReset []

/-- 0xB9 (R110). -/
def execSpiPowerDown (s : State) : Out := sendFrame s .spiPowerDown []

/-- 0xAB (R111). -/
def execSpiReleasePowerDown (s : State) : Out := sendFrame s .spiReleasePowerDown []

/-- `CMD_WRITE_STATUS`, value (R101). -/
def execSpiWriteStatus (v : Byte) (s : State) : Out := sendFrame s (.spiWriteStatus v) []

end Sys2Proof.Machine
end

