-- ==== Sys2Proof/Machine/Paged.lean ====
section
/-! DEFINITION. The paged read and write requests (44_paged_io.md R113 to R122). -/

namespace Sys2Proof.Machine

/-- The pseudocode both requests share after their range check (R115, R117). -/
def dataOps (d : DataDir) (a n : Word) : List Micro :=
  [.prim (.setReg .addr a), .prim (.setReg .rem n), .prim (.setReg .cur 0), .prim (.chunkLoop d),
    .prim (.respond .nothing)]

/-- READ_DATA (R115): the range check comes before any bus event (R120). -/
def execReadData (a n buf : Word) (s : State) : Out :=
  acceptIdle s fun s =>
    if rangeOk a n buf then s.startRequest (.readData a n buf) (dataOps .read a n) else s.raiseFault .range

/-- WRITE_DATA (R117). -/
def execWriteData (a n buf : Word) (s : State) : Out :=
  acceptIdle s fun s =>
    if rangeOk a n buf then s.startRequest (.writeData a n buf) (dataOps .write a n) else s.raiseFault .range

end Sys2Proof.Machine
end

