-- ==== Sys2Proof/Machine/Power.lean ====
section
/-! DEFINITION. The reset and power requests (43_power_reset_ops.md R109 to R112). -/

namespace Sys2Proof.Machine

/-- RESET_DEVICE (R109). -/
def execResetDevice (s : State) : Out :=
  acceptIdle s fun s => s.startRequest .resetDevice
    (waitOps (.arg 0) ++
      [.frame (.fixed .spiResetEnable), .prim (.delay .resetSettle), .frame (.fixed .spiReset),
        .prim (.delay .resetSettle), .prim (.respond .nothing)])

/-- DEEP_POWER_DOWN (R110). -/
def execDeepPowerDown (s : State) : Out :=
  acceptIdle s fun s => s.startRequest .deepPowerDown
    [.frame (.fixed .spiPowerDown), .prim (.delay .dpdSettle), .prim (.respond .nothing)]

/-- WAKE (R111). -/
def execWake (s : State) : Out :=
  acceptIdle s fun s => s.startRequest .wake
    [.frame (.fixed .spiReleasePowerDown), .prim (.delay .tres), .prim (.respond .nothing)]

end Sys2Proof.Machine
end

