-- ==== Sys2Proof/Machine/Registers.lean ====
section
/-! DEFINITION. Initialization, the reserved request codes, and the identification, register, wait and write-enable requests
(40_bus_transaction.md R92, 30_encoding.md R81, 41_register_ops.md R97 to R103). An accepted request stands at the head of its
pseudocode. -/

namespace Sys2Proof.Machine

/-- INIT (R92): the configuration checks come before any bus event. -/
def execInit (s : State) : Out :=
  acceptAny s fun s =>
    if cfgOk s.cfg then s.startRequest .init [.prim .csDeassert, .prim .applyIfExclusive, .prim (.respond .nothing)]
    else s.raiseFault .config

/-- IDENTIFY (R97). -/
def execIdentify (s : State) : Out :=
  acceptIdle s fun s => s.startRequest .identify [.frame (.fixed .spiIdentify), .prim (.respond .ident)]

/-- VALIDATE (R98). -/
def execValidate (s : State) : Out :=
  acceptIdle s fun s => s.startRequest .validate [.frame (.fixed .spiIdentify), .prim (.respond .valid)]

/-- READ_STATUS (R99). -/
def execReadStatus (s : State) : Out :=
  acceptIdle s fun s => s.startRequest .readStatus [.frame (.fixed .spiReadStatus), .prim (.respond .status)]

/-- READ_CONFIG (R100). -/
def execReadConfig (s : State) : Out :=
  acceptIdle s fun s => s.startRequest .readConfig [.frame (.fixed .spiReadConfig), .prim (.respond .config)]

/-- WRITE_STATUS (R101): a wait, the frame, no write-enable and no poll. -/
def execWriteStatus (v : Byte) (s : State) : Out :=
  acceptIdle s fun s => s.startRequest (.writeStatus v)
    (waitOps (.arg 0) ++ [.frame (.fixed (.spiWriteStatus v)), .prim (.respond .nothing)])

/-- WAIT_WRITE (R102). -/
def execWaitWrite (t : Word) (s : State) : Out :=
  acceptIdle s fun s => s.startRequest (.waitWrite t) (waitOps (.arg t) ++ [.prim (.respond .nothing)])

/-- WRITE_ENABLE (R103). -/
def execWriteEnable (s : State) : Out :=
  acceptIdle s fun s => s.startRequest .writeEnable (wrenOps ++ [.prim (.respond .nothing)])

/-- A reserved request code (R81, R126): the reserved check comes before the not-initialized check. -/
def execReservedOp (_op : Byte) (s : State) : Out := acceptAny s fun s => s.raiseFault .undefinedOp

end Sys2Proof.Machine
end

