-- ==== Sys2Proof/Machine/Dispatch.lean ====
section
/-! DEFINITION. One arm per row of spec/opcode_table.json. -/

namespace Sys2Proof.Machine

def exec (i : Instr) (s : State) : Host.Outcome State Fault Refusal :=
  match i with
  -- the SPI frames the block emits (R69)
  | .spiIdentify => Sys2Proof.Machine.execSpiIdentify s
  | .spiReadStatus => Sys2Proof.Machine.execSpiReadStatus s
  | .spiReadConfig => Sys2Proof.Machine.execSpiReadConfig s
  | .spiRead3 a n => Sys2Proof.Machine.execSpiRead3 a n s
  | .spiRead4 a n => Sys2Proof.Machine.execSpiRead4 a n s
  | .spiProgram3 a n => Sys2Proof.Machine.execSpiProgram3 a n s
  | .spiProgram4 a n => Sys2Proof.Machine.execSpiProgram4 a n s
  | .spiSectorErase3 a => Sys2Proof.Machine.execSpiSectorErase3 a s
  | .spiSectorErase4 a => Sys2Proof.Machine.execSpiSectorErase4 a s
  | .spiBlockErase3 a => Sys2Proof.Machine.execSpiBlockErase3 a s
  | .spiBlockErase4 a => Sys2Proof.Machine.execSpiBlockErase4 a s
  | .spiChipErase => Sys2Proof.Machine.execSpiChipErase s
  | .spiWriteEnable => Sys2Proof.Machine.execSpiWriteEnable s
  | .spiResetEnable => Sys2Proof.Machine.execSpiResetEnable s
  | .spiReset => Sys2Proof.Machine.execSpiReset s
  | .spiPowerDown => Sys2Proof.Machine.execSpiPowerDown s
  | .spiReleasePowerDown => Sys2Proof.Machine.execSpiReleasePowerDown s
  | .spiWriteStatus v => Sys2Proof.Machine.execSpiWriteStatus v s
  -- the host requests (R80)
  | .init => Sys2Proof.Machine.execInit s
  | .identify => Sys2Proof.Machine.execIdentify s
  | .validate => Sys2Proof.Machine.execValidate s
  | .readStatus => Sys2Proof.Machine.execReadStatus s
  | .readConfig => Sys2Proof.Machine.execReadConfig s
  | .writeStatus v => Sys2Proof.Machine.execWriteStatus v s
  | .waitWrite t => Sys2Proof.Machine.execWaitWrite t s
  | .writeEnable => Sys2Proof.Machine.execWriteEnable s
  | .sectorErase a => Sys2Proof.Machine.execSectorErase a s
  | .blockErase a => Sys2Proof.Machine.execBlockErase a s
  | .chipErase => Sys2Proof.Machine.execChipErase s
  | .resetDevice => Sys2Proof.Machine.execResetDevice s
  | .deepPowerDown => Sys2Proof.Machine.execDeepPowerDown s
  | .wake => Sys2Proof.Machine.execWake s
  | .readData a n buf => Sys2Proof.Machine.execReadData a n buf s
  | .writeData a n buf => Sys2Proof.Machine.execWriteData a n buf s
  -- the reserved request codes (R81)
  | .reservedOp op => Sys2Proof.Machine.execReservedOp op s

end Sys2Proof.Machine
end

