-- ==== Sys2Proof/Machine/Prims.lean ====
section
/-! DEFINITION. One step at each position of the pseudocode that is no frame: the primitives of 00_scope.md R10 and R11, the
register writes, and the loops of 41_register_ops.md R102 and 44_paged_io.md R115, R117. Each takes the state whose `pc`
already stands at what follows. -/

namespace Sys2Proof.Machine

/-- `CsAssert()`, recorded only when `CS = HIGH` (R89, U7). -/
def doCsAssert (s : State) : Out :=
  match s.cs with
  | .high => .next s.lowerCs
  | .undriven => .fault .nestedTransaction
  | .low => .fault .nestedTransaction

/-- `Xfer(t)`, recorded only when `CS = LOW` (R89). -/
def doXfer (t : TxByte) (rx : RxDest) (s : State) : Out :=
  match s.cs with
  | .low => .next (s.xferTo t rx)
  | .undriven => .fault .xferOutsideTransaction
  | .high => .fault .xferOutsideTransaction

/-- `for i: r <- Xfer(DC)` of `ReadChunk` (R116). -/
def doDataIn (d n : Nat) (s : State) : Out :=
  match n with
  | 0 => .next s
  | k + 1 => doXfer .dc (.keep .r) (s.pushOps [.prim (.storeIn d k)])

/-- `MemWrite(d, 1, r)` of `ReadChunk`, right after the exchange that received the byte (R116, R122). -/
def doStoreIn (d n : Nat) (s : State) : Out :=
  withValue (s.readLocal .r) fun b =>
    if d < 2 ^ 32 then .next ((s.storeByte d b).pushOps [.prim (.dataIn (d + 1) n)]) else .fault .outsideBuffer

/-- `for i: Xfer(MemRead(d, 1))` of `ProgramChunk`: the byte is read right before the exchange that sends it (R118,
R122). -/
def doDataOut (d n : Nat) (s : State) : Out :=
  match n with
  | 0 => .next s
  | k + 1 =>
    if d < 2 ^ 32 then doXfer (.byte (s.mem.read d)) .discard (s.pushOps [.prim (.dataOut (d + 1) k)])
    else .fault .outsideBuffer

/-- `x[T] <- (t == 0) ? CFG.WAIT_DEFAULT_MS : t` (R102). -/
def doWaitBegin (t : Timeout) (s : State) : Out :=
  .next (s.writeReg .t (effectiveTimeout s.cfg (timeoutArg s.cfg t)))

/-- `x[START] <- NowMs()` (R102). -/
def doReadStart (s : State) : Out := .next (s.readClock.writeReg .start (s.clockDraw 0))

/-- `if x[S][0] == 0: return`, else on to the clock (R102). -/
def doPollTest (s : State) : Out :=
  withValue (s.readReg .s) fun v => .next (if wip v then s.pushOps [.prim .pollClock] else s)

/-- `if ((NowMs() - x[START]) mod 2^32) >= x[T]: return`, else on to the pause (R102). -/
def doPollClock (s : State) : Out :=
  withValue (s.readReg .start) fun start =>
    withValue (s.readReg .t) fun t =>
      .next (if t ≤ elapsed (s.clockDraw 0) start then s.readClock else s.readClock.pushOps [.prim .pollPause])

/-- Yield when the effective timeout exceeds the threshold, spin when not, and poll again (R102). -/
def doPollPause (s : State) : Out :=
  withValue (s.readReg .t) fun t =>
    .next ((s.record (if s.par.yieldThresholdMs < t then .yield else .spin)).pushOps
      [.frame (.fixed .spiReadStatus), .prim .pollTest])

/-- `NextChunk()` (R113), never for a malformed page size (R20). -/
def doNextChunk (s : State) : Out :=
  withValue (s.readReg .addr) fun a =>
    withValue (s.readReg .rem) fun rem =>
      if isPowerOfTwo s.cfg.pageSize then .next (s.writeReg .chunk (chunkLength s.cfg.pageSize a rem))
      else .fault .malformedConfig

/-- `x[ADDR] <- (x[ADDR] + x[CHUNK]) mod 2^32`, `x[CUR] <- x[CUR] + x[CHUNK]`, `x[REM] <- x[REM] - x[CHUNK]` (R115,
R117). -/
def doAdvance (s : State) : Out :=
  withValue (s.readReg .addr) fun a =>
    withValue (s.readReg .cur) fun cur =>
      withValue (s.readReg .rem) fun rem =>
        withValue (s.readReg .chunk) fun chunk =>
          .next (((s.writeReg .addr (a + chunk)).writeReg .cur (cur + chunk)).writeReg .rem (rem - chunk))

/-- `while x[REM] > 0` (R115, R117). -/
def doChunkLoop (d : DataDir) (s : State) : Out :=
  withValue (s.readReg .rem) fun rem => .next (if rem = 0 then s else s.pushOps (chunkBody d))

/-- The value a rule responds with (R26, R97 to R100). -/
def responseValue (k : RespKind) (s : State) : Except Fault Response :=
  match k with
  | .nothing => .ok .nothing
  | .ident =>
    match s.readLocal .r1, s.readLocal .r2, s.readLocal .r3 with
    | .ok a, .ok b, .ok c => .ok (.ident (identValue a b c))
    | .error f, _, _ => .error f
    | .ok _, .error f, _ => .error f
    | .ok _, .ok _, .error f => .error f
  | .valid =>
    match s.readLocal .r1, s.readLocal .r2, s.readLocal .r3 with
    | .ok a, .ok b, .ok c => .ok (.valid (validResult s.cfg (identValue a b c)))
    | .error f, _, _ => .error f
    | .ok _, .error f, _ => .error f
    | .ok _, .ok _, .error f => .error f
  | .status =>
    match s.readReg .s with
    | .ok v => .ok (.byte (v.setWidth 8))
    | .error f => .error f
  | .config =>
    match s.readLocal .c with
    | .ok b => .ok (.byte b)
    | .error f => .error f

/-- `respond(v)`, recorded only when `CS = HIGH` (R35, R89). -/
def doRespond (k : RespKind) (s : State) : Out :=
  match s.cs with
  | .high => withValue (responseValue k s) fun v => .next (s.respondWith v)
  | .undriven => .fault .responseInsideTransaction
  | .low => .fault .responseInsideTransaction

/-- One position of the pseudocode that is no frame. -/
def execPrim (p : Prim) (s : State) : Out :=
  match p with
  | .applyIfExclusive => .next (if s.cfg.shared then s else s.applyBus)
  | .delay d => .next (s.delayUs (delayLength s.cfg s.par d))
  | .csAssert => doCsAssert s
  | .csDeassert => .next s.raiseCs
  | .xfer t rx => doXfer t rx s
  | .dataIn d n => doDataIn d n s
  | .storeIn d n => doStoreIn d n s
  | .dataOut d n => doDataOut d n s
  | .dropLocal l => .next (s.dropLocal l)
  | .setReg r v => .next (s.writeReg r v)
  | .waitBegin t => doWaitBegin t s
  | .readStart => doReadStart s
  | .pollTest => doPollTest s
  | .pollClock => doPollClock s
  | .pollPause => doPollPause s
  | .nextChunk => doNextChunk s
  | .advance => doAdvance s
  | .chunkLoop d => doChunkLoop d s
  | .respond k => doRespond k s

/-- The frame to send at a place of the pseudocode, its operands read from the registers where the rule says so. -/
def frameAt (c : FrameCall) (s : State) : Except Fault Instr :=
  match c with
  | .fixed f => .ok f
  | .erase k a =>
    match eraseFrame s.cfg k a with
    | some f => .ok f
    | none => .error .malformedConfig
  | .readChunk =>
    match s.readReg .addr, s.readReg .chunk with
    | .ok a, .ok n =>
      match readFrame s.cfg a n with
      | some f => .ok f
      | none => .error .malformedConfig
    | .error f, _ => .error f
    | .ok _, .error f => .error f
  | .programChunk =>
    match s.readReg .addr, s.readReg .chunk with
    | .ok a, .ok n =>
      match programFrame s.cfg a n with
      | some f => .ok f
      | none => .error .malformedConfig
    | .error f, _ => .error f
    | .ok _, .error f => .error f

end Sys2Proof.Machine
end

