-- ==== Sys2Proof/Machine/Run.lean ====
section
/-! DEFINITION. The agents of 00_scope.md R6 put together: the sequencer's own step (10_state.md R27), a request arriving (R34), and
the moves of the agents around it. Also how a table word is placed where the next step takes it. -/

namespace Sys2Proof.Machine

/-- The sequencer performs what stands at `pc` (R27, R28). Outside `BUSY` it waits for a request (R142), and in `FAULTED` it
has no step (R123). -/
def seqStep (s : State) : Out :=
  match s.seqState with
  | .uninit => .next s
  | .idle => .next s
  | .faulted => .fault .stuckFaulted
  | .busy =>
    match s.pc with
    | none => .fault .noNextPrimitive
    | some [] => .fault .noNextPrimitive
    | some (.prim p :: rest) => execPrim p (s.setPc rest)
    | some (.frame c :: rest) => withValue (frameAt c (s.setPc rest)) fun f => exec f (s.setPc rest)

/-- A request is taken at once and recorded (R34), then decoded (R85) and executed. -/
def takeRequest (r : Record) (s : State) : Out := exec (decodeRequest r) (s.record (.req r))

/-- A transaction is open: `CS` is low (R15, R30). Everything else is between two frames (R32). -/
def inTransaction (s : State) : Bool :=
  match s.cs with
  | .low => true
  | .undriven => false
  | .high => false

/-- One step of the agents: whoever's turn `env` says it is. A move that has to wait (R40, R137) leaves the step to the
sequencer. An exclusive bus has no other device (R44, D35), so such a move changes nothing there. -/
def agentStep (s : State) : Out :=
  match s.env with
  | [] => seqStep s
  | .pass :: rest => seqStep { s with env := rest }
  | .request r :: rest => takeRequest r { s with env := rest }
  | .requestWhenFree r :: rest =>
    if s.seqState = .busy then seqStep s else takeRequest r { s with env := rest }
  | .store a b :: rest =>
    if s.seqState = .busy then seqStep s else .next { s with env := rest, mem := s.mem.write a.toNat b }
  | .otherDevice b :: rest =>
    if s.cfg.shared then
      if inTransaction s then seqStep s else .next { s with env := rest, transport := some b }
    else .next { s with env := rest }

/-- One step of the whole: in `FAULTED` nothing moves and a request is not even taken (R34, R123, R129). -/
def wholeStep (s : State) : Out :=
  match s.seqState with
  | .faulted => .fault .stuckFaulted
  | .uninit => agentStep s
  | .idle => agentStep s
  | .busy => agentStep s

/-- Where a frame is taken from: the position `pc` of a running request. A sequencer that is not `BUSY` is made so, its
chip-select driven high as INIT leaves it; a data frame also needs a request that names a buffer, and `CUR` (log
entry 6). Any frame can be placed, the other addressing mode's and one of any length too (log entry 23). -/
def placeFrame (i : Instr) (n : Word) (s : State) : State :=
  let s' := { s with
    seqState := .busy, cs := .high, env := .pass :: s.env
    pc := some (.frame (.fixed i) :: (s.pc.getD [.prim (.respond .nothing)])) }
  if n = 0 then s' else { s' with current := some (.readData 0 n 0), regs := s'.regs.put .cur 0 }

/-- The chunk length a data frame names, 0 for another instruction. -/
def chunkOperand : Instr → Word
  | .spiRead3 _ n | .spiRead4 _ n | .spiProgram3 _ n | .spiProgram4 _ n => n
  | .spiIdentify | .spiReadStatus | .spiReadConfig | .spiSectorErase3 _ | .spiSectorErase4 _ | .spiBlockErase3 _
  | .spiBlockErase4 _ | .spiChipErase | .spiWriteEnable | .spiResetEnable | .spiReset | .spiPowerDown
  | .spiReleasePowerDown | .spiWriteStatus _
  | .init | .identify | .validate | .readStatus | .readConfig | .writeStatus _ | .waitWrite _ | .writeEnable
  | .sectorErase _ | .blockErase _ | .chipErase | .resetDevice | .deepPowerDown | .wake | .readData _ _ _
  | .writeData _ _ _ | .reservedOp _ => 0

/-- The state whose very next step takes the table word: a request is presented at the host port, a frame stands at `pc`. -/
def placeWord (nbits w : Nat) (s : State) : State :=
  match tableWire nbits w with
  | .request r => { s with env := .request r :: s.env }
  | .frame bytes =>
    match decodeFrame Config.specWriteStatus bytes with
    | .ok i => placeFrame i (chunkOperand i) s
    | .error _ => s

end Sys2Proof.Machine
end

