-- ==== Sys2Proof/Machine/Step.lean ====
section
/-! DEFINITION. One step of the machine, and where the host places a table word. -/

namespace Sys2Proof.Machine

/-- One step: the next move of the agents of R6. -/
def step (s : State) : Host.Outcome State Fault Refusal := wholeStep s

/-- The state whose next step takes the table word `w` of `nbits` bits (log entry 6). -/
def State.withFetchWord (s : State) (nbits w : Nat) : State := placeWord nbits w s

end Sys2Proof.Machine
end

