-- ==== Sys2Proof/Safety.lean ====
section
/-! DEFINITION. What claims are stated in. The runs of the sequencer; the pseudocode of files 40 to 44 as functions on whole
states (what a request does, start to end); the events a frame and a request record (R96); the chunks of a range
(R114); and the invariant of the machine, with the checks it is made of. -/

namespace Sys2Proof.Machine

/-! ### Runs -/

/-- `k` steps of the sequencer, no agent around it moving. -/
def seqRun : Nat → State → Out
  | 0, s => .next s
  | k + 1, s =>
    match seqStep s with
    | .next t => seqRun k t
    | .fault f => .fault f
    | .refused r => .refused r

/-- The sequencer gets from `s` to `t` by its own steps. -/
def Reaches (s t : State) : Prop := ∃ k, seqRun k s = .next t

/-- No agent around the sequencer moves while a request runs: `env` is empty, or its next move waits for the response
(R40). -/
def quiet (s : State) : Bool :=
  match s.env with
  | [] => true
  | .requestWhenFree _ :: _ => true
  | .store _ _ :: _ => true
  | .request _ :: _ => false
  | .otherDevice _ :: _ => false
  | .pass :: _ => false

/-! ### The pseudocode, start to end. `pc` takes no part in it. -/

namespace Code

/-- `CmdRead`, `CmdProg`, `CmdSector` and `CmdBlock` (R70). -/
def cmdRead (c : Cfg) : Byte := if c.addrBytes = 3 then 0x03 else 0x13
def cmdProg (c : Cfg) : Byte := if c.addrBytes = 3 then 0x02 else 0x12
def cmdSector (c : Cfg) : Byte := if c.addrBytes = 3 then 0x20 else 0x21
def cmdBlock (c : Cfg) : Byte := if c.addrBytes = 3 then 0xD8 else 0xDC

/-- `BeginTx()` (R87). -/
def beginTx (s : State) : State :=
  (if s.cfg.shared then s.applyBus.delayUs s.cfg.sharedSettleUs else s).lowerCs

/-- `EndTx()` (R88). -/
def endTx (s : State) : State := s.raiseCs

/-- `XferOut(bs)` (R10). -/
def xferOut (bs : List Byte) (s : State) : State := bs.foldl (fun s b => s.exchange (.byte b)) s

/-- `Xfer(DC)` once for each destination. -/
def xferIn (rx : List RxDest) (s : State) : State := rx.foldl (fun s d => s.xferTo .dc d) s

/-- `SendFrame(bs)` (R91), and the frames that also receive (R97, R99, R100). -/
def frame (bs : List Byte) (rx : List RxDest) (s : State) : State := endTx (xferIn rx (xferOut bs (beginTx s)))

/-- `StatusRead()` (R99). -/
def statusRead (s : State) : State := frame [0x05] [.status] s

/-- `IdRead()` (R97). -/
def idRead (s : State) : State := frame [0x9F] [.keep .r1, .keep .r2, .keep .r3] s

/-- The byte loop of `ReadChunk` (R116). -/
def readBytes : Nat → Nat → State → State
  | 0, _, s => s
  | n + 1, d, s => readBytes n (d + 1) ((s.xferTo .dc (.keep .r)).storeByte d (s.chipDraw 0))

/-- The byte loop of `ProgramChunk` (R118). -/
def programBytes : Nat → Nat → State → State
  | 0, _, s => s
  | n + 1, d, s => programBytes n (d + 1) (s.exchange (.byte (s.mem.read d)))

/-- `ReadChunk` after its address is chosen (R116). -/
def readChunk (bs : List Byte) (d n : Nat) (s : State) : State := endTx (readBytes n d (xferOut bs (beginTx s)))

/-- The page-program frame of `ProgramChunk` (R118). -/
def programFrame (bs : List Byte) (d n : Nat) (s : State) : State :=
  endTx (programBytes n d (xferOut bs (beginTx s)))

/-- `WrenSeq()` (R103). -/
def wren (s : State) : State := (frame [0x06] [] s).delayUs s.cfg.weSettleUs

/-- The loop of `Wait` with its `T` and `START`, given up after `fuel` status reads (R102). The status byte is the second
byte received. -/
def pollLoop (t start : Word) : Nat → State → Option State
  | 0, _ => none
  | fuel + 1, s =>
    let s1 := statusRead s
    if wip ((s.chipDraw 1).setWidth 32) = false then some s1
    else if t ≤ elapsed (s1.clockDraw 0) start then some s1.readClock
    else pollLoop t start fuel (s1.readClock.record (if s.par.yieldThresholdMs < t then .yield else .spin))

/-- `Wait(t)`, given up after `fuel` status reads (R102). -/
def wait (fuel : Nat) (t : Timeout) (s : State) : Option State :=
  let eff := effectiveTimeout s.cfg (timeoutArg s.cfg t)
  let now := s.clockDraw 0
  pollLoop eff now fuel ((s.writeReg .t eff).readClock.writeReg .start now)

/-- The advances at the end of a chunk of `c` bytes (R115, R117). -/
def advance (a rem cur c : Word) (s : State) : State :=
  ((s.writeReg .addr (a + c)).writeReg .cur (cur + c)).writeReg .rem (rem - c)

/-- `ProgramChunk(a, c, d)` (R118). -/
def programChunk (fuel : Nat) (a c : Word) (d : Nat) (s : State) : Option State :=
  (wait fuel (.arg 0) s).bind fun s1 =>
    wait fuel .program (programFrame (cmdProg s.cfg :: addrBytes s.cfg a) d c.toNat (wren s1))

/-- `while x[REM] > 0` of READ_DATA, given up after `k` chunks (R115). -/
def readLoop (buf : Word) : Nat → Word → Word → Word → State → Option State
  | 0, _, rem, _, s => if rem = 0 then some s else none
  | k + 1, a, rem, cur, s =>
    if rem = 0 then some s
    else
      let c := chunkLength s.cfg.pageSize a rem
      let s1 := readChunk (cmdRead s.cfg :: addrBytes s.cfg a) (buf.toNat + cur.toNat) c.toNat (s.writeReg .chunk c)
      readLoop buf k (a + c) (rem - c) (cur + c) (advance a rem cur c (s1.dropLocal .r))

/-- `while x[REM] > 0` of WRITE_DATA, given up after `k` chunks or `fuel` status reads in one wait (R117). -/
def writeLoop (fuel : Nat) (buf : Word) : Nat → Word → Word → Word → State → Option State
  | 0, _, rem, _, s => if rem = 0 then some s else none
  | k + 1, a, rem, cur, s =>
    if rem = 0 then some s
    else
      let c := chunkLength s.cfg.pageSize a rem
      (programChunk fuel a c (buf.toNat + cur.toNat) (s.writeReg .chunk c)).bind fun s1 =>
        writeLoop fuel buf k (a + c) (rem - c) (cur + c) (advance a rem cur c s1)

/-- `x[ADDR] <- a; x[REM] <- n; x[CUR] <- 0` (R115, R117). -/
def beginRange (a n : Word) (s : State) : State := ((s.writeReg .addr a).writeReg .rem n).writeReg .cur 0

/-- What a frame does, start to end (R67, R97 to R118). A data frame's bytes are the host buffer's from `d`. -/
def frameWhole (i : Instr) (d : Nat) (s : State) : State :=
  let bs := frameHeader s.par.cmdWriteStatus i
  match i with
  | .spiIdentify => frame bs [.keep .r1, .keep .r2, .keep .r3] s
  | .spiReadStatus => frame bs [.status] s
  | .spiReadConfig => frame bs [.keep .c] s
  | .spiRead3 _ n | .spiRead4 _ n => readChunk bs d n.toNat s
  | .spiProgram3 _ n | .spiProgram4 _ n => programFrame bs d n.toNat s
  | .spiSectorErase3 _ | .spiSectorErase4 _ | .spiBlockErase3 _ | .spiBlockErase4 _ | .spiChipErase
  | .spiWriteEnable | .spiResetEnable | .spiReset | .spiPowerDown | .spiReleasePowerDown
  | .spiWriteStatus _ => frame bs [] s
  | .init | .identify | .validate | .readStatus | .readConfig | .writeStatus _ | .waitWrite _ | .writeEnable
  | .sectorErase _ | .blockErase _ | .chipErase | .resetDevice | .deepPowerDown | .wake | .readData _ _ _
  | .writeData _ _ _ | .reservedOp _ => s

/-- The erase rules (R105 to R108). -/
def erase (fuel : Nat) (bs : List Byte) (t : Timeout) (s : State) : Option State :=
  ((wait fuel (.arg 0) s).bind fun s1 => wait fuel t (frame bs [] (wren s1))).map fun s2 => s2.respondWith .nothing

/-- What an accepted request does from the state it was accepted in to its response; `none` when one of its waits is still
polling after `fuel` status reads. The pseudocode of R92, R97 to R117, one arm a rule. -/
def request (fuel : Nat) (i : Instr) (s : State) : Option State :=
  match i with
  | .init => some ((if s.cfg.shared then s.raiseCs else s.raiseCs.applyBus).respondWith .nothing)
  | .identify =>
    some ((idRead s).respondWith (.ident (identValue (s.chipDraw 1) (s.chipDraw 2) (s.chipDraw 3))))
  | .validate =>
    some ((idRead s).respondWith
      (.valid (identTop (identValue (s.chipDraw 1) (s.chipDraw 2) (s.chipDraw 3)) == s.cfg.mfrId)))
  | .readStatus => some ((statusRead s).respondWith (.byte (s.chipDraw 1)))
  | .readConfig => some ((frame [0x15] [.keep .c] s).respondWith (.byte (s.chipDraw 1)))
  | .writeStatus v =>
    (wait fuel (.arg 0) s).map fun s1 => (frame [s.par.cmdWriteStatus, v] [] s1).respondWith .nothing
  | .waitWrite t => (wait fuel (.arg t) s).map fun s1 => s1.respondWith .nothing
  | .writeEnable => some ((wren s).respondWith .nothing)
  | .sectorErase a => erase fuel (cmdSector s.cfg :: addrBytes s.cfg a) .sector s
  | .blockErase a => erase fuel (cmdBlock s.cfg :: addrBytes s.cfg a) .blockChip s
  | .chipErase => erase fuel [0xC7] .blockChip s
  | .resetDevice =>
    (wait fuel (.arg 0) s).map fun s1 =>
      ((frame [0x99] [] ((frame [0x66] [] s1).delayUs s.par.resetSettleUs)).delayUs s.par.resetSettleUs).respondWith
        .nothing
  | .deepPowerDown => some (((frame [0xB9] [] s).delayUs s.par.dpdSettleUs).respondWith .nothing)
  | .wake => some (((frame [0xAB] [] s).delayUs s.par.tresUs).respondWith .nothing)
  | .readData a n buf => (readLoop buf n.toNat a n 0 (beginRange a n s)).map fun s1 => s1.respondWith .nothing
  | .writeData a n buf =>
    (writeLoop fuel buf n.toNat a n 0 (beginRange a n s)).map fun s1 => s1.respondWith .nothing
  | .reservedOp _ => none
  | .spiIdentify | .spiReadStatus | .spiReadConfig | .spiRead3 _ _ | .spiRead4 _ _ | .spiProgram3 _ _
  | .spiProgram4 _ _ | .spiSectorErase3 _ | .spiSectorErase4 _ | .spiBlockErase3 _ | .spiBlockErase4 _
  | .spiChipErase | .spiWriteEnable | .spiResetEnable | .spiReset | .spiPowerDown | .spiReleasePowerDown
  | .spiWriteStatus _ => none

end Code

/-- The request is one that is accepted in `IDLE` and passes its own rule's checks there (R126). -/
def accepts (c : Cfg) : Instr → Bool
  | .init => cfgOk c
  | .readData a n buf | .writeData a n buf => rangeOk a n buf && cfgOk c
  | .sectorErase _ | .blockErase _ => cfgOk c
  | .identify | .validate | .readStatus | .readConfig | .writeStatus _ | .waitWrite _ | .writeEnable | .chipErase
  | .resetDevice | .deepPowerDown | .wake => true
  | .reservedOp _ => false
  | .spiIdentify | .spiReadStatus | .spiReadConfig | .spiRead3 _ _ | .spiRead4 _ _ | .spiProgram3 _ _
  | .spiProgram4 _ _ | .spiSectorErase3 _ | .spiSectorErase4 _ | .spiBlockErase3 _ | .spiBlockErase4 _
  | .spiChipErase | .spiWriteEnable | .spiResetEnable | .spiReset | .spiPowerDown | .spiReleasePowerDown
  | .spiWriteStatus _ => false

/-! ### The events of frames and requests (R31, R96) -/

/-- The `DELAY_US` event of a delay, none for 0 (R10). -/
def delayEvents (n : Word) : List Event := if n = 0 then [] else [.delayUs n]

/-- What `BeginTx` records before `CS_LOW` (R87, R93). -/
def openingEvents (c : Cfg) : List Event :=
  if c.shared then .apply c.bus :: delayEvents c.sharedSettleUs else []

/-- A frame that transmits `tx`, its received bytes the Chip oracle's from the k-th draw on (R32, R38). -/
def frameEvents (s : State) (k : Nat) (tx : List TxByte) : List Event :=
  openingEvents s.cfg ++ .csLow :: (tx.mapIdx fun j t => .xfer t (s.chipDraw (k + j))) ++ [.csHigh]

/-- A frame of bytes none of which is `DC`. -/
def sendEvents (s : State) (k : Nat) (bs : List Byte) : List Event := frameEvents s k (bs.map .byte)

/-- A status read from the k-th draw on. -/
def statusEvents (s : State) (k : Nat) : List Event := frameEvents s k [.byte 0x05, .dc]

/-- The status byte of a status read from the k-th draw on has WIP clear (R41). -/
def idleAt (s : State) (k : Nat) : Bool := !(s.chipDraw (k + 1)).getLsbD 0

/-- The received data bytes of a read frame, each recorded and stored (R116, R122). -/
def dataEvents (s : State) (k d : Nat) : Nat → List Event
  | 0 => []
  | n + 1 => .xfer .dc (s.chipDraw k) :: .memWrite (BitVec.ofNat 32 d) (s.chipDraw k) :: dataEvents s (k + 1) (d + 1) n

/-- A read frame of `n` bytes from flash address `a` to host address `d` (R116). -/
def readFrameEvents (s : State) (k : Nat) (a : Word) (d n : Nat) : List Event :=
  let bs := Code.cmdRead s.cfg :: addrBytes s.cfg a
  openingEvents s.cfg ++ .csLow :: (bs.mapIdx fun j b => .xfer (.byte b) (s.chipDraw (k + j)))
    ++ dataEvents s (k + bs.length) d n ++ [.csHigh]

/-! ### The chunks of a range (R113, R114) -/

/-- The chunks, as (address, length), that the loops of R115 and R117 visit from address `a` with `rem` bytes to go, the
first `k` of them. -/
def chunkList (p : Word) : Nat → Word → Word → List (Word × Word)
  | 0, _, _ => []
  | k + 1, a, rem =>
    if rem = 0 then []
    else
      let c := chunkLength p a rem
      (a, c) :: chunkList p k (a + c) (rem - c)

/-- All chunks of the range `(a, n)`. -/
def chunksOf (p a n : Word) : List (Word × Word) := chunkList p n.toNat a n

/-- How many bytes the address field and command of an addressed frame take. -/
def headLen (c : Cfg) : Nat := if c.addrBytes = 3 then 4 else 5

/-- The events of READ_DATA's frames, chunk after chunk, from the k-th draw and host address `d` on (R115). -/
def readEvents (s : State) : Nat → Nat → List (Word × Word) → List Event
  | _, _, [] => []
  | k, d, (a, c) :: rest =>
    readFrameEvents s k a d c.toNat ++ readEvents s (k + headLen s.cfg + c.toNat) (d + c.toNat) rest

/-- The data bytes READ_DATA receives, in order (R50, R115). -/
def readBytesOf (s : State) : Nat → List (Word × Word) → List Byte
  | _, [] => []
  | k, (_, c) :: rest =>
    (List.range c.toNat).map (fun i => s.chipDraw (k + headLen s.cfg + i))
      ++ readBytesOf s (k + headLen s.cfg + c.toNat) rest

/-- The bytes of the host buffer from `d` on. -/
def hostBytes (m : Memory) (d n : Nat) : List Byte := (List.range n).map fun i => m.read (d + i)

/-! ### The course of a wait (R102, R104 (a)) -/

/-- How one `Wait` goes: so many status reads that find WIP set before the timeout, then the last one; `timedOut` says that
the last one found WIP set too and the clock read after it ended the wait. -/
structure Span where
  polls    : Nat
  timedOut : Bool
  deriving DecidableEq, Repr

/-- Byte draws of the wait: two a status read. -/
def Span.bytes (p : Span) : Nat := 2 * (p.polls + 1)

/-- Clock reads of the wait. -/
def Span.clocks (p : Span) : Nat := 1 + p.polls + (if p.timedOut then 1 else 0)

/-- `n` status reads in a row find WIP set, and the clock read after each finds less than `t` elapsed since `start`; the
k-th byte draw and the j-th clock reading come first. -/
def pollsOn (s : State) (t start : Word) : Nat → Nat → Nat → Bool
  | _, _, 0 => true
  | k, j, n + 1 => !idleAt s k && decide (elapsed (s.clockDraw j) start < t) && pollsOn s t start (k + 2) (j + 1) n

/-- A `Wait` with effective timeout `t` goes this way from the k-th byte draw and the j-th clock reading on. -/
def Span.ok (p : Span) (s : State) (t : Word) (k j : Nat) : Bool :=
  pollsOn s t (s.clockDraw j) k (j + 1) p.polls &&
    (if p.timedOut then
      !idleAt s (k + 2 * p.polls) && decide (t ≤ elapsed (s.clockDraw (j + 1 + p.polls)) (s.clockDraw j))
    else idleAt s (k + 2 * p.polls))

/-- What such a wait leaves in `T`, `START` and `S` (R102). -/
def Span.left (p : Span) (s u : State) (t : Word) (k j : Nat) : Prop :=
  u.regs.t.value = some t ∧ u.regs.start.value = some (s.clockDraw j)
    ∧ u.regs.s.value = some ((s.chipDraw (k + 2 * p.polls + 1)).setWidth 32)

/-- Between two status reads: yield when the effective timeout exceeds the threshold, spin when not (R102). -/
def pauseEvent (s : State) (t : Word) : Event := if s.par.yieldThresholdMs < t then .yield else .spin

/-- The status reads of a wait, the first `n` of them followed by a clock read and a pause. -/
def pollEvents (s : State) (t : Word) : Nat → Nat → Nat → List Event
  | k, _, 0 => statusEvents s k
  | k, j, n + 1 => statusEvents s k ++ .clock (s.clockDraw j) :: pauseEvent s t :: pollEvents s t (k + 2) (j + 1) n

/-- The events of such a wait (R102). -/
def Span.events (p : Span) (s : State) (t : Word) (k j : Nat) : List Event :=
  .clock (s.clockDraw j) :: pollEvents s t k (j + 1) p.polls
    ++ (if p.timedOut then [.clock (s.clockDraw (j + 1 + p.polls))] else [])

/-- The effective timeout of a wait (R102). -/
def waitTimeout (s : State) (t : Timeout) : Word := effectiveTimeout s.cfg (timeoutArg s.cfg t)

/-- `WrenSeq` from the k-th draw on (R103). -/
def wrenEvents (s : State) (k : Nat) : List Event := sendEvents s k [0x06] ++ delayEvents s.cfg.weSettleUs

/-- An erase whose erase frame is `bs`: prior wait `p`, write-enable, frame, trailing wait `q` (R105 to R108). -/
def eraseEvents (s : State) (bs : List Byte) (t : Timeout) (p q : Span) : List Event :=
  p.events s (waitTimeout s (.arg 0)) 0 0 ++ wrenEvents s p.bytes ++ sendEvents s (p.bytes + 1) bs
    ++ q.events s (waitTimeout s t) (p.bytes + 1 + bs.length) p.clocks

/-- The two waits of an erase go the ways `p` and `q`. -/
def eraseWaits (s : State) (bs : List Byte) (t : Timeout) (p q : Span) : Bool :=
  p.ok s (waitTimeout s (.arg 0)) 0 0 && q.ok s (waitTimeout s t) (p.bytes + 1 + bs.length) p.clocks

/-- One chunk of WRITE_DATA with prior wait `p` and trailing wait `q`: the k-th byte draw and the j-th clock reading come
first (R117, R118). -/
def programEvents (s : State) (k j : Nat) (a : Word) (d n : Nat) (p q : Span) : List Event :=
  p.events s (waitTimeout s (.arg 0)) k j ++ wrenEvents s (k + p.bytes)
    ++ sendEvents s (k + p.bytes + 1) (Code.cmdProg s.cfg :: addrBytes s.cfg a ++ hostBytes s.mem d n)
    ++ q.events s (waitTimeout s .program) (k + p.bytes + 1 + headLen s.cfg + n) (j + p.clocks)

/-- The two waits of such a chunk go the ways `p` and `q`. -/
def programWaits (s : State) (k j n : Nat) (p q : Span) : Bool :=
  p.ok s (waitTimeout s (.arg 0)) k j
    && q.ok s (waitTimeout s .program) (k + p.bytes + 1 + headLen s.cfg + n) (j + p.clocks)

/-- The events of WRITE_DATA's chunks, one pair of waits a chunk (R117). -/
def writeEvents (s : State) : Nat → Nat → Nat → List (Word × Word) → List (Span × Span) → List Event
  | k, j, d, (a, c) :: rest, (p, q) :: waits =>
    programEvents s k j a d c.toNat p q
      ++ writeEvents s (k + p.bytes + 1 + headLen s.cfg + c.toNat + q.bytes) (j + p.clocks + q.clocks) (d + c.toNat)
        rest waits
  | _, _, _, _, _ => []

/-- The clock reading the last wait of WRITE_DATA's chunks started at, and its last status byte: what `START` and `S` hold
in the end (R102, R118). -/
def lastWait (s : State) : Nat → Nat → List (Word × Word) → List (Span × Span) → Option (Word × Byte)
  | k, j, (_, c) :: rest, (p, q) :: waits =>
    let k' := k + p.bytes + 1 + headLen s.cfg + c.toNat
    (lastWait s (k' + q.bytes) (j + p.clocks + q.clocks) rest waits).or
      (some (s.clockDraw (j + p.clocks), s.chipDraw (k' + 2 * q.polls + 1)))
  | _, _, _, _ => none

/-- The waits of WRITE_DATA's chunks go the ways listed, two a chunk. -/
def writeWaits (s : State) : Nat → Nat → List (Word × Word) → List (Span × Span) → Bool
  | k, j, (_, c) :: rest, (p, q) :: waits =>
    programWaits s k j c.toNat p q
      && writeWaits s (k + p.bytes + 1 + headLen s.cfg + c.toNat + q.bytes) (j + p.clocks + q.clocks) rest waits
  | _, _, [], [] => true
  | _, _, _, _ => false

/-! ### Frames, start to end -/

/-- A frame that moves no chunk of the host buffer. -/
def plainFrame (i : Instr) : Bool := i.isFrame &&
  (match i with
  | .spiRead3 _ _ | .spiRead4 _ _ | .spiProgram3 _ _ | .spiProgram4 _ _ => false
  | _ => true)

/-- The exchanges of a frame as positions of the pseudocode, its data at host address `d` (R67, R91, R97 to R118): every
received byte the `rx used` column does not name is discarded. -/
def exchangeOps (ws : Byte) (d : Nat) (i : Instr) : List Micro :=
  (frameHeader ws i).map (fun b => .prim (.xfer (.byte b) .discard)) ++
    (match i with
    | .spiIdentify => [.prim (.xfer .dc (.keep .r1)), .prim (.xfer .dc (.keep .r2)), .prim (.xfer .dc (.keep .r3))]
    | .spiReadStatus => [.prim (.xfer .dc .status)]
    | .spiReadConfig => [.prim (.xfer .dc (.keep .c))]
    | .spiRead3 _ n | .spiRead4 _ n => [.prim (.dataIn d n.toNat)]
    | .spiProgram3 _ n | .spiProgram4 _ n => [.prim (.dataOut d n.toNat)]
    | .spiSectorErase3 _ | .spiSectorErase4 _ | .spiBlockErase3 _ | .spiBlockErase4 _ | .spiChipErase
    | .spiWriteEnable | .spiResetEnable | .spiReset | .spiPowerDown | .spiReleasePowerDown
    | .spiWriteStatus _ => []
    | .init | .identify | .validate | .readStatus | .readConfig | .writeStatus _ | .waitWrite _ | .writeEnable
    | .sectorErase _ | .blockErase _ | .chipErase | .resetDevice | .deepPowerDown | .wake | .readData _ _ _
    | .writeData _ _ _ | .reservedOp _ => [])

/-- Right after a frame is opened in `s` with `rest` still to come: `ApplyBus` done on a shared bus, `CsAssert` on an
exclusive one (R87); nothing else has changed. -/
def openedFrame (s : State) (d : Nat) (i : Instr) (rest : List Micro) : State :=
  let body := exchangeOps s.par.cmdWriteStatus d i ++ .prim .csDeassert :: rest
  if s.cfg.shared then
    { s with
      trace := s.trace ++ [.apply s.cfg.bus], transport := some s.cfg.bus
      pc := some (.prim (.delay .sharedSettle) :: .prim .csAssert :: body) }
  else { s with trace := s.trace ++ [.csLow], cs := .low, pc := some body }

/-- The frame moves `n` bytes between the chip and the host buffer, at address `d`, and all of them lie in the range the
running request names (R11, R46, R50); a frame without a data phase asks for nothing. -/
def dataPlaced (s : State) (i : Instr) (d : Nat) : Prop :=
  plainFrame i = true ∨
    ∃ q buf len cur, s.current = some q ∧ q.buffer = some (buf, len)
      ∧ s.regs.cur = { value := some cur, fresh := true } ∧ cur.toNat + (chunkOperand i).toNat ≤ len.toNat
      ∧ buf.toNat + cur.toNat + (chunkOperand i).toNat ≤ 2 ^ 32 ∧ d = buf.toNat + cur.toNat

/-- The events of a whole frame, its data at host address `d` (R67, R87, R88, R116, R118). -/
def frameTrace (s : State) (d : Nat) (i : Instr) : List Event :=
  let bs := frameHeader s.par.cmdWriteStatus i
  match i with
  | .spiIdentify => frameEvents s 0 (bs.map .byte ++ [.dc, .dc, .dc])
  | .spiReadStatus | .spiReadConfig => frameEvents s 0 (bs.map .byte ++ [.dc])
  | .spiRead3 _ n | .spiRead4 _ n =>
    openingEvents s.cfg ++ .csLow :: (bs.mapIdx fun j b => .xfer (.byte b) (s.chipDraw j))
      ++ dataEvents s bs.length d n.toNat ++ [.csHigh]
  | .spiProgram3 _ n | .spiProgram4 _ n => sendEvents s 0 (bs ++ hostBytes s.mem d n.toNat)
  | .spiSectorErase3 _ | .spiSectorErase4 _ | .spiBlockErase3 _ | .spiBlockErase4 _ | .spiChipErase
  | .spiWriteEnable | .spiResetEnable | .spiReset | .spiPowerDown | .spiReleasePowerDown
  | .spiWriteStatus _ => sendEvents s 0 bs
  | .init | .identify | .validate | .readStatus | .readConfig | .writeStatus _ | .waitWrite _ | .writeEnable
  | .sectorErase _ | .blockErase _ | .chipErase | .resetDevice | .deepPowerDown | .wake | .readData _ _ _
  | .writeData _ _ _ | .reservedOp _ => []

/-- The bytes a frame stores, in address order: a read frame's data bytes (R116), none for another. -/
def frameStores (s : State) (i : Instr) : List Byte :=
  match i with
  | .spiRead3 _ n | .spiRead4 _ n =>
    (List.range n.toNat).map fun j => s.chipDraw ((frameHeader s.par.cmdWriteStatus i).length + j)
  | .spiProgram3 _ _ | .spiProgram4 _ _ | .spiIdentify | .spiReadStatus | .spiReadConfig
  | .spiSectorErase3 _ | .spiSectorErase4 _ | .spiBlockErase3 _ | .spiBlockErase4 _ | .spiChipErase
  | .spiWriteEnable | .spiResetEnable | .spiReset | .spiPowerDown | .spiReleasePowerDown | .spiWriteStatus _
  | .init | .identify | .validate | .readStatus | .readConfig | .writeStatus _ | .waitWrite _ | .writeEnable
  | .sectorErase _ | .blockErase _ | .chipErase | .resetDevice | .deepPowerDown | .wake | .readData _ _ _
  | .writeData _ _ _ | .reservedOp _ => []

/-- The byte at `x` after `bs` is stored from `d` on. -/
def storedByte (m : Memory) (d : Nat) (bs : List Byte) (x : Nat) : Byte :=
  if d ≤ x ∧ x < d + bs.length then bs.getD (x - d) 0 else m.read x

/-! ### How a request ends -/

/-- From `s` to `u` a request has run to its response `v`, recording `evs` and writing no working register but those of
`written` (R28, R35, R96). -/
structure Completed (s u : State) (evs : List Event) (v : Response) (written : List Reg) : Prop where
  seqState : u.seqState = .idle
  current : u.current = none
  pc : u.pc = none
  cs : u.cs = .high
  result : u.result = some v
  trace : u.trace = s.trace ++ evs ++ [.resp v]
  faultCode : u.faultCode = s.faultCode
  regs : ∀ r, r ∉ written → (u.regs.get r).value = (s.regs.get r).value
  cfg : u.cfg = s.cfg
  par : u.par = s.par
  env : u.env = s.env

/-- Exactly what `raise Fault(c)` does (R123): all else is as in `s`. -/
def faultState (s : State) (c : Byte) : State :=
  { s with faultCode := some c, trace := s.trace ++ [.fault c], seqState := .faulted }

/-- The working registers a request's rule says it writes (R97 to R117). -/
def writtenBy : Instr → List Reg
  | .readStatus => [.s]
  | .writeStatus _ | .waitWrite _ | .sectorErase _ | .blockErase _ | .chipErase | .resetDevice => [.t, .start, .s]
  | .readData _ _ _ => [.addr, .rem, .cur, .chunk]
  | .writeData _ _ _ => [.addr, .rem, .cur, .chunk, .t, .start, .s]
  | .init | .identify | .validate | .readConfig | .writeEnable | .deepPowerDown | .wake | .reservedOp _ => []
  | .spiIdentify | .spiReadStatus | .spiReadConfig | .spiRead3 _ _ | .spiRead4 _ _ | .spiProgram3 _ _
  | .spiProgram4 _ _ | .spiSectorErase3 _ | .spiSectorErase4 _ | .spiBlockErase3 _ | .spiBlockErase4 _
  | .spiChipErase | .spiWriteEnable | .spiResetEnable | .spiReset | .spiPowerDown | .spiReleasePowerDown
  | .spiWriteStatus _ => []

/-- The local temporaries a frame's received bytes go to (R97, R100, R116). -/
def keptBy : Instr → List Local
  | .spiIdentify => [.r1, .r2, .r3]
  | .spiReadConfig => [.c]
  | .spiRead3 _ _ | .spiRead4 _ _ => [.r]
  | .spiReadStatus | .spiProgram3 _ _ | .spiProgram4 _ _ | .spiSectorErase3 _ | .spiSectorErase4 _ | .spiBlockErase3 _
  | .spiBlockErase4 _ | .spiChipErase | .spiWriteEnable | .spiResetEnable | .spiReset | .spiPowerDown
  | .spiReleasePowerDown | .spiWriteStatus _ => []
  | .init | .identify | .validate | .readStatus | .readConfig | .writeStatus _ | .waitWrite _ | .writeEnable
  | .sectorErase _ | .blockErase _ | .chipErase | .resetDevice | .deepPowerDown | .wake | .readData _ _ _
  | .writeData _ _ _ | .reservedOp _ => []

/-- A request's pseudocode after its checks, as `pc` holds it (R92, R97 to R117): the waits, write-enables and chunk loops by
their own lists. A frame is no request, and a reserved code is never accepted. -/
def requestOps : Instr → List Micro
  | .init => [.prim .csDeassert, .prim .applyIfExclusive, .prim (.respond .nothing)]
  | .identify => [.frame (.fixed .spiIdentify), .prim (.respond .ident)]
  | .validate => [.frame (.fixed .spiIdentify), .prim (.respond .valid)]
  | .readStatus => [.frame (.fixed .spiReadStatus), .prim (.respond .status)]
  | .readConfig => [.frame (.fixed .spiReadConfig), .prim (.respond .config)]
  | .writeStatus v => waitOps (.arg 0) ++ [.frame (.fixed (.spiWriteStatus v)), .prim (.respond .nothing)]
  | .waitWrite t => waitOps (.arg t) ++ [.prim (.respond .nothing)]
  | .writeEnable => wrenOps ++ [.prim (.respond .nothing)]
  | .sectorErase a => eraseOps (.erase .sector a) .sector
  | .blockErase a => eraseOps (.erase .block a) .blockChip
  | .chipErase => eraseOps (.fixed .spiChipErase) .blockChip
  | .resetDevice =>
    waitOps (.arg 0) ++ [.frame (.fixed .spiResetEnable), .prim (.delay .resetSettle), .frame (.fixed .spiReset),
      .prim (.delay .resetSettle), .prim (.respond .nothing)]
  | .deepPowerDown => [.frame (.fixed .spiPowerDown), .prim (.delay .dpdSettle), .prim (.respond .nothing)]
  | .wake => [.frame (.fixed .spiReleasePowerDown), .prim (.delay .tres), .prim (.respond .nothing)]
  | .readData a n _ => dataOps .read a n
  | .writeData a n _ => dataOps .write a n
  | .reservedOp _ => []
  | .spiIdentify | .spiReadStatus | .spiReadConfig | .spiRead3 _ _ | .spiRead4 _ _ | .spiProgram3 _ _
  | .spiProgram4 _ _ | .spiSectorErase3 _ | .spiSectorErase4 _ | .spiBlockErase3 _ | .spiBlockErase4 _
  | .spiChipErase | .spiWriteEnable | .spiResetEnable | .spiReset | .spiPowerDown | .spiReleasePowerDown
  | .spiWriteStatus _ => []

/-- The waits a request's rule makes (R101 to R118). -/
def waitsOf : Instr → List Timeout
  | .writeStatus _ | .resetDevice => [.arg 0]
  | .waitWrite t => [.arg t]
  | .sectorErase _ => [.arg 0, .sector]
  | .blockErase _ | .chipErase => [.arg 0, .blockChip]
  | .writeData _ _ _ => [.arg 0, .program]
  | .init | .identify | .validate | .readStatus | .readConfig | .writeEnable | .deepPowerDown | .wake
  | .readData _ _ _ | .reservedOp _ => []
  | .spiIdentify | .spiReadStatus | .spiReadConfig | .spiRead3 _ _ | .spiRead4 _ _ | .spiProgram3 _ _
  | .spiProgram4 _ _ | .spiSectorErase3 _ | .spiSectorErase4 _ | .spiBlockErase3 _ | .spiBlockErase4 _
  | .spiChipErase | .spiWriteEnable | .spiResetEnable | .spiReset | .spiPowerDown | .spiReleasePowerDown
  | .spiWriteStatus _ => []

/-- The fairness of R134 for one timeout: whichever reading a wait starts at, a later one ends it. -/
def fairClock (s : State) (t : Word) : Prop := ∀ i, ∃ j, i < j ∧ t ≤ elapsed (s.clockDraw j) (s.clockDraw i)

/-! ### Chip-select as a trace tells it (R30, R89) -/

/-- The level after one more event. -/
def csAfter (c : CsLevel) : Event → CsLevel
  | .csLow => .low
  | .csHigh => .high
  | .apply _ | .delayUs _ | .xfer _ _ | .clock _ | .yield | .spin | .req _ | .resp _ | .memWrite _ _ | .fault _ => c

/-- The level after a whole trace. -/
def csOf (es : List Event) : CsLevel := es.foldl csAfter .undriven

/-- The event is the sequencer's own act on the bus, the clock, the buffer or the host port: not a request arriving, nor the
fault that answers one (R31). -/
def ownEvent : Event → Bool
  | .req _ | .fault _ => false
  | .apply _ | .delayUs _ | .csLow | .csHigh | .xfer _ _ | .clock _ | .yield | .spin | .resp _ | .memWrite _ _ => true

/-! ### The shape of a trace (R65, R75, R87 to R95) -/

/-- Where a trace stands between frames. -/
inductive Bracket where
  /-- Before INIT has driven chip-select (R30). -/
  | undriven
  /-- Between frames, `CS = HIGH`. -/
  | closed
  /-- A shared bus: this device's settings are applied, the settle delay is still due (R93). -/
  | applied
  /-- A shared bus: ready for `CS_LOW`. -/
  | settled
  /-- `CS_LOW` recorded, no byte yet. -/
  | opened
  /-- Inside a frame, its command byte sent. -/
  | sending
  deriving DecidableEq, Repr

/-- The level of `CS` there (R30). -/
def Bracket.cs : Bracket → CsLevel
  | .undriven => .undriven
  | .closed | .applied | .settled => .high
  | .opened | .sending => .low

/-- The command bytes of R69. -/
def commandBytes (p : Params) : List Byte := p.cmdWriteStatus :: fixedCommands

/-- Where a shared bus stands right after its settings are applied: with no settle delay it is ready (R93). -/
def afterApply (c : Cfg) : Bracket := if c.sharedSettleUs = 0 then .settled else .applied

/-- What one event may follow, and where it leads: chip-select falls only while high, and on a shared bus only right after
`APPLY` and the settle delay; the first byte of a frame is a command of R69; bytes are exchanged and stored only inside a
frame; delays, clock reads and responses stand outside (R65, R75, R89, R93, R95). -/
def traceStep (c : Cfg) (p : Params) (b : Bracket) (e : Event) : Option Bracket :=
  match e with
  | .req _ => some b
  | .fault _ => some b
  | .apply x =>
    if x = c.bus then
      if b = .closed then some (if c.shared then afterApply c else .closed) else none
    else none
  | .delayUs n =>
    if b = .closed then some .closed
    else if b = .applied then (if n = c.sharedSettleUs then some .settled else none)
    else none
  | .csLow =>
    if c.shared then (if b = .settled then some .opened else none)
    else if b = .closed then some .opened else none
  | .csHigh => if b = .undriven ∨ b = .closed ∨ b = .sending then some .closed else none
  | .xfer (.byte x) _ =>
    if b = .opened then (if x ∈ commandBytes p then some .sending else none)
    else if b = .sending then some .sending else none
  | .xfer .dc _ => if b = .sending then some .sending else none
  | .memWrite _ _ => if b = .sending then some .sending else none
  | .clock _ => if b = .closed then some .closed else none
  | .yield => if b = .closed then some .closed else none
  | .spin => if b = .closed then some .closed else none
  | .resp _ => if b = .closed then some .closed else none

/-- Where a whole trace leads from `b`; `none` if an event stands where it may not. -/
def traceBracket (c : Cfg) (p : Params) : Bracket → List Event → Option Bracket
  | b, [] => some b
  | b, e :: rest => (traceStep c p b e).bind fun b' => traceBracket c p b' rest

/-! ### The invariant -/

/-- Where the trace will stand after one position of the pseudocode, if the position may stand there. -/
def microBracket (c : Cfg) (p : Params) (b : Bracket) (m : Micro) : Option Bracket :=
  match m with
  | .frame (.fixed f) => if b = .closed ∧ plainFrame f = true then some .closed else none
  | .frame (.erase _ _) | .frame .readChunk | .frame .programChunk => if b = .closed then some .closed else none
  | .prim (.delay .sharedSettle) => if c.shared ∧ b = afterApply c then some .settled else none
  | .prim (.delay _) => if b = .closed then some .closed else none
  | .prim .csAssert => if c.shared ∧ b = .settled then some .opened else none
  | .prim .csDeassert => if b = .undriven ∨ b = .closed ∨ b = .sending then some .closed else none
  | .prim (.xfer (.byte x) _) =>
    if b = .opened then (if x ∈ commandBytes p then some .sending else none)
    else if b = .sending then some .sending else none
  | .prim (.xfer .dc _) => if b = .sending then some .sending else none
  | .prim (.dataIn _ _) | .prim (.storeIn _ _) | .prim (.dataOut _ _) => if b = .sending then some .sending else none
  | .prim .applyIfExclusive | .prim (.setReg _ _) | .prim (.waitBegin _) | .prim .readStart | .prim .pollTest
  | .prim .pollClock | .prim .pollPause | .prim .nextChunk | .prim .advance | .prim (.chunkLoop _)
  | .prim (.dropLocal _) | .prim (.respond _) => if b = .closed then some .closed else none

/-- The rest of the pseudocode keeps the bracketing and ends in a response (R35, R89). -/
def pcBracket (c : Cfg) (p : Params) : Bracket → List Micro → Bool
  | _, [] => false
  | b, .prim (.respond _) :: _ => decide (b = .closed)
  | b, m :: rest =>
    match microBracket c p b m with
    | some b' => pcBracket c p b' rest
    | none => false

/-- What the pseudocode reads: working registers and local temporaries (R12, R25). -/
inductive Var where
  | reg (r : Reg)
  | loc (l : Local)
  deriving DecidableEq, Repr

/-- What holds a value a rule may read now. -/
def live (s : State) : Var → Bool
  | .reg r => (s.regs.get r).fresh && (s.regs.get r).value.isSome
  | .loc l => (s.locals.get l).isSome

/-- What a position reads, or lets the loop it stands in read later. -/
def needs : Micro → List Var
  | .prim .pollTest => [.reg .s, .reg .start, .reg .t]
  | .prim .pollClock | .prim .pollPause => [.reg .start, .reg .t]
  | .prim .nextChunk => [.reg .addr, .reg .rem]
  | .prim .advance => [.reg .addr, .reg .cur, .reg .rem, .reg .chunk]
  | .prim (.chunkLoop _) => [.reg .addr, .reg .rem, .reg .cur]
  | .prim (.storeIn _ _) => [.loc .r]
  | .prim (.respond .ident) | .prim (.respond .valid) => [.loc .r1, .loc .r2, .loc .r3]
  | .prim (.respond .status) => [.reg .s]
  | .prim (.respond .config) => [.loc .c]
  | .frame .readChunk | .frame .programChunk => [.reg .addr, .reg .chunk, .reg .cur]
  | .prim (.respond .nothing) | .prim .applyIfExclusive | .prim (.delay _) | .prim .csAssert | .prim .csDeassert
  | .prim (.xfer _ _) | .prim (.dataIn _ _) | .prim (.dropLocal _) | .prim (.dataOut _ _) | .prim (.setReg _ _)
  | .prim (.waitBegin _) | .prim .readStart | .frame (.fixed _) | .frame (.erase _ _) => []

/-- What a position writes before what follows it runs. -/
def gives : Micro → List Var
  | .prim (.setReg r _) => [.reg r]
  | .prim (.waitBegin _) => [.reg .t]
  | .prim .readStart => [.reg .start]
  | .prim .nextChunk => [.reg .chunk]
  | .prim (.xfer _ .status) => [.reg .s]
  | .prim (.xfer _ (.keep l)) => [.loc l]
  | .frame (.fixed .spiIdentify) => [.loc .r1, .loc .r2, .loc .r3]
  | .frame (.fixed .spiReadStatus) => [.reg .s]
  | .frame (.fixed .spiReadConfig) => [.loc .c]
  | _ => []

/-- What a position takes away: the temporary of a procedure that returns (R12). -/
def drops : Micro → List Var
  | .prim (.dropLocal l) => [.loc l]
  | _ => []

/-- Nothing is read before it is written, nor after its procedure has returned (R12, R25). -/
def definesFirst (have_ : Var → Bool) : List Micro → Bool
  | [] => true
  | m :: rest =>
    (needs m).all have_ && definesFirst (fun v => (have_ v || (gives m).contains v) && !(drops m).contains v) rest

/-- The registers of a data operation. -/
structure RangeRegs where
  addr  : Word
  rem   : Word
  cur   : Word
  chunk : Word
  deriving DecidableEq, Repr

/-- The register values a data operation stands at. -/
def rangeRegs (s : State) : RangeRegs :=
  { addr := s.regs.addr.value.getD 0, rem := s.regs.rem.value.getD 0
    cur := s.regs.cur.value.getD 0, chunk := s.regs.chunk.value.getD 0 }

/-- The direction of a data request. -/
def dataDir : Instr → Option DataDir
  | .readData _ _ _ => some .read
  | .writeData _ _ _ => some .write
  | _ => none

/-- The host-buffer accesses still to come stay inside the range the request names, only READ_DATA stores, and the chunk
registers cover exactly the range: `CUR + REM = LEN` at every loop head (R46, R114, R122). -/
def rangeOps (p buf len : Word) (dir : DataDir) (r : RangeRegs) : List Micro → Bool
  | [] => true
  | m :: rest =>
    match m with
    | .prim (.setReg .addr v) => rangeOps p buf len dir { r with addr := v } rest
    | .prim (.setReg .rem v) => rangeOps p buf len dir { r with rem := v } rest
    | .prim (.setReg .cur v) => rangeOps p buf len dir { r with cur := v } rest
    | .prim (.setReg _ _) => false
    | .prim .nextChunk =>
      (r.rem != 0) && rangeOps p buf len dir { r with chunk := chunkLength p r.addr r.rem } rest
    | .prim .advance =>
      decide (r.chunk.toNat ≤ r.rem.toNat) && rangeOps p buf len dir
        { r with addr := r.addr + r.chunk, rem := r.rem - r.chunk, cur := r.cur + r.chunk } rest
    | .prim (.chunkLoop d) =>
      decide (d = dir) && decide (r.cur.toNat + r.rem.toNat = len.toNat)
        && decide (rest = [.prim (.respond .nothing)])
    | .prim (.dataIn d n) =>
      decide (dir = .read) && decide (buf.toNat ≤ d) && decide (d + n ≤ buf.toNat + len.toNat)
        && rangeOps p buf len dir r rest
    | .prim (.storeIn d n) =>
      decide (dir = .read) && decide (buf.toNat ≤ d) && decide (d + 1 + n ≤ buf.toNat + len.toNat)
        && rangeOps p buf len dir r rest
    | .prim (.dataOut d n) =>
      decide (dir = .write) && decide (buf.toNat ≤ d) && decide (d + n ≤ buf.toNat + len.toNat)
        && rangeOps p buf len dir r rest
    | .frame .readChunk =>
      decide (dir = .read) && decide (r.cur.toNat + r.chunk.toNat ≤ len.toNat) && rangeOps p buf len dir r rest
    | .frame .programChunk =>
      decide (dir = .write) && decide (r.cur.toNat + r.chunk.toNat ≤ len.toNat) && rangeOps p buf len dir r rest
    | .prim .applyIfExclusive => false
    | .frame (.fixed _) | .frame (.erase _ _) | .prim (.delay _) | .prim .csAssert | .prim .csDeassert
    | .prim (.xfer _ _) | .prim (.dropLocal _) | .prim (.waitBegin _) | .prim .readStart | .prim .pollTest
    | .prim .pollClock | .prim .pollPause | .prim (.respond _) => rangeOps p buf len dir r rest

/-- A position that belongs to a data operation or to INIT. -/
def dataOrInit : Micro → Bool
  | .prim (.setReg _ _) | .prim .nextChunk | .prim .advance | .prim (.chunkLoop _) | .prim (.dataIn _ _)
  | .prim (.storeIn _ _) | .prim (.dropLocal _) | .prim (.dataOut _ _) | .frame .readChunk | .frame .programChunk
  | .prim .applyIfExclusive => true
  | .frame (.fixed _) | .frame (.erase _ _) | .prim (.delay _) | .prim .csAssert | .prim .csDeassert
  | .prim (.xfer _ _) | .prim (.waitBegin _) | .prim .readStart | .prim .pollTest | .prim .pollClock
  | .prim .pollPause | .prim (.respond _) => false

/-- What is left of the request belongs to it: a data request accesses its own buffer range and no other; of the others
only INIT applies the settings of an exclusive bus. -/
def ownOps (s : State) (i : Instr) (ops : List Micro) : Bool :=
  match i with
  | .readData _ n buf => decide (buf.toNat + n.toNat ≤ 2 ^ 32) && rangeOps s.cfg.pageSize buf n .read (rangeRegs s) ops
  | .writeData _ n buf =>
    decide (buf.toNat + n.toNat ≤ 2 ^ 32) && rangeOps s.cfg.pageSize buf n .write (rangeRegs s) ops
  | .init =>
    decide (ops = [.prim .csDeassert, .prim .applyIfExclusive, .prim (.respond .nothing)])
      || decide (ops = [.prim .applyIfExclusive, .prim (.respond .nothing)])
      || decide (ops = [.prim (.respond .nothing)])
  | .identify | .validate | .readStatus | .readConfig | .writeStatus _ | .waitWrite _ | .writeEnable | .sectorErase _
  | .blockErase _ | .chipErase | .resetDevice | .deepPowerDown | .wake => ops.all fun m => !dataOrInit m
  | .reservedOp _ => false
  | .spiIdentify | .spiReadStatus | .spiReadConfig | .spiRead3 _ _ | .spiRead4 _ _ | .spiProgram3 _ _
  | .spiProgram4 _ _ | .spiSectorErase3 _ | .spiSectorErase4 _ | .spiBlockErase3 _ | .spiBlockErase4 _
  | .spiChipErase | .spiWriteEnable | .spiResetEnable | .spiReset | .spiPowerDown | .spiReleasePowerDown
  | .spiWriteStatus _ => false

/-- A request is running well: what is left of it is bracketed, reads nothing unwritten, and is its own; INIT opens no
transaction (R92). -/
def busyOk (s : State) (b : Bracket) (i : Instr) (ops : List Micro) : Bool :=
  cfgOk s.cfg && pcBracket s.cfg s.par b ops && definesFirst (live s) ops && ownOps s i ops
    && (decide (i ≠ .init) || decide (b.cs ≠ .low))

/-- The control state and what goes with it (R27 to R30, R141). -/
def controlOk (s : State) (b : Bracket) : Bool :=
  match s.seqState with
  | .uninit => decide (b = .undriven) && s.pc.isNone && s.current.isNone && s.faultCode.isNone
  | .idle => decide (b = .closed) && cfgOk s.cfg && s.pc.isNone && s.current.isNone && s.faultCode.isNone
  | .busy =>
    s.faultCode.isNone &&
    match s.current, s.pc with
    | some i, some ops => busyOk s b i ops
    | _, _ => false
  | .faulted => s.faultCode.isSome

/-- INIT still has the settings of an exclusive bus to apply. -/
def applyPending (s : State) : Bool :=
  match s.pc with
  | some ops => ops.contains (.prim .applyIfExclusive)
  | none => false

/-- On an exclusive bus the transport carries this device's settings from INIT on, and in `FAULTED` where a frame was
abandoned (R44, R92, R127). On a shared bus another device may have changed them (R137). -/
def transportOk (s : State) : Bool :=
  s.cfg.shared ||
    match s.seqState with
    | .uninit => true
    | .idle => s.transport == some s.cfg.bus
    | .busy => applyPending s || s.transport == some s.cfg.bus
    | .faulted => s.cs != .low || s.transport == some s.cfg.bus

/-- The invariant of the machine: memory in canonical form; the whole trace well bracketed, `CS` at the level that goes
with it; the control state, what is left of the request and the transport as they belong together. -/
def Inv (s : State) : Prop :=
  s.mem.wf = true ∧
    ∃ b, traceBracket s.cfg s.par .undriven s.trace = some b ∧ b.cs = s.cs ∧ controlOk s b = true
      ∧ transportOk s = true

end Sys2Proof.Machine
end

