-- ==== Sys2Proof/Certificates/Slice0/Obligations.lean ====
section
/-! DEFINITION. The statements for the provers, each a rule of the spec or a property of the machine as a whole. `Reaches`
is a run of the sequencer's own steps; `StepRunsNextPosition` says that `step` takes them while no agent around it
moves. -/

open Sys2Proof Sys2Proof.Machine

/-! ### Encodings -/

/-- Decoding what the encoder gives is the instruction itself, whatever the wire carries at the positions the sequencer
does not decide (R67, R69, R77, R80, R81). `ws` is `CMD_WRITE_STATUS`, any byte that is no other command. -/
def Obligations.DecodeEncodeAgree : Prop :=
  ∀ (ws : Byte) (fill : Nat → Byte) (i : Instr), ws ∉ fixedCommands → i.wellFormed = true →
    decode ws ((encode ws i).onWire fill) = .ok i

/-- R77's fields, R78's use of them, R80's codes and R81's reserved ones: an operation's meaning for every value of all five
fields. Every record is of this form. -/
def Obligations.RequestRecordMeaning : Prop :=
  (∀ (op : Byte) (a n arg buf : Word),
    opField (makeRecord op a n arg buf) = op ∧ addrField (makeRecord op a n arg buf) = a
      ∧ lenField (makeRecord op a n arg buf) = n ∧ argField (makeRecord op a n arg buf) = arg
      ∧ bufField (makeRecord op a n arg buf) = buf)
  ∧ (∀ r : Record, r = makeRecord (opField r) (addrField r) (lenField r) (argField r) (bufField r))
  ∧ ∀ a n arg buf : Word,
    decodeRequest (makeRecord 0x00 a n arg buf) = .init
    ∧ decodeRequest (makeRecord 0x01 a n arg buf) = .identify
    ∧ decodeRequest (makeRecord 0x02 a n arg buf) = .validate
    ∧ decodeRequest (makeRecord 0x03 a n arg buf) = .readStatus
    ∧ decodeRequest (makeRecord 0x04 a n arg buf) = .readConfig
    ∧ decodeRequest (makeRecord 0x05 a n arg buf) = .writeStatus (arg.extractLsb' 0 8)
    ∧ decodeRequest (makeRecord 0x06 a n arg buf) = .waitWrite arg
    ∧ decodeRequest (makeRecord 0x07 a n arg buf) = .writeEnable
    ∧ decodeRequest (makeRecord 0x08 a n arg buf) = .sectorErase a
    ∧ decodeRequest (makeRecord 0x09 a n arg buf) = .blockErase a
    ∧ decodeRequest (makeRecord 0x0A a n arg buf) = .chipErase
    ∧ decodeRequest (makeRecord 0x0B a n arg buf) = .resetDevice
    ∧ decodeRequest (makeRecord 0x0C a n arg buf) = .deepPowerDown
    ∧ decodeRequest (makeRecord 0x0D a n arg buf) = .wake
    ∧ decodeRequest (makeRecord 0x0E a n arg buf) = .readData a n buf
    ∧ decodeRequest (makeRecord 0x0F a n arg buf) = .writeData a n buf
    ∧ ∀ op : Byte, 0x10 ≤ op.toNat → decodeRequest (makeRecord op a n arg buf) = .reservedOp op

/-- A byte sequence that decodes to a frame is that frame's encoding and no other's: every byte the sequencer decides is
read, and none is read that is not there (R65, R67, R68). -/
def Obligations.FrameDecodingIsExact : Prop :=
  ∀ (ws : Byte) (bytes : List Byte) (i : Instr), decodeFrame ws bytes = .ok i →
    i.isFrame = true ∧ i.wellFormed = true
      ∧ bytes = (encodeFrame ws i).mapIdx (Slot.onWire fun k => bytes.getD k 0)

/-- A few words written out from R69 and R80. -/
def Obligations.KnownWordsDecode : Prop :=
  decodeFrame 0x01 [0x9F, 0, 0, 0] = .ok .spiIdentify
  ∧ decodeFrame 0x01 [0x03, 0x12, 0x34, 0x56, 0, 0] = .ok (.spiRead3 0x123456 2)
  ∧ decodeFrame 0x01 [0x12, 0x01, 0x02, 0x03, 0x04, 0xAA] = .ok (.spiProgram4 0x01020304 1)
  ∧ decodeFrame 0x01 [0xD8, 0xAB, 0xCD, 0xEF] = .ok (.spiBlockErase3 0xABCDEF)
  ∧ decodeFrame 0x01 [0x01, 0x5A] = .ok (.spiWriteStatus 0x5A)
  ∧ decodeFrame 0x01 [0x77] = .error (.unknownCommand 0x77)
  ∧ decodeRequest 0x01 = .identify
  ∧ decodeRequest 0x12345608 = .sectorErase 0x00123456
  ∧ decodeRequest 0x10 = .reservedOp 0x10

/-- `AddrBytes` (R66): three or four bytes, most significant first, bits 31 to 24 dropped in 3-byte mode. -/
def Obligations.AddressFieldBytes : Prop :=
  ∀ (c : Cfg) (a : Word),
    (c.addrBytes = 3 → addrBytes c a = [a.extractLsb' 16 8, a.extractLsb' 8 8, a.extractLsb' 0 8])
    ∧ (c.addrBytes ≠ 3 →
        addrBytes c a = [a.extractLsb' 24 8, a.extractLsb' 16 8, a.extractLsb' 8 8, a.extractLsb' 0 8])
    ∧ ∀ b : Word, c.addrBytes = 3 → b.extractLsb' 0 24 = a.extractLsb' 0 24 → addrBytes c b = addrBytes c a

/-- The addressed frames a well-configured sequencer builds (R68, R70): the variant of its mode, the command byte R70 selects,
the address field of R66, and in `FMT_A` 4 or 5 bytes in all. -/
def Obligations.ModeSelectsVariant : Prop :=
  ∀ (c : Cfg) (ws : Byte) (a n : Word), cfgOk c = true →
    (∃ f, eraseFrame c .sector a = some f ∧ f.isFrame = true ∧ frameHeader ws f =
        (if c.addrBytes = 3 then (0x20 : Byte) else 0x21) :: addrBytes c a ∧ (encodeFrame ws f).length = 1 + c.addrBytes)
    ∧ (∃ f, eraseFrame c .block a = some f ∧ f.isFrame = true ∧ frameHeader ws f =
        (if c.addrBytes = 3 then (0xD8 : Byte) else 0xDC) :: addrBytes c a ∧ (encodeFrame ws f).length = 1 + c.addrBytes)
    ∧ (∃ f, readFrame c a n = some f ∧ f.isFrame = true ∧ frameHeader ws f =
        (if c.addrBytes = 3 then (0x03 : Byte) else 0x13) :: addrBytes c a
        ∧ (encodeFrame ws f).length = 1 + c.addrBytes + n.toNat)
    ∧ (∃ f, programFrame c a n = some f ∧ f.isFrame = true ∧ frameHeader ws f =
        (if c.addrBytes = 3 then (0x02 : Byte) else 0x12) :: addrBytes c a
        ∧ (encodeFrame ws f).length = 1 + c.addrBytes + n.toNat)

/-- The response field (R84): 24 bits, unused bits 0. -/
def Obligations.ResponseFieldBits : Prop :=
  Response.field .nothing = 0 ∧ (∀ v, Response.field (.ident v) = v)
  ∧ (∀ b, Response.field (.valid b) = if b then 1 else 0)
  ∧ ∀ v : Byte, (Response.field (.byte v)).toNat = v.toNat

/-! ### One step -/

/-- A request presented at the host port is recorded, decoded and executed (R34, R85); one that the Host holds back until
the previous request has responded, once no request runs (R40). -/
def Obligations.StepTakesRequest : Prop :=
  ∀ (s : State) (r : Record) (rest : List EnvMove), s.seqState ≠ .faulted →
    (s.env = .request r :: rest →
      step s = exec (decodeRequest r) { s with env := rest, trace := s.trace ++ [.req r] })
    ∧ (s.env = .requestWhenFree r :: rest → s.seqState ≠ .busy →
      step s = exec (decodeRequest r) { s with env := rest, trace := s.trace ++ [.req r] })

/-- While a request runs and no agent around the sequencer moves, a step performs what stands at `pc` and moves `pc` past
it: a primitive, or the opening of a frame, which is `exec` of that frame (R27, R28). -/
def Obligations.StepRunsNextPosition : Prop :=
  ∀ (s : State) (rest : List Micro), s.seqState = .busy → quiet s = true →
    (∀ p, s.pc = some (.prim p :: rest) → step s = execPrim p { s with pc := some rest })
    ∧ (∀ i, s.pc = some (.frame (.fixed i) :: rest) → step s = exec i { s with pc := some rest })
    ∧ ∀ c i, s.pc = some (.frame c :: rest) → frameAt c { s with pc := some rest } = .ok i →
        step s = exec i { s with pc := some rest }

/-- The step after a table word is placed runs the instruction the decoder reads from it: a request as it arrives at the
host port, a frame as the next position of a running request (log entries 5 and 6: the model's choice of placing; log
entry 23: a frame the configuration would not emit is run too). -/
def Obligations.StepRunsTableWord : Prop :=
  ∀ (s : State) (nbits w : Nat) (i : Instr), s.seqState ≠ .faulted → decodeTableWord nbits w = some i →
    (i.isFrame = false → step (s.withFetchWord nbits w)
      = exec i { s with trace := s.trace ++ [.req (BitVec.ofNat 136 (w % 2 ^ nbits))] })
    ∧ (i.isFrame = true → chunkOperand i = 0 → step (s.withFetchWord nbits w)
      = exec i { s with seqState := .busy, cs := .high, pc := some (s.pc.getD [.prim (.respond .nothing)]) })
    ∧ (i.isFrame = true → chunkOperand i ≠ 0 → step (s.withFetchWord nbits w)
      = exec i { s with
          seqState := .busy, cs := .high, pc := some (s.pc.getD [.prim (.respond .nothing)])
          current := some (.readData 0 (chunkOperand i) 0), regs := s.regs.put .cur 0 })

/-! ### Requests: checks and faults -/

/-- The checks a request meets, in their order, and the fault each raises (R123, R124, R126). -/
def Obligations.RequestCheckPriority : Prop :=
  ∀ (i : Instr) (s : State), i.isFrame = false →
    (s.seqState = .faulted → exec i s = .fault .stuckFaulted)
    ∧ (s.seqState = .busy → exec i s = .next (faultState s 0x01))
    ∧ (s.seqState = .uninit ∨ s.seqState = .idle → ∀ op, i = .reservedOp op → exec i s = .next (faultState s 0x02))
    ∧ (s.seqState = .uninit → i ≠ .init → (∀ op, i ≠ .reservedOp op) → exec i s = .next (faultState s 0x03))
    ∧ (s.seqState = .uninit ∨ s.seqState = .idle → i = .init →
        ¬((s.cfg.addrBytes = 3 ∨ s.cfg.addrBytes = 4) ∧ s.cfg.pageSize ≠ 0
          ∧ s.cfg.pageSize &&& (s.cfg.pageSize - 1) = 0) → exec i s = .next (faultState s 0x04))
    ∧ (s.seqState = .idle → ∀ a n buf, i = .readData a n buf ∨ i = .writeData a n buf →
        (2 ^ 32 < a.toNat + n.toNat ∨ 2 ^ 32 < buf.toNat + n.toNat) → exec i s = .next (faultState s 0x05))

/-- Otherwise the request is accepted: `pc` is the request's whole pseudocode (`requestOps`), no working register and no local
temporary holds a value a rule may read, and nothing else has changed (R12, R25, R27, R126). That a register keeps its old
value, marked as not written by this request, is the model's choice (log entry 1). -/
def Obligations.AcceptedRequestStarts : Prop :=
  ∀ (i : Instr) (s : State), i.isFrame = false → (∀ op, i ≠ .reservedOp op) →
    s.seqState = .idle ∨ (s.seqState = .uninit ∧ i = .init) →
    (i = .init → cfgOk s.cfg = true) →
    (∀ a n buf, i = .readData a n buf ∨ i = .writeData a n buf →
      a.toNat + n.toNat ≤ 2 ^ 32 ∧ buf.toNat + n.toNat ≤ 2 ^ 32) →
    ∃ t, exec i s = .next t
      ∧ t = { s with
          seqState := .busy, current := some i, pc := some (requestOps i), regs := t.regs, locals := Locals.empty }
      ∧ ∀ r, t.regs.get r = { value := (s.regs.get r).value, fresh := false }
          ∧ t.readReg r = .error (.registerNoValue r)

/-- In `FAULTED` there is no step, whatever the agents around the sequencer would do, and no instruction has an effect
(R123, R128, R129). -/
def Obligations.FaultedHasNoStep : Prop :=
  ∀ s : State, s.seqState = .faulted → step s = .fault .stuckFaulted ∧ ∀ i, i.isFrame = false → exec i s = .fault .stuckFaulted

/-- A step that ends in `FAULTED` took a request, and did nothing but record it and raise the fault: chip-select, `pc`, the
registers, the host buffer and the transport are as before (R123, R127). -/
def Obligations.FaultSavesOnlyItsCode : Prop :=
  ∀ s t : State, Inv s → step s = .next t → t.seqState = .faulted →
    ∃ r rest c, (s.env = .request r :: rest ∨ s.env = .requestWhenFree r :: rest)
      ∧ c ∈ ([0x01, 0x02, 0x03, 0x04, 0x05] : List Byte)
      ∧ t = { s with
          env := rest, trace := s.trace ++ [.req r, .fault c], faultCode := some c, seqState := .faulted }

/-- A request that arrives while another runs: the running one is abandoned where it stands (R34, R127, R140). -/
def Obligations.BusyRequestAbandonsInPlace : Prop :=
  ∀ (s : State) (r : Record) (rest : List EnvMove), s.seqState = .busy → s.env = .request r :: rest →
    ∃ t, step s = .next t ∧ t.seqState = .faulted ∧ t.faultCode = some 0x01
      ∧ t.trace = s.trace ++ [.req r, .fault 0x01] ∧ t.cs = s.cs ∧ t.pc = s.pc ∧ t.current = s.current
      ∧ t.regs = s.regs ∧ t.locals = s.locals ∧ t.transport = s.transport ∧ t.result = s.result
      ∧ ∀ a, t.mem.read a = s.mem.read a

/-- The range check of the data requests, computed exactly: accepted up to a sum of 2^32, faulting above (R120). -/
def Obligations.RangeCheckIsExact : Prop :=
  ∀ (s : State) (a n buf : Word), s.seqState = .idle →
    ((2 ^ 32 < a.toNat + n.toNat ∨ 2 ^ 32 < buf.toNat + n.toNat) →
      exec (.readData a n buf) s = .next (faultState s 0x05) ∧ exec (.writeData a n buf) s = .next (faultState s 0x05))
    ∧ (a.toNat + n.toNat ≤ 2 ^ 32 → buf.toNat + n.toNat ≤ 2 ^ 32 →
      (∃ t, exec (.readData a n buf) s = .next t ∧ t.seqState = .busy ∧ t.trace = s.trace)
      ∧ ∃ t, exec (.writeData a n buf) s = .next t ∧ t.seqState = .busy ∧ t.trace = s.trace)

/-- INIT's page-size check holds of exactly the powers of two (R20, R92). -/
def Obligations.PageSizeCheckIsPowerOfTwo : Prop :=
  ∀ v : Word, isPowerOfTwo v = true ↔ ∃ k, k < 32 ∧ v.toNat = 2 ^ k

/-- An `OP` from 0x10 to 0xFF spells no operation: a request with such a code faults with `FAULT_UNDEFINED_OP`, before any bus
event and with no other effect, in either state that takes requests (R81). -/
def Obligations.ReservedCodeFaults : Prop :=
  ∀ (r : Record) (s : State), 0x10 ≤ (opField r).toNat → s.seqState = .uninit ∨ s.seqState = .idle →
    decodeRequest r = .reservedOp (opField r) ∧ exec (decodeRequest r) s = .next (faultState s 0x02)

/-! ### Reset and the invariant -/

/-- The machine as constructed (R141): what each piece of state is, for every configuration and every parameter. The reset
state is one of these (which one is the model's choice, log entry 2). -/
def Obligations.ConstructedState : Prop :=
  (∀ (c : Cfg) (p : Params),
    (State.construct c p).cfg = c ∧ (State.construct c p).par = p ∧ (State.construct c p).seqState = .uninit
    ∧ (State.construct c p).pc = none ∧ (State.construct c p).current = none ∧ (State.construct c p).cs = .undriven
    ∧ (∀ r, ((State.construct c p).regs.get r).value = none) ∧ (State.construct c p).faultCode = none
    ∧ (State.construct c p).result = none ∧ (State.construct c p).trace = []
    ∧ (State.construct c p).transport = none)
  ∧ ∃ c p, State.reset = State.construct c p

/-- Every newly constructed sequencer meets the invariant. -/
def Obligations.ConstructMeetsInv : Prop := ∀ (c : Cfg) (p : Params), Inv (State.construct c p)

/-- Every step keeps the invariant: canonical memory, a well bracketed trace with chip-select at the level that goes with it,
the rest of the request bracketed, reading nothing unwritten and staying in its buffer range, the transport set up. -/
def Obligations.StepKeepsInv : Prop := ∀ s t : State, Inv s → step s = .next t → Inv t

/-- From a state that meets the invariant, a step goes on unless the sequencer is in `FAULTED` (R25, R89, R130). -/
def Obligations.InvStepGoesOn : Prop := ∀ s : State, Inv s → s.seqState ≠ .faulted → ∃ t, step s = .next t

/-- A step that no request arrival causes never faults: an accepted request runs without one (R130). -/
def Obligations.RunningRequestNeverFaults : Prop :=
  ∀ s : State, Inv s → s.seqState = .busy → ∃ t, seqStep s = .next t ∧ t.seqState ≠ .faulted ∧ t.faultCode = none

/-! ### What each request does, start to end -/

/-- INIT (R92). That `CS_HIGH` stands before `APPLY` is the spec's own choice (D17), which says that a claim about the order is
not supported by the source. -/
def Obligations.InitCompletes : Prop :=
  ∀ s : State, s.seqState = .uninit ∨ s.seqState = .idle →
    (s.cfg.addrBytes = 3 ∨ s.cfg.addrBytes = 4) → s.cfg.pageSize ≠ 0 → s.cfg.pageSize &&& (s.cfg.pageSize - 1) = 0 →
    ∃ t u, exec .init s = .next t ∧ Reaches t u
      ∧ Completed s u (if s.cfg.shared then [.csHigh] else [.csHigh, .apply s.cfg.bus]) .nothing []
      ∧ u.transport = (if s.cfg.shared then s.transport else some s.cfg.bus)
      ∧ ∀ x, u.mem.read x = s.mem.read x

/-- IDENTIFY (R97, R72): the first received byte is discarded, the next three are the value, the first most significant. -/
def Obligations.IdentifyCompletes : Prop :=
  ∀ s : State, s.seqState = .idle → s.cs = .high →
    ∃ t u, exec .identify s = .next t ∧ Reaches t u
      ∧ Completed s u (frameEvents s 0 [.byte 0x9F, .dc, .dc, .dc])
          (.ident (s.chipDraw 1 ++ s.chipDraw 2 ++ s.chipDraw 3)) []
      ∧ ∀ x, u.mem.read x = s.mem.read x

/-- VALIDATE (R98, R74): the first identify byte decides alone. -/
def Obligations.ValidateCompletes : Prop :=
  ∀ s : State, s.seqState = .idle → s.cs = .high →
    ∃ t u, exec .validate s = .next t ∧ Reaches t u
      ∧ Completed s u (frameEvents s 0 [.byte 0x9F, .dc, .dc, .dc]) (.valid (s.chipDraw 1 == s.cfg.mfrId)) []
      ∧ ∀ x, u.mem.read x = s.mem.read x

/-- READ_STATUS (R99, R73): the second received byte, which `S` holds too. -/
def Obligations.ReadStatusCompletes : Prop :=
  ∀ s : State, s.seqState = .idle → s.cs = .high →
    ∃ t u, exec .readStatus s = .next t ∧ Reaches t u
      ∧ Completed s u (frameEvents s 0 [.byte 0x05, .dc]) (.byte (s.chipDraw 1)) [.s]
      ∧ u.regs.s.value = some ((s.chipDraw 1).setWidth 32)
      ∧ ∀ x, u.mem.read x = s.mem.read x

/-- READ_CONFIG (R100, R73): the second received byte; `S` is not written. -/
def Obligations.ReadConfigCompletes : Prop :=
  ∀ s : State, s.seqState = .idle → s.cs = .high →
    ∃ t u, exec .readConfig s = .next t ∧ Reaches t u
      ∧ Completed s u (frameEvents s 0 [.byte 0x15, .dc]) (.byte (s.chipDraw 1)) []
      ∧ ∀ x, u.mem.read x = s.mem.read x

/-- WRITE_STATUS (R101): one wait, whichever way it ends, then the two-byte frame; no write-enable and no poll. `T`, `START`
and `S` hold what the wait wrote. -/
def Obligations.WriteStatusCompletes : Prop :=
  ∀ (s : State) (v : Byte) (p : Span), s.seqState = .idle → s.cs = .high →
    p.ok s (waitTimeout s (.arg 0)) 0 0 = true →
    ∃ t u, exec (.writeStatus v) s = .next t ∧ Reaches t u
      ∧ Completed s u (p.events s (waitTimeout s (.arg 0)) 0 0 ++ sendEvents s p.bytes [s.par.cmdWriteStatus, v]) .nothing
          [.t, .start, .s]
      ∧ p.left s u (waitTimeout s (.arg 0)) 0 0
      ∧ ∀ x, u.mem.read x = s.mem.read x

/-- WAIT_WRITE (R102, R104): status reads until WIP is clear or the timeout has elapsed, 0 selecting the default; `T`,
`START` and `S` hold what the wait wrote. -/
def Obligations.WaitWriteCompletes : Prop :=
  ∀ (s : State) (x : Word) (p : Span), s.seqState = .idle → s.cs = .high →
    p.ok s (if x = 0 then s.cfg.waitDefaultMs else x) 0 0 = true →
    ∃ t u, exec (.waitWrite x) s = .next t ∧ Reaches t u
      ∧ Completed s u (p.events s (if x = 0 then s.cfg.waitDefaultMs else x) 0 0) .nothing [.t, .start, .s]
      ∧ u.regs.t.value = some (if x = 0 then s.cfg.waitDefaultMs else x)
      ∧ u.regs.start.value = some (s.clockDraw 0)
      ∧ u.regs.s.value = some ((s.chipDraw (2 * p.polls + 1)).setWidth 32)
      ∧ ∀ a, u.mem.read a = s.mem.read a

/-- WRITE_ENABLE (R103). -/
def Obligations.WriteEnableCompletes : Prop :=
  ∀ s : State, s.seqState = .idle → s.cs = .high →
    ∃ t u, exec .writeEnable s = .next t ∧ Reaches t u
      ∧ Completed s u (sendEvents s 0 [0x06] ++ delayEvents s.cfg.weSettleUs) .nothing []
      ∧ ∀ x, u.mem.read x = s.mem.read x

/-- SECTOR_ERASE (R105, R108): prior wait, write-enable, the erase frame of the mode, trailing wait with the sector timeout;
the address goes out as given, bits 31 to 24 dropped in 3-byte mode. `T`, `START` and `S` hold what the trailing wait wrote. -/
def Obligations.SectorEraseCompletes : Prop :=
  ∀ (s : State) (a : Word) (p q : Span), s.seqState = .idle → s.cs = .high → cfgOk s.cfg = true →
    eraseWaits s ((if s.cfg.addrBytes = 3 then (0x20 : Byte) else 0x21) :: addrBytes s.cfg a) .sector p q = true →
    ∃ t u, exec (.sectorErase a) s = .next t ∧ Reaches t u
      ∧ Completed s u
          (eraseEvents s ((if s.cfg.addrBytes = 3 then (0x20 : Byte) else 0x21) :: addrBytes s.cfg a) .sector p q) .nothing
          [.t, .start, .s]
      ∧ q.left s u (waitTimeout s .sector) (p.bytes + 2 + s.cfg.addrBytes) p.clocks
      ∧ ∀ x, u.mem.read x = s.mem.read x

/-- BLOCK_ERASE (R106, R108): the same with the block command and the block/chip timeout. -/
def Obligations.BlockEraseCompletes : Prop :=
  ∀ (s : State) (a : Word) (p q : Span), s.seqState = .idle → s.cs = .high → cfgOk s.cfg = true →
    eraseWaits s ((if s.cfg.addrBytes = 3 then (0xD8 : Byte) else 0xDC) :: addrBytes s.cfg a) .blockChip p q = true →
    ∃ t u, exec (.blockErase a) s = .next t ∧ Reaches t u
      ∧ Completed s u
          (eraseEvents s ((if s.cfg.addrBytes = 3 then (0xD8 : Byte) else 0xDC) :: addrBytes s.cfg a) .blockChip p q)
          .nothing [.t, .start, .s]
      ∧ q.left s u (waitTimeout s .blockChip) (p.bytes + 2 + s.cfg.addrBytes) p.clocks
      ∧ ∀ x, u.mem.read x = s.mem.read x

/-- CHIP_ERASE (R107, R108): the same without an address. -/
def Obligations.ChipEraseCompletes : Prop :=
  ∀ (s : State) (p q : Span), s.seqState = .idle → s.cs = .high → eraseWaits s [0xC7] .blockChip p q = true →
    ∃ t u, exec .chipErase s = .next t ∧ Reaches t u
      ∧ Completed s u (eraseEvents s [0xC7] .blockChip p q) .nothing [.t, .start, .s]
      ∧ q.left s u (waitTimeout s .blockChip) (p.bytes + 2) p.clocks
      ∧ ∀ x, u.mem.read x = s.mem.read x

/-- RESET_DEVICE (R109): a wait, reset-enable, settle, reset, settle. `T`, `START` and `S` hold what the wait wrote. -/
def Obligations.ResetDeviceCompletes : Prop :=
  ∀ (s : State) (p : Span), s.seqState = .idle → s.cs = .high → p.ok s (waitTimeout s (.arg 0)) 0 0 = true →
    ∃ t u, exec .resetDevice s = .next t ∧ Reaches t u
      ∧ Completed s u
          (p.events s (waitTimeout s (.arg 0)) 0 0 ++ sendEvents s p.bytes [0x66] ++ delayEvents s.par.resetSettleUs
            ++ sendEvents s (p.bytes + 1) [0x99] ++ delayEvents s.par.resetSettleUs) .nothing [.t, .start, .s]
      ∧ p.left s u (waitTimeout s (.arg 0)) 0 0
      ∧ ∀ x, u.mem.read x = s.mem.read x

/-- DEEP_POWER_DOWN (R110): the command at once, then the optional delay. -/
def Obligations.DeepPowerDownCompletes : Prop :=
  ∀ s : State, s.seqState = .idle → s.cs = .high →
    ∃ t u, exec .deepPowerDown s = .next t ∧ Reaches t u
      ∧ Completed s u (sendEvents s 0 [0xB9] ++ delayEvents s.par.dpdSettleUs) .nothing []
      ∧ ∀ x, u.mem.read x = s.mem.read x

/-- WAKE (R111): one byte, then the recovery delay. -/
def Obligations.WakeCompletes : Prop :=
  ∀ s : State, s.seqState = .idle → s.cs = .high →
    ∃ t u, exec .wake s = .next t ∧ Reaches t u
      ∧ Completed s u (sendEvents s 0 [0xAB] ++ delayEvents s.par.tresUs) .nothing []
      ∧ ∀ x, u.mem.read x = s.mem.read x

/-- READ_DATA (R115, R116, R122): one read frame a chunk; the bytes received in the data phases are in the host buffer, in
order, and no other byte of it has changed; `ADDR`, `REM` and `CUR` stand at the end of the range, and `CHUNK` holds the last
chunk's length (its old value if there was none). -/
def Obligations.ReadDataCompletes : Prop :=
  ∀ (s : State) (a n buf : Word), s.seqState = .idle → s.cs = .high → cfgOk s.cfg = true → s.mem.wf = true →
    a.toNat + n.toNat ≤ 2 ^ 32 → buf.toNat + n.toNat ≤ 2 ^ 32 →
    ∃ t u, exec (.readData a n buf) s = .next t ∧ Reaches t u
      ∧ Completed s u (readEvents s 0 buf.toNat (chunksOf s.cfg.pageSize a n)) .nothing [.addr, .rem, .cur, .chunk]
      ∧ (readBytesOf s 0 (chunksOf s.cfg.pageSize a n)).length = n.toNat
      ∧ (∀ x, u.mem.read x = storedByte s.mem buf.toNat (readBytesOf s 0 (chunksOf s.cfg.pageSize a n)) x)
      ∧ u.regs.addr.value = some (a + n) ∧ u.regs.rem.value = some 0 ∧ u.regs.cur.value = some n
      ∧ u.regs.chunk.value = ((chunksOf s.cfg.pageSize a n).getLast?.map Prod.snd).or s.regs.chunk.value
      ∧ u.mem.wf = true

/-- WRITE_DATA (R117, R118, R122): per chunk a wait, a write-enable, one page-program frame that carries the host's bytes
in order, and a wait, whichever way the waits end; the host buffer is only read. `ADDR`, `REM` and `CUR` stand at the end of the
range; `CHUNK` holds the last chunk's length, and `T`, `START` and `S` what the last wait wrote (their old values if there
was no chunk). -/
def Obligations.WriteDataCompletes : Prop :=
  ∀ (s : State) (a n buf : Word) (waits : List (Span × Span)), s.seqState = .idle → s.cs = .high →
    cfgOk s.cfg = true → a.toNat + n.toNat ≤ 2 ^ 32 → buf.toNat + n.toNat ≤ 2 ^ 32 →
    writeWaits s 0 0 (chunksOf s.cfg.pageSize a n) waits = true →
    ∃ t u, exec (.writeData a n buf) s = .next t ∧ Reaches t u
      ∧ Completed s u (writeEvents s 0 0 buf.toNat (chunksOf s.cfg.pageSize a n) waits) .nothing
          [.addr, .rem, .cur, .chunk, .t, .start, .s]
      ∧ u.regs.addr.value = some (a + n) ∧ u.regs.rem.value = some 0 ∧ u.regs.cur.value = some n
      ∧ u.regs.chunk.value = ((chunksOf s.cfg.pageSize a n).getLast?.map Prod.snd).or s.regs.chunk.value
      ∧ u.regs.t.value = ((lastWait s 0 0 (chunksOf s.cfg.pageSize a n) waits).map fun _ => waitTimeout s .program).or
          s.regs.t.value
      ∧ u.regs.start.value = ((lastWait s 0 0 (chunksOf s.cfg.pageSize a n) waits).map Prod.fst).or s.regs.start.value
      ∧ u.regs.s.value = ((lastWait s 0 0 (chunksOf s.cfg.pageSize a n) waits).map fun l => l.2.setWidth 32).or
          s.regs.s.value
      ∧ ∀ x, u.mem.read x = s.mem.read x

/-- A zero-length data request only responds (R119), from every address and buffer. -/
def Obligations.ZeroLengthCompletes : Prop :=
  ∀ (s : State) (a buf : Word), s.seqState = .idle → s.cs = .high →
    (∃ t u, exec (.readData a 0 buf) s = .next t ∧ Reaches t u ∧ Completed s u [] .nothing [.addr, .rem, .cur]
      ∧ ∀ x, u.mem.read x = s.mem.read x)
    ∧ ∃ t u, exec (.writeData a 0 buf) s = .next t ∧ Reaches t u ∧ Completed s u [] .nothing [.addr, .rem, .cur]
      ∧ ∀ x, u.mem.read x = s.mem.read x

/-- Every accepted request does what its pseudocode says, start to end (`Code.request`, R12, R92 to R118): whatever `fuel`
lets its waits finish, the sequencer gets to the state the pseudocode ends in. -/
def Obligations.RequestFollowsPseudocode : Prop :=
  ∀ (fuel : Nat) (i : Instr) (s u : State), s.seqState = .idle ∨ (s.seqState = .uninit ∧ i = .init) →
    (i ≠ .init → s.cs = .high) → accepts s.cfg i = true →
    Code.request fuel i { s with seqState := .busy, current := some i, regs := s.regs.stale, locals := Locals.empty } = some u →
    ∃ t, exec i s = .next t ∧ Reaches t u

/-- An accepted request ends with its response if its waits do (R104 (d), R130, R134): under the fairness of the clock for
the timeouts it uses, it ends in `IDLE` with a result and no fault. The clock past a state's own script is free (log entry 3), so
the premise can be shown only of requests without a wait and of timeouts of 0. -/
def Obligations.AcceptedRequestEnds : Prop :=
  ∀ (i : Instr) (s : State), s.seqState = .idle ∨ (s.seqState = .uninit ∧ i = .init) →
    (i ≠ .init → s.cs = .high) → accepts s.cfg i = true → s.faultCode = none →
    (∀ w ∈ waitsOf i, fairClock s (waitTimeout s w)) →
    ∃ t u v l, exec i s = .next t ∧ Reaches t u ∧ u.seqState = .idle ∧ u.cs = .high ∧ u.pc = none ∧ u.faultCode = none
      ∧ u.result = some v ∧ u.trace = s.trace ++ l ++ [.resp v]

/-- What a request leaves unchanged, from its acceptance to its response and at every step between: every working register
its rule does not name, the fault code, the configuration, the transport on an exclusive bus unless it is INIT, and the host
buffer unless it is READ_DATA, which changes no byte outside its own range. Whatever the state it is accepted in. -/
def Obligations.RequestLeavesTheRest : Prop :=
  ∀ (i : Instr) (s t u : State), i.isFrame = false → exec i s = .next t → Reaches t u → u.seqState ≠ .faulted →
    u.cfg = s.cfg ∧ u.par = s.par ∧ u.faultCode = s.faultCode ∧ u.env = s.env
    ∧ (s.cfg.shared = false → i ≠ .init → u.transport = s.transport)
    ∧ (∀ r, r ∉ writtenBy i → (u.regs.get r).value = (s.regs.get r).value)
    ∧ ((∀ a n buf, i ≠ .readData a n buf) → ∀ x, u.mem.read x = s.mem.read x)
    ∧ ∀ a n buf, i = .readData a n buf → ∀ x, x < buf.toNat ∨ buf.toNat + n.toNat ≤ x → u.mem.read x = s.mem.read x

/-- What taking a request leaves unchanged, accepted or faulted: the trace but for a `FAULT`, chip-select, the transport, the
values of the working registers, the last result and every byte of the host buffer (R126, R127). -/
def Obligations.RequestTakingFrame : Prop :=
  ∀ (i : Instr) (s t : State), i.isFrame = false → exec i s = .next t →
    (t.trace = s.trace ∨ ∃ c, t.trace = s.trace ++ [.fault c] ∧ t.seqState = .faulted) ∧ t.cs = s.cs
    ∧ t.transport = s.transport ∧ (∀ r, (t.regs.get r).value = (s.regs.get r).value) ∧ t.result = s.result
    ∧ t.cfg = s.cfg ∧ t.par = s.par ∧ t.env = s.env ∧ (∀ k, t.chipDraw k = s.chipDraw k)
    ∧ (∀ k, t.clockDraw k = s.clockDraw k) ∧ ∀ x, t.mem.read x = s.mem.read x

/-! ### SPI frames -/

/-- A frame opens (R87): on an exclusive bus chip-select falls, on a shared bus the settings are applied first; its exchanges,
its `EndTx` and what was next stand at `pc`, and nothing else has changed. All eighteen frames; that it holds of one the
configuration would not emit (R67, R70) is the model's choice (log entry 23). -/
def Obligations.FrameOpens : Prop :=
  ∀ (i : Instr) (s : State) (d : Nat) (rest : List Micro), i.isFrame = true → s.seqState = .busy → s.cs = .high →
    s.pc = some rest → dataPlaced s i d → exec i s = .next (openedFrame s d i rest)

/-- A frame, start to end (R67, R71, R87, R88, R91): the bytes it exchanges, chip-select high again, `pc` at what was next;
the received bytes the table uses are kept or stored, and every other register, local temporary and byte of the host
buffer is as before (a read frame uses its temporary `r` byte by byte, R116). That it holds of a frame the configuration
would not emit (R67, R70) is the model's choice (log entry 23). -/
def Obligations.FrameRunsWhole : Prop :=
  ∀ (i : Instr) (s : State) (d : Nat) (rest : List Micro), i.isFrame = true → s.seqState = .busy → s.cs = .high →
    s.pc = some rest → s.mem.wf = true → dataPlaced s i d →
    ∃ t u, exec i s = .next t ∧ Reaches t u ∧ u.pc = some rest ∧ u.cs = .high ∧ u.seqState = .busy
      ∧ u.current = s.current ∧ u.trace = s.trace ++ frameTrace s d i
      ∧ (∀ x, u.mem.read x = storedByte s.mem d (frameStores s i) x)
      ∧ u.transport = (if s.cfg.shared then some s.cfg.bus else s.transport)
      ∧ (i = .spiIdentify → u.locals.r1 = some (s.chipDraw 1) ∧ u.locals.r2 = some (s.chipDraw 2)
          ∧ u.locals.r3 = some (s.chipDraw 3))
      ∧ (i = .spiReadStatus → u.regs.s = { value := some ((s.chipDraw 1).setWidth 32), fresh := true })
      ∧ (i = .spiReadConfig → u.locals.c = some (s.chipDraw 1))
      ∧ (∀ r, (i = .spiReadStatus → r ≠ .s) → u.regs.get r = s.regs.get r)
      ∧ (∀ l, l ∉ keptBy i → u.locals.get l = s.locals.get l)
      ∧ u.faultCode = s.faultCode ∧ u.result = s.result ∧ u.cfg = s.cfg ∧ u.par = s.par ∧ u.env = s.env

/-- Where a frame may not open it stops the model: outside a running request, inside another transaction, and, a data frame,
outside the buffer range the request names (R27, R46, R86, R89; log entries 7 and 8). -/
def Obligations.FrameStops : Prop :=
  ∀ (i : Instr) (s : State), i.isFrame = true →
    (plainFrame i = true → s.seqState = .uninit ∨ s.seqState = .idle → exec i s = .fault .frameOutsideRequest)
    ∧ (plainFrame i = true → s.seqState = .busy → s.cs ≠ .high → exec i s = .fault .nestedTransaction)
    ∧ (plainFrame i = false → ∀ q buf len cur, s.current = some q → q.buffer = some (buf, len) →
        s.regs.cur = { value := some cur, fresh := true } → len.toNat < cur.toNat + (chunkOperand i).toNat →
        exec i s = .fault .outsideBuffer)
    ∧ (plainFrame i = false → s.regs.cur.fresh = false → exec i s = .fault (.registerNoValue .cur))
    ∧ (s.seqState ≠ .busy ∨ s.cs ≠ .high → ∃ f, exec i s = .fault f)

/-- What opening a frame leaves unchanged; of a frame the configuration would not emit too (log entry 23). -/
def Obligations.FrameOpeningFrame : Prop :=
  ∀ (i : Instr) (s t : State), i.isFrame = true → exec i s = .next t →
    t.regs = s.regs ∧ t.locals = s.locals ∧ t.current = s.current ∧ t.seqState = .busy ∧ t.faultCode = s.faultCode
    ∧ t.result = s.result ∧ t.cfg = s.cfg ∧ t.par = s.par ∧ t.env = s.env ∧ (∀ k, t.chipDraw k = s.chipDraw k)
    ∧ (∀ k, t.clockDraw k = s.clockDraw k) ∧ ∀ x, t.mem.read x = s.mem.read x

/-! ### Chunks and waits -/

/-- `NextChunk` (R113): `CHUNK` becomes the distance to the end of the page, capped at `REM`; nothing else changes. -/
def Obligations.NextChunkLength : Prop :=
  ∀ (s : State) (rest : List Micro) (a rem : Word), s.seqState = .busy → quiet s = true →
    s.pc = some (.prim .nextChunk :: rest) → s.regs.addr = { value := some a, fresh := true } →
    s.regs.rem = { value := some rem, fresh := true } → isPowerOfTwo s.cfg.pageSize = true →
    ∃ c : Word, c.toNat = min (s.cfg.pageSize.toNat - a.toNat % s.cfg.pageSize.toNat) rem.toNat
      ∧ step s = .next { s with
          pc := some rest, regs := { s.regs with chunk := { value := some c, fresh := true } } }

/-- The chunks of a range (R114 (a) to (f)): contiguous, covering it exactly, each in one page, the first as long as R113
says, every boundary between two chunks a page boundary, and as many as pages touched. -/
def Obligations.ChunksCoverTheRange : Prop :=
  ∀ p a n : Word, p ≠ 0 → n ≠ 0 → a.toNat + n.toNat ≤ 2 ^ 32 →
    ((chunksOf p a n).head?.map Prod.fst = some a
    ∧ ∀ i x c x' c', (chunksOf p a n)[i]? = some (x, c) → (chunksOf p a n)[i + 1]? = some (x', c') →
        x'.toNat = x.toNat + c.toNat ∧ x'.toNat % p.toNat = 0 ∧ (0 < i → c = p))
    ∧ ((chunksOf p a n).map fun q => q.2.toNat).sum = n.toNat
    ∧ (∀ q ∈ chunksOf p a n, 1 ≤ q.2.toNat ∧ q.2.toNat ≤ p.toNat
        ∧ q.1.toNat / p.toNat = (q.1.toNat + q.2.toNat - 1) / p.toNat)
    ∧ (chunksOf p a n).head?.map (fun q => q.2.toNat) = some (min (p.toNat - a.toNat % p.toNat) n.toNat)
    ∧ (chunksOf p a n).length = (a.toNat + n.toNat - 1) / p.toNat - a.toNat / p.toNat + 1

/-- `Wait` returns in exactly two ways (R104 (a)): a status byte with bit 0 clear, or an elapsed time of at least the timeout.
Whenever a WAIT_WRITE has responded, its wait has gone one of these ways, has recorded just that, and has left `T`, `START`
and `S` as R102 says. -/
def Obligations.WaitReturnsInTwoWays : Prop :=
  ∀ (x : Word) (s t u : State), exec (.waitWrite x) s = .next t → Reaches t u → u.seqState = .idle →
    ∃ p : Span, p.ok s (if x = 0 then s.cfg.waitDefaultMs else x) 0 0 = true
      ∧ u.trace = s.trace ++ p.events s (if x = 0 then s.cfg.waitDefaultMs else x) 0 0 ++ [.resp .nothing]
      ∧ p.left s u (if x = 0 then s.cfg.waitDefaultMs else x) 0 0
      ∧ (if p.timedOut then
          wip ((s.chipDraw (2 * p.polls + 1)).setWidth 32) = true
            ∧ (if x = 0 then s.cfg.waitDefaultMs else x) ≤ elapsed (s.clockDraw (p.clocks - 1)) (s.clockDraw 0)
        else wip ((s.chipDraw (2 * p.polls + 1)).setWidth 32) = false)

/-- WAIT_WRITE ends if the clock gives one reading that reaches the timeout, whatever the chip answers (R104 (d), R134). -/
def Obligations.WaitEndsWhenTheClockAllows : Prop :=
  ∀ (s : State) (x : Word) (k : Nat), s.seqState = .idle → s.cs = .high →
    (if x = 0 then s.cfg.waitDefaultMs else x) ≤ elapsed (s.clockDraw (k + 1)) (s.clockDraw 0) →
    ∃ t u, exec (.waitWrite x) s = .next t ∧ Reaches t u ∧ u.seqState = .idle ∧ u.result = some .nothing
      ∧ u.faultCode = s.faultCode

/-! ### Whole-machine rules -/

/-- No event is ever lost or reordered, and nothing changes the configuration (R9, R17, R31). -/
def Obligations.TraceOnlyGrows : Prop :=
  ∀ s t : State, step s = .next t → s.trace <+: t.trace ∧ t.cfg = s.cfg ∧ t.par = s.par

/-- On an exclusive bus only INIT applies the bus settings (R90). -/
def Obligations.ExclusiveBusAppliesOnlyInInit : Prop :=
  ∀ (s t : State) (new : List Event) (b : BusSettings), Inv s → s.cfg.shared = false → step s = .next t →
    t.trace = s.trace ++ new → .apply b ∈ new → s.seqState = .busy ∧ s.current = some .init ∧ b = s.cfg.bus

/-- On an exclusive bus the transport carries this device's settings whenever chip-select is low, also in `FAULTED` with a frame
abandoned (R44, R92, R127; that nothing else reconfigures an exclusive bus is R44's assumption, log entry 18). On any bus the
settings never change while chip-select is low: a step that changes them applies this device's own, or is the move of another
device on a shared bus between two frames (R87, R137; log entry 9). -/
def Obligations.TransportIsOwnWhileClocking : Prop :=
  (∀ s : State, Inv s → s.cfg.shared = false → s.cs = .low → s.transport = some s.cfg.bus)
  ∧ ∀ s t : State, Inv s → step s = .next t → t.transport ≠ s.transport →
      s.cs ≠ .low ∧
        ((t.transport = some s.cfg.bus ∧ t.trace = s.trace ++ [.apply s.cfg.bus])
          ∨ ∃ b rest, s.env = .otherDevice b :: rest ∧ s.cfg.shared = true
              ∧ t = { s with env := rest, transport := some b })

/-- Bracketing, of every trace the machine comes to (R89): chip-select falls only while high, bytes are exchanged only while it
is low, and it is high at every response. -/
def Obligations.TraceIsBracketed : Prop :=
  ∀ (s : State) (pre post : List Event) (e : Event), Inv s → s.trace = pre ++ e :: post →
    (e = .csLow → csOf pre = .high) ∧ (∀ b r, e = .xfer b r → csOf pre = .low) ∧ (∀ v, e = .resp v → csOf pre = .high)
    ∧ csOf s.trace = s.cs

/-- Every frame begins with a command byte of the table (R65, R75). -/
def Obligations.FramesBeginWithCommands : Prop :=
  ∀ (s : State) (pre post : List Event) (b : TxByte) (r : Byte), Inv s → s.trace = pre ++ .csLow :: .xfer b r :: post →
    ∃ x, b = .byte x ∧ x ∈ commandBytes s.par

/-- On a shared bus every frame follows an application of this device's settings and the settle delay, none when it is 0
(R93). -/
def Obligations.SharedFramesAreSetUp : Prop :=
  ∀ (s : State) (pre post : List Event), Inv s → s.cfg.shared = true → s.trace = pre ++ .csLow :: post →
    ∃ before between, pre = before ++ .apply s.cfg.bus :: between
      ∧ between.filter ownEvent = delayEvents s.cfg.sharedSettleUs

/-- A byte of the host buffer changes only where READ_DATA's own range is, or where the Host itself writes between requests
(R40, R46, R122). -/
def Obligations.HostBufferChangesOnlyInRange : Prop :=
  ∀ (s t : State) (x : Nat), Inv s → step s = .next t → t.mem.read x ≠ s.mem.read x →
    (∃ a n buf, s.seqState = .busy ∧ s.current = some (.readData a n buf) ∧ buf.toNat ≤ x ∧ x < buf.toNat + n.toNat)
    ∨ ∃ a b rest, s.seqState ≠ .busy ∧ s.env = .store a b :: rest ∧ x = a.toNat

/-- The moves of the agents around the sequencer (R6, R40, R137): the Host's own stores between requests, another device's
settings on a shared bus while no transaction is open; nothing else of the sequencer changes (where they land: log entry 9). With
no move to make, a sequencer that waits for a request stays as it is (R27, R142; log entry 12). -/
def Obligations.AgentMoves : Prop :=
  ∀ (s : State) (rest : List EnvMove), s.seqState ≠ .faulted →
    (∀ a b, s.env = .store a b :: rest → s.seqState ≠ .busy →
      step s = .next { s with env := rest, mem := s.mem.write a.toNat b })
    ∧ (∀ b, s.env = .otherDevice b :: rest → s.cfg.shared = true → inTransaction s = false →
      step s = .next { s with env := rest, transport := some b })
    ∧ (s.env = [] → s.seqState = .uninit ∨ s.seqState = .idle → step s = .next s)
end

