-- ==== Sys2Proof/Laws/Encoding.lean ====
section
/-! SUPPORT. Fields of concatenated bit vectors, and the address bytes of R66 there and back. -/

namespace Sys2Proof

/-- The low part of a concatenation. -/
theorem extract_append_low {n m : Nat} (x : BitVec n) (y : BitVec m) : (x ++ y).extractLsb' 0 m = y := by
  apply BitVec.eq_of_getLsbD_eq
  intro i hi
  simp [BitVec.getLsbD_append, hi]

/-- A field above the low part. -/
theorem extract_append_high {n m : Nat} (x : BitVec n) (y : BitVec m) (k w : Nat) :
    (x ++ y).extractLsb' (m + k) w = x.extractLsb' k w := by
  apply BitVec.eq_of_getLsbD_eq
  intro i hi
  have h1 : ¬ m + k + i < m := by omega
  have h2 : m + k + i - m = k + i := by omega
  simp [BitVec.getLsbD_append, hi, h1, h2]

theorem extract_whole {n : Nat} (x : BitVec n) : x.extractLsb' 0 n = x := by
  apply BitVec.eq_of_getLsbD_eq
  intro i hi
  simp [hi]

/-- Three bytes make the address they were taken from. -/
theorem join_addrBytes3 (a : Addr24) : a.extractLsb' 16 8 ++ a.extractLsb' 8 8 ++ a.extractLsb' 0 8 = a := by
  apply BitVec.eq_of_getLsbD_eq
  intro i hi
  simp only [BitVec.getLsbD_append, BitVec.getLsbD_extractLsb']
  by_cases h1 : i < 8
  · simp [h1]
  by_cases h2 : i - 8 < 8
  · simp [h1, h2]; congr 1; omega
  have h3 : i - 8 - 8 < 8 := by omega
  simp [h1, h2, h3]; congr 1; omega

/-- Four bytes make the address they were taken from. -/
theorem join_addrBytes4 (a : Word) :
    a.extractLsb' 24 8 ++ a.extractLsb' 16 8 ++ a.extractLsb' 8 8 ++ a.extractLsb' 0 8 = a := by
  apply BitVec.eq_of_getLsbD_eq
  intro i hi
  simp only [BitVec.getLsbD_append, BitVec.getLsbD_extractLsb']
  by_cases h1 : i < 8
  · simp [h1]
  by_cases h2 : i - 8 < 8
  · simp [h1, h2]; congr 1; omega
  by_cases h3 : i - 8 - 8 < 8
  · simp [h1, h2, h3]; congr 1; omega
  have h4 : i - 8 - 8 - 8 < 8 := by omega
  simp [h1, h2, h3, h4]; congr 1; omega

/-- The address made of three bytes has these bytes. -/
theorem addrBytes3_join (x y z : Byte) : addrBytes3 (x ++ y ++ z) = [x, y, z] := by
  have h1 : (x ++ y ++ z : Addr24).extractLsb' 16 8 = x :=
    (extract_append_high (x ++ y) z 8 8).trans ((extract_append_high x y 0 8).trans (extract_whole x))
  have h2 : (x ++ y ++ z : Addr24).extractLsb' 8 8 = y :=
    (extract_append_high (x ++ y) z 0 8).trans (extract_append_low x y)
  have h3 : (x ++ y ++ z : Addr24).extractLsb' 0 8 = z := extract_append_low (x ++ y) z
  simp only [addrBytes3, h1, h2, h3]

/-- The address made of four bytes has these bytes. -/
theorem addrBytes4_join (x y z w : Byte) : addrBytes4 (x ++ y ++ z ++ w) = [x, y, z, w] := by
  have h1 : (x ++ y ++ z ++ w : Word).extractLsb' 24 8 = x :=
    (extract_append_high (x ++ y ++ z) w 16 8).trans
      ((extract_append_high (x ++ y) z 8 8).trans ((extract_append_high x y 0 8).trans (extract_whole x)))
  have h2 : (x ++ y ++ z ++ w : Word).extractLsb' 16 8 = y :=
    (extract_append_high (x ++ y ++ z) w 8 8).trans
      ((extract_append_high (x ++ y) z 0 8).trans (extract_append_low x y))
  have h3 : (x ++ y ++ z ++ w : Word).extractLsb' 8 8 = z :=
    (extract_append_high (x ++ y ++ z) w 0 8).trans (extract_append_low (x ++ y) z)
  have h4 : (x ++ y ++ z ++ w : Word).extractLsb' 0 8 = w := extract_append_low (x ++ y ++ z) w
  simp only [addrBytes4, h1, h2, h3, h4]

end Sys2Proof
end

