-- ==== Sys2Proof/Laws/State.lean ====
section
/-! SUPPORT. One lemma per field per update of State, so that no proof unfolds a record update. -/

namespace Sys2Proof.Machine.State

variable (s : State)

/-! ### setPc -/

@[simp] theorem setPc_cfg (ops : List Micro) : (s.setPc ops).cfg = s.cfg := rfl
@[simp] theorem setPc_par (ops : List Micro) : (s.setPc ops).par = s.par := rfl
@[simp] theorem setPc_seqState (ops : List Micro) : (s.setPc ops).seqState = s.seqState := rfl
@[simp] theorem setPc_current (ops : List Micro) : (s.setPc ops).current = s.current := rfl
@[simp] theorem setPc_pc (ops : List Micro) : (s.setPc ops).pc = some ops := rfl
@[simp] theorem setPc_cs (ops : List Micro) : (s.setPc ops).cs = s.cs := rfl
@[simp] theorem setPc_regs (ops : List Micro) : (s.setPc ops).regs = s.regs := rfl
@[simp] theorem setPc_locals (ops : List Micro) : (s.setPc ops).locals = s.locals := rfl
@[simp] theorem setPc_faultCode (ops : List Micro) : (s.setPc ops).faultCode = s.faultCode := rfl
@[simp] theorem setPc_result (ops : List Micro) : (s.setPc ops).result = s.result := rfl
@[simp] theorem setPc_trace (ops : List Micro) : (s.setPc ops).trace = s.trace := rfl
@[simp] theorem setPc_mem (ops : List Micro) : (s.setPc ops).mem = s.mem := rfl
@[simp] theorem setPc_transport (ops : List Micro) : (s.setPc ops).transport = s.transport := rfl
@[simp] theorem setPc_env (ops : List Micro) : (s.setPc ops).env = s.env := rfl
@[simp] theorem setPc_chipIn (ops : List Micro) : (s.setPc ops).chipIn = s.chipIn := rfl
@[simp] theorem setPc_chipCount (ops : List Micro) : (s.setPc ops).chipCount = s.chipCount := rfl
@[simp] theorem setPc_clockIn (ops : List Micro) : (s.setPc ops).clockIn = s.clockIn := rfl
@[simp] theorem setPc_clockCount (ops : List Micro) : (s.setPc ops).clockCount = s.clockCount := rfl

/-! ### pushOps -/

@[simp] theorem pushOps_cfg (ops : List Micro) : (s.pushOps ops).cfg = s.cfg := rfl
@[simp] theorem pushOps_par (ops : List Micro) : (s.pushOps ops).par = s.par := rfl
@[simp] theorem pushOps_seqState (ops : List Micro) : (s.pushOps ops).seqState = s.seqState := rfl
@[simp] theorem pushOps_current (ops : List Micro) : (s.pushOps ops).current = s.current := rfl
@[simp] theorem pushOps_pc (ops : List Micro) : (s.pushOps ops).pc = some (ops ++ s.pc.getD []) := rfl
@[simp] theorem pushOps_cs (ops : List Micro) : (s.pushOps ops).cs = s.cs := rfl
@[simp] theorem pushOps_regs (ops : List Micro) : (s.pushOps ops).regs = s.regs := rfl
@[simp] theorem pushOps_locals (ops : List Micro) : (s.pushOps ops).locals = s.locals := rfl
@[simp] theorem pushOps_faultCode (ops : List Micro) : (s.pushOps ops).faultCode = s.faultCode := rfl
@[simp] theorem pushOps_result (ops : List Micro) : (s.pushOps ops).result = s.result := rfl
@[simp] theorem pushOps_trace (ops : List Micro) : (s.pushOps ops).trace = s.trace := rfl
@[simp] theorem pushOps_mem (ops : List Micro) : (s.pushOps ops).mem = s.mem := rfl
@[simp] theorem pushOps_transport (ops : List Micro) : (s.pushOps ops).transport = s.transport := rfl
@[simp] theorem pushOps_env (ops : List Micro) : (s.pushOps ops).env = s.env := rfl
@[simp] theorem pushOps_chipIn (ops : List Micro) : (s.pushOps ops).chipIn = s.chipIn := rfl
@[simp] theorem pushOps_chipCount (ops : List Micro) : (s.pushOps ops).chipCount = s.chipCount := rfl
@[simp] theorem pushOps_clockIn (ops : List Micro) : (s.pushOps ops).clockIn = s.clockIn := rfl
@[simp] theorem pushOps_clockCount (ops : List Micro) : (s.pushOps ops).clockCount = s.clockCount := rfl

/-! ### record -/

@[simp] theorem record_cfg (e : Event) : (s.record e).cfg = s.cfg := rfl
@[simp] theorem record_par (e : Event) : (s.record e).par = s.par := rfl
@[simp] theorem record_seqState (e : Event) : (s.record e).seqState = s.seqState := rfl
@[simp] theorem record_current (e : Event) : (s.record e).current = s.current := rfl
@[simp] theorem record_pc (e : Event) : (s.record e).pc = s.pc := rfl
@[simp] theorem record_cs (e : Event) : (s.record e).cs = s.cs := rfl
@[simp] theorem record_regs (e : Event) : (s.record e).regs = s.regs := rfl
@[simp] theorem record_locals (e : Event) : (s.record e).locals = s.locals := rfl
@[simp] theorem record_faultCode (e : Event) : (s.record e).faultCode = s.faultCode := rfl
@[simp] theorem record_result (e : Event) : (s.record e).result = s.result := rfl
@[simp] theorem record_trace (e : Event) : (s.record e).trace = s.trace ++ [e] := rfl
@[simp] theorem record_mem (e : Event) : (s.record e).mem = s.mem := rfl
@[simp] theorem record_transport (e : Event) : (s.record e).transport = s.transport := rfl
@[simp] theorem record_env (e : Event) : (s.record e).env = s.env := rfl
@[simp] theorem record_chipIn (e : Event) : (s.record e).chipIn = s.chipIn := rfl
@[simp] theorem record_chipCount (e : Event) : (s.record e).chipCount = s.chipCount := rfl
@[simp] theorem record_clockIn (e : Event) : (s.record e).clockIn = s.clockIn := rfl
@[simp] theorem record_clockCount (e : Event) : (s.record e).clockCount = s.clockCount := rfl

/-! ### writeReg -/

@[simp] theorem writeReg_cfg (r : Reg) (v : Word) : (s.writeReg r v).cfg = s.cfg := rfl
@[simp] theorem writeReg_par (r : Reg) (v : Word) : (s.writeReg r v).par = s.par := rfl
@[simp] theorem writeReg_seqState (r : Reg) (v : Word) : (s.writeReg r v).seqState = s.seqState := rfl
@[simp] theorem writeReg_current (r : Reg) (v : Word) : (s.writeReg r v).current = s.current := rfl
@[simp] theorem writeReg_pc (r : Reg) (v : Word) : (s.writeReg r v).pc = s.pc := rfl
@[simp] theorem writeReg_cs (r : Reg) (v : Word) : (s.writeReg r v).cs = s.cs := rfl
@[simp] theorem writeReg_regs (r : Reg) (v : Word) : (s.writeReg r v).regs = s.regs.put r v := rfl
@[simp] theorem writeReg_locals (r : Reg) (v : Word) : (s.writeReg r v).locals = s.locals := rfl
@[simp] theorem writeReg_faultCode (r : Reg) (v : Word) : (s.writeReg r v).faultCode = s.faultCode := rfl
@[simp] theorem writeReg_result (r : Reg) (v : Word) : (s.writeReg r v).result = s.result := rfl
@[simp] theorem writeReg_trace (r : Reg) (v : Word) : (s.writeReg r v).trace = s.trace := rfl
@[simp] theorem writeReg_mem (r : Reg) (v : Word) : (s.writeReg r v).mem = s.mem := rfl
@[simp] theorem writeReg_transport (r : Reg) (v : Word) : (s.writeReg r v).transport = s.transport := rfl
@[simp] theorem writeReg_env (r : Reg) (v : Word) : (s.writeReg r v).env = s.env := rfl
@[simp] theorem writeReg_chipIn (r : Reg) (v : Word) : (s.writeReg r v).chipIn = s.chipIn := rfl
@[simp] theorem writeReg_chipCount (r : Reg) (v : Word) : (s.writeReg r v).chipCount = s.chipCount := rfl
@[simp] theorem writeReg_clockIn (r : Reg) (v : Word) : (s.writeReg r v).clockIn = s.clockIn := rfl
@[simp] theorem writeReg_clockCount (r : Reg) (v : Word) : (s.writeReg r v).clockCount = s.clockCount := rfl

/-! ### writeLocal -/

@[simp] theorem writeLocal_cfg (l : Local) (b : Byte) : (s.writeLocal l b).cfg = s.cfg := rfl
@[simp] theorem writeLocal_par (l : Local) (b : Byte) : (s.writeLocal l b).par = s.par := rfl
@[simp] theorem writeLocal_seqState (l : Local) (b : Byte) : (s.writeLocal l b).seqState = s.seqState := rfl
@[simp] theorem writeLocal_current (l : Local) (b : Byte) : (s.writeLocal l b).current = s.current := rfl
@[simp] theorem writeLocal_pc (l : Local) (b : Byte) : (s.writeLocal l b).pc = s.pc := rfl
@[simp] theorem writeLocal_cs (l : Local) (b : Byte) : (s.writeLocal l b).cs = s.cs := rfl
@[simp] theorem writeLocal_regs (l : Local) (b : Byte) : (s.writeLocal l b).regs = s.regs := rfl
@[simp] theorem writeLocal_locals (l : Local) (b : Byte) : (s.writeLocal l b).locals = s.locals.put l b := rfl
@[simp] theorem writeLocal_faultCode (l : Local) (b : Byte) : (s.writeLocal l b).faultCode = s.faultCode := rfl
@[simp] theorem writeLocal_result (l : Local) (b : Byte) : (s.writeLocal l b).result = s.result := rfl
@[simp] theorem writeLocal_trace (l : Local) (b : Byte) : (s.writeLocal l b).trace = s.trace := rfl
@[simp] theorem writeLocal_mem (l : Local) (b : Byte) : (s.writeLocal l b).mem = s.mem := rfl
@[simp] theorem writeLocal_transport (l : Local) (b : Byte) : (s.writeLocal l b).transport = s.transport := rfl
@[simp] theorem writeLocal_env (l : Local) (b : Byte) : (s.writeLocal l b).env = s.env := rfl
@[simp] theorem writeLocal_chipIn (l : Local) (b : Byte) : (s.writeLocal l b).chipIn = s.chipIn := rfl
@[simp] theorem writeLocal_chipCount (l : Local) (b : Byte) : (s.writeLocal l b).chipCount = s.chipCount := rfl
@[simp] theorem writeLocal_clockIn (l : Local) (b : Byte) : (s.writeLocal l b).clockIn = s.clockIn := rfl
@[simp] theorem writeLocal_clockCount (l : Local) (b : Byte) : (s.writeLocal l b).clockCount = s.clockCount := rfl

/-! ### dropLocal -/

@[simp] theorem dropLocal_cfg (l : Local) : (s.dropLocal l).cfg = s.cfg := rfl
@[simp] theorem dropLocal_par (l : Local) : (s.dropLocal l).par = s.par := rfl
@[simp] theorem dropLocal_seqState (l : Local) : (s.dropLocal l).seqState = s.seqState := rfl
@[simp] theorem dropLocal_current (l : Local) : (s.dropLocal l).current = s.current := rfl
@[simp] theorem dropLocal_pc (l : Local) : (s.dropLocal l).pc = s.pc := rfl
@[simp] theorem dropLocal_cs (l : Local) : (s.dropLocal l).cs = s.cs := rfl
@[simp] theorem dropLocal_regs (l : Local) : (s.dropLocal l).regs = s.regs := rfl
@[simp] theorem dropLocal_locals (l : Local) : (s.dropLocal l).locals = s.locals.drop l := rfl
@[simp] theorem dropLocal_faultCode (l : Local) : (s.dropLocal l).faultCode = s.faultCode := rfl
@[simp] theorem dropLocal_result (l : Local) : (s.dropLocal l).result = s.result := rfl
@[simp] theorem dropLocal_trace (l : Local) : (s.dropLocal l).trace = s.trace := rfl
@[simp] theorem dropLocal_mem (l : Local) : (s.dropLocal l).mem = s.mem := rfl
@[simp] theorem dropLocal_transport (l : Local) : (s.dropLocal l).transport = s.transport := rfl
@[simp] theorem dropLocal_env (l : Local) : (s.dropLocal l).env = s.env := rfl
@[simp] theorem dropLocal_chipIn (l : Local) : (s.dropLocal l).chipIn = s.chipIn := rfl
@[simp] theorem dropLocal_chipCount (l : Local) : (s.dropLocal l).chipCount = s.chipCount := rfl
@[simp] theorem dropLocal_clockIn (l : Local) : (s.dropLocal l).clockIn = s.clockIn := rfl
@[simp] theorem dropLocal_clockCount (l : Local) : (s.dropLocal l).clockCount = s.clockCount := rfl

/-! ### applyBus -/

@[simp] theorem applyBus_cfg : (s.applyBus).cfg = s.cfg := rfl
@[simp] theorem applyBus_par : (s.applyBus).par = s.par := rfl
@[simp] theorem applyBus_seqState : (s.applyBus).seqState = s.seqState := rfl
@[simp] theorem applyBus_current : (s.applyBus).current = s.current := rfl
@[simp] theorem applyBus_pc : (s.applyBus).pc = s.pc := rfl
@[simp] theorem applyBus_cs : (s.applyBus).cs = s.cs := rfl
@[simp] theorem applyBus_regs : (s.applyBus).regs = s.regs := rfl
@[simp] theorem applyBus_locals : (s.applyBus).locals = s.locals := rfl
@[simp] theorem applyBus_faultCode : (s.applyBus).faultCode = s.faultCode := rfl
@[simp] theorem applyBus_result : (s.applyBus).result = s.result := rfl
@[simp] theorem applyBus_trace : (s.applyBus).trace = s.trace ++ [.apply s.cfg.bus] := rfl
@[simp] theorem applyBus_mem : (s.applyBus).mem = s.mem := rfl
@[simp] theorem applyBus_transport : (s.applyBus).transport = some s.cfg.bus := rfl
@[simp] theorem applyBus_env : (s.applyBus).env = s.env := rfl
@[simp] theorem applyBus_chipIn : (s.applyBus).chipIn = s.chipIn := rfl
@[simp] theorem applyBus_chipCount : (s.applyBus).chipCount = s.chipCount := rfl
@[simp] theorem applyBus_clockIn : (s.applyBus).clockIn = s.clockIn := rfl
@[simp] theorem applyBus_clockCount : (s.applyBus).clockCount = s.clockCount := rfl

/-! ### lowerCs -/

@[simp] theorem lowerCs_cfg : (s.lowerCs).cfg = s.cfg := rfl
@[simp] theorem lowerCs_par : (s.lowerCs).par = s.par := rfl
@[simp] theorem lowerCs_seqState : (s.lowerCs).seqState = s.seqState := rfl
@[simp] theorem lowerCs_current : (s.lowerCs).current = s.current := rfl
@[simp] theorem lowerCs_pc : (s.lowerCs).pc = s.pc := rfl
@[simp] theorem lowerCs_cs : (s.lowerCs).cs = .low := rfl
@[simp] theorem lowerCs_regs : (s.lowerCs).regs = s.regs := rfl
@[simp] theorem lowerCs_locals : (s.lowerCs).locals = s.locals := rfl
@[simp] theorem lowerCs_faultCode : (s.lowerCs).faultCode = s.faultCode := rfl
@[simp] theorem lowerCs_result : (s.lowerCs).result = s.result := rfl
@[simp] theorem lowerCs_trace : (s.lowerCs).trace = s.trace ++ [.csLow] := rfl
@[simp] theorem lowerCs_mem : (s.lowerCs).mem = s.mem := rfl
@[simp] theorem lowerCs_transport : (s.lowerCs).transport = s.transport := rfl
@[simp] theorem lowerCs_env : (s.lowerCs).env = s.env := rfl
@[simp] theorem lowerCs_chipIn : (s.lowerCs).chipIn = s.chipIn := rfl
@[simp] theorem lowerCs_chipCount : (s.lowerCs).chipCount = s.chipCount := rfl
@[simp] theorem lowerCs_clockIn : (s.lowerCs).clockIn = s.clockIn := rfl
@[simp] theorem lowerCs_clockCount : (s.lowerCs).clockCount = s.clockCount := rfl

/-! ### raiseCs -/

@[simp] theorem raiseCs_cfg : (s.raiseCs).cfg = s.cfg := rfl
@[simp] theorem raiseCs_par : (s.raiseCs).par = s.par := rfl
@[simp] theorem raiseCs_seqState : (s.raiseCs).seqState = s.seqState := rfl
@[simp] theorem raiseCs_current : (s.raiseCs).current = s.current := rfl
@[simp] theorem raiseCs_pc : (s.raiseCs).pc = s.pc := rfl
@[simp] theorem raiseCs_cs : (s.raiseCs).cs = .high := rfl
@[simp] theorem raiseCs_regs : (s.raiseCs).regs = s.regs := rfl
@[simp] theorem raiseCs_locals : (s.raiseCs).locals = s.locals := rfl
@[simp] theorem raiseCs_faultCode : (s.raiseCs).faultCode = s.faultCode := rfl
@[simp] theorem raiseCs_result : (s.raiseCs).result = s.result := rfl
@[simp] theorem raiseCs_trace : (s.raiseCs).trace = s.trace ++ [.csHigh] := rfl
@[simp] theorem raiseCs_mem : (s.raiseCs).mem = s.mem := rfl
@[simp] theorem raiseCs_transport : (s.raiseCs).transport = s.transport := rfl
@[simp] theorem raiseCs_env : (s.raiseCs).env = s.env := rfl
@[simp] theorem raiseCs_chipIn : (s.raiseCs).chipIn = s.chipIn := rfl
@[simp] theorem raiseCs_chipCount : (s.raiseCs).chipCount = s.chipCount := rfl
@[simp] theorem raiseCs_clockIn : (s.raiseCs).clockIn = s.clockIn := rfl
@[simp] theorem raiseCs_clockCount : (s.raiseCs).clockCount = s.clockCount := rfl

/-! ### exchange -/

@[simp] theorem exchange_cfg (t : TxByte) : (s.exchange t).cfg = s.cfg := rfl
@[simp] theorem exchange_par (t : TxByte) : (s.exchange t).par = s.par := rfl
@[simp] theorem exchange_seqState (t : TxByte) : (s.exchange t).seqState = s.seqState := rfl
@[simp] theorem exchange_current (t : TxByte) : (s.exchange t).current = s.current := rfl
@[simp] theorem exchange_pc (t : TxByte) : (s.exchange t).pc = s.pc := rfl
@[simp] theorem exchange_cs (t : TxByte) : (s.exchange t).cs = s.cs := rfl
@[simp] theorem exchange_regs (t : TxByte) : (s.exchange t).regs = s.regs := rfl
@[simp] theorem exchange_locals (t : TxByte) : (s.exchange t).locals = s.locals := rfl
@[simp] theorem exchange_faultCode (t : TxByte) : (s.exchange t).faultCode = s.faultCode := rfl
@[simp] theorem exchange_result (t : TxByte) : (s.exchange t).result = s.result := rfl
@[simp] theorem exchange_trace (t : TxByte) : (s.exchange t).trace = s.trace ++ [.xfer t (s.chipDraw 0)] := rfl
@[simp] theorem exchange_mem (t : TxByte) : (s.exchange t).mem = s.mem := rfl
@[simp] theorem exchange_transport (t : TxByte) : (s.exchange t).transport = s.transport := rfl
@[simp] theorem exchange_env (t : TxByte) : (s.exchange t).env = s.env := rfl
@[simp] theorem exchange_chipIn (t : TxByte) : (s.exchange t).chipIn = s.chipIn.tail := rfl
@[simp] theorem exchange_chipCount (t : TxByte) : (s.exchange t).chipCount = s.chipCount + 1 := rfl
@[simp] theorem exchange_clockIn (t : TxByte) : (s.exchange t).clockIn = s.clockIn := rfl
@[simp] theorem exchange_clockCount (t : TxByte) : (s.exchange t).clockCount = s.clockCount := rfl

/-! ### readClock -/

@[simp] theorem readClock_cfg : (s.readClock).cfg = s.cfg := rfl
@[simp] theorem readClock_par : (s.readClock).par = s.par := rfl
@[simp] theorem readClock_seqState : (s.readClock).seqState = s.seqState := rfl
@[simp] theorem readClock_current : (s.readClock).current = s.current := rfl
@[simp] theorem readClock_pc : (s.readClock).pc = s.pc := rfl
@[simp] theorem readClock_cs : (s.readClock).cs = s.cs := rfl
@[simp] theorem readClock_regs : (s.readClock).regs = s.regs := rfl
@[simp] theorem readClock_locals : (s.readClock).locals = s.locals := rfl
@[simp] theorem readClock_faultCode : (s.readClock).faultCode = s.faultCode := rfl
@[simp] theorem readClock_result : (s.readClock).result = s.result := rfl
@[simp] theorem readClock_trace : (s.readClock).trace = s.trace ++ [.clock (s.clockDraw 0)] := rfl
@[simp] theorem readClock_mem : (s.readClock).mem = s.mem := rfl
@[simp] theorem readClock_transport : (s.readClock).transport = s.transport := rfl
@[simp] theorem readClock_env : (s.readClock).env = s.env := rfl
@[simp] theorem readClock_chipIn : (s.readClock).chipIn = s.chipIn := rfl
@[simp] theorem readClock_chipCount : (s.readClock).chipCount = s.chipCount := rfl
@[simp] theorem readClock_clockIn : (s.readClock).clockIn = s.clockIn.tail := rfl
@[simp] theorem readClock_clockCount : (s.readClock).clockCount = s.clockCount + 1 := rfl

/-! ### storeByte -/

@[simp] theorem storeByte_cfg (d : Nat) (b : Byte) : (s.storeByte d b).cfg = s.cfg := rfl
@[simp] theorem storeByte_par (d : Nat) (b : Byte) : (s.storeByte d b).par = s.par := rfl
@[simp] theorem storeByte_seqState (d : Nat) (b : Byte) : (s.storeByte d b).seqState = s.seqState := rfl
@[simp] theorem storeByte_current (d : Nat) (b : Byte) : (s.storeByte d b).current = s.current := rfl
@[simp] theorem storeByte_pc (d : Nat) (b : Byte) : (s.storeByte d b).pc = s.pc := rfl
@[simp] theorem storeByte_cs (d : Nat) (b : Byte) : (s.storeByte d b).cs = s.cs := rfl
@[simp] theorem storeByte_regs (d : Nat) (b : Byte) : (s.storeByte d b).regs = s.regs := rfl
@[simp] theorem storeByte_locals (d : Nat) (b : Byte) : (s.storeByte d b).locals = s.locals := rfl
@[simp] theorem storeByte_faultCode (d : Nat) (b : Byte) : (s.storeByte d b).faultCode = s.faultCode := rfl
@[simp] theorem storeByte_result (d : Nat) (b : Byte) : (s.storeByte d b).result = s.result := rfl
@[simp] theorem storeByte_trace (d : Nat) (b : Byte) : (s.storeByte d b).trace = s.trace ++ [.memWrite (BitVec.ofNat 32 d) b] := rfl
@[simp] theorem storeByte_mem (d : Nat) (b : Byte) : (s.storeByte d b).mem = s.mem.write d b := rfl
@[simp] theorem storeByte_transport (d : Nat) (b : Byte) : (s.storeByte d b).transport = s.transport := rfl
@[simp] theorem storeByte_env (d : Nat) (b : Byte) : (s.storeByte d b).env = s.env := rfl
@[simp] theorem storeByte_chipIn (d : Nat) (b : Byte) : (s.storeByte d b).chipIn = s.chipIn := rfl
@[simp] theorem storeByte_chipCount (d : Nat) (b : Byte) : (s.storeByte d b).chipCount = s.chipCount := rfl
@[simp] theorem storeByte_clockIn (d : Nat) (b : Byte) : (s.storeByte d b).clockIn = s.clockIn := rfl
@[simp] theorem storeByte_clockCount (d : Nat) (b : Byte) : (s.storeByte d b).clockCount = s.clockCount := rfl

/-! ### raiseFault -/

@[simp] theorem raiseFault_cfg (c : FaultCode) : (s.raiseFault c).cfg = s.cfg := rfl
@[simp] theorem raiseFault_par (c : FaultCode) : (s.raiseFault c).par = s.par := rfl
@[simp] theorem raiseFault_seqState (c : FaultCode) : (s.raiseFault c).seqState = .faulted := rfl
@[simp] theorem raiseFault_current (c : FaultCode) : (s.raiseFault c).current = s.current := rfl
@[simp] theorem raiseFault_pc (c : FaultCode) : (s.raiseFault c).pc = s.pc := rfl
@[simp] theorem raiseFault_cs (c : FaultCode) : (s.raiseFault c).cs = s.cs := rfl
@[simp] theorem raiseFault_regs (c : FaultCode) : (s.raiseFault c).regs = s.regs := rfl
@[simp] theorem raiseFault_locals (c : FaultCode) : (s.raiseFault c).locals = s.locals := rfl
@[simp] theorem raiseFault_faultCode (c : FaultCode) : (s.raiseFault c).faultCode = some c.code := rfl
@[simp] theorem raiseFault_result (c : FaultCode) : (s.raiseFault c).result = s.result := rfl
@[simp] theorem raiseFault_trace (c : FaultCode) : (s.raiseFault c).trace = s.trace ++ [.fault c.code] := rfl
@[simp] theorem raiseFault_mem (c : FaultCode) : (s.raiseFault c).mem = s.mem := rfl
@[simp] theorem raiseFault_transport (c : FaultCode) : (s.raiseFault c).transport = s.transport := rfl
@[simp] theorem raiseFault_env (c : FaultCode) : (s.raiseFault c).env = s.env := rfl
@[simp] theorem raiseFault_chipIn (c : FaultCode) : (s.raiseFault c).chipIn = s.chipIn := rfl
@[simp] theorem raiseFault_chipCount (c : FaultCode) : (s.raiseFault c).chipCount = s.chipCount := rfl
@[simp] theorem raiseFault_clockIn (c : FaultCode) : (s.raiseFault c).clockIn = s.clockIn := rfl
@[simp] theorem raiseFault_clockCount (c : FaultCode) : (s.raiseFault c).clockCount = s.clockCount := rfl

/-! ### respondWith -/

@[simp] theorem respondWith_cfg (v : Response) : (s.respondWith v).cfg = s.cfg := rfl
@[simp] theorem respondWith_par (v : Response) : (s.respondWith v).par = s.par := rfl
@[simp] theorem respondWith_seqState (v : Response) : (s.respondWith v).seqState = .idle := rfl
@[simp] theorem respondWith_current (v : Response) : (s.respondWith v).current = none := rfl
@[simp] theorem respondWith_pc (v : Response) : (s.respondWith v).pc = none := rfl
@[simp] theorem respondWith_cs (v : Response) : (s.respondWith v).cs = s.cs := rfl
@[simp] theorem respondWith_regs (v : Response) : (s.respondWith v).regs = s.regs := rfl
@[simp] theorem respondWith_locals (v : Response) : (s.respondWith v).locals = Locals.empty := rfl
@[simp] theorem respondWith_faultCode (v : Response) : (s.respondWith v).faultCode = s.faultCode := rfl
@[simp] theorem respondWith_result (v : Response) : (s.respondWith v).result = some v := rfl
@[simp] theorem respondWith_trace (v : Response) : (s.respondWith v).trace = s.trace ++ [.resp v] := rfl
@[simp] theorem respondWith_mem (v : Response) : (s.respondWith v).mem = s.mem := rfl
@[simp] theorem respondWith_transport (v : Response) : (s.respondWith v).transport = s.transport := rfl
@[simp] theorem respondWith_env (v : Response) : (s.respondWith v).env = s.env := rfl
@[simp] theorem respondWith_chipIn (v : Response) : (s.respondWith v).chipIn = s.chipIn := rfl
@[simp] theorem respondWith_chipCount (v : Response) : (s.respondWith v).chipCount = s.chipCount := rfl
@[simp] theorem respondWith_clockIn (v : Response) : (s.respondWith v).clockIn = s.clockIn := rfl
@[simp] theorem respondWith_clockCount (v : Response) : (s.respondWith v).clockCount = s.clockCount := rfl

/-! ### startRequest -/

@[simp] theorem startRequest_cfg (i : Instr) (ops : List Micro) : (s.startRequest i ops).cfg = s.cfg := rfl
@[simp] theorem startRequest_par (i : Instr) (ops : List Micro) : (s.startRequest i ops).par = s.par := rfl
@[simp] theorem startRequest_seqState (i : Instr) (ops : List Micro) : (s.startRequest i ops).seqState = .busy := rfl
@[simp] theorem startRequest_current (i : Instr) (ops : List Micro) : (s.startRequest i ops).current = some i := rfl
@[simp] theorem startRequest_pc (i : Instr) (ops : List Micro) : (s.startRequest i ops).pc = some ops := rfl
@[simp] theorem startRequest_cs (i : Instr) (ops : List Micro) : (s.startRequest i ops).cs = s.cs := rfl
@[simp] theorem startRequest_regs (i : Instr) (ops : List Micro) : (s.startRequest i ops).regs = s.regs.stale := rfl
@[simp] theorem startRequest_locals (i : Instr) (ops : List Micro) : (s.startRequest i ops).locals = Locals.empty := rfl
@[simp] theorem startRequest_faultCode (i : Instr) (ops : List Micro) : (s.startRequest i ops).faultCode = s.faultCode := rfl
@[simp] theorem startRequest_result (i : Instr) (ops : List Micro) : (s.startRequest i ops).result = s.result := rfl
@[simp] theorem startRequest_trace (i : Instr) (ops : List Micro) : (s.startRequest i ops).trace = s.trace := rfl
@[simp] theorem startRequest_mem (i : Instr) (ops : List Micro) : (s.startRequest i ops).mem = s.mem := rfl
@[simp] theorem startRequest_transport (i : Instr) (ops : List Micro) : (s.startRequest i ops).transport = s.transport := rfl
@[simp] theorem startRequest_env (i : Instr) (ops : List Micro) : (s.startRequest i ops).env = s.env := rfl
@[simp] theorem startRequest_chipIn (i : Instr) (ops : List Micro) : (s.startRequest i ops).chipIn = s.chipIn := rfl
@[simp] theorem startRequest_chipCount (i : Instr) (ops : List Micro) : (s.startRequest i ops).chipCount = s.chipCount := rfl
@[simp] theorem startRequest_clockIn (i : Instr) (ops : List Micro) : (s.startRequest i ops).clockIn = s.clockIn := rfl
@[simp] theorem startRequest_clockCount (i : Instr) (ops : List Micro) : (s.startRequest i ops).clockCount = s.clockCount := rfl

/-! ### delayUs -/

@[simp] theorem delayUs_cfg (n : Word) : (s.delayUs n).cfg = s.cfg := by unfold delayUs; split <;> rfl
@[simp] theorem delayUs_par (n : Word) : (s.delayUs n).par = s.par := by unfold delayUs; split <;> rfl
@[simp] theorem delayUs_seqState (n : Word) : (s.delayUs n).seqState = s.seqState := by unfold delayUs; split <;> rfl
@[simp] theorem delayUs_current (n : Word) : (s.delayUs n).current = s.current := by unfold delayUs; split <;> rfl
@[simp] theorem delayUs_pc (n : Word) : (s.delayUs n).pc = s.pc := by unfold delayUs; split <;> rfl
@[simp] theorem delayUs_cs (n : Word) : (s.delayUs n).cs = s.cs := by unfold delayUs; split <;> rfl
@[simp] theorem delayUs_regs (n : Word) : (s.delayUs n).regs = s.regs := by unfold delayUs; split <;> rfl
@[simp] theorem delayUs_locals (n : Word) : (s.delayUs n).locals = s.locals := by unfold delayUs; split <;> rfl
@[simp] theorem delayUs_faultCode (n : Word) : (s.delayUs n).faultCode = s.faultCode := by unfold delayUs; split <;> rfl
@[simp] theorem delayUs_result (n : Word) : (s.delayUs n).result = s.result := by unfold delayUs; split <;> rfl
theorem delayUs_trace (n : Word) : (s.delayUs n).trace = s.trace ++ (if n = 0 then [] else [.delayUs n]) := by
  unfold delayUs; split <;> simp
@[simp] theorem delayUs_mem (n : Word) : (s.delayUs n).mem = s.mem := by unfold delayUs; split <;> rfl
@[simp] theorem delayUs_transport (n : Word) : (s.delayUs n).transport = s.transport := by unfold delayUs; split <;> rfl
@[simp] theorem delayUs_env (n : Word) : (s.delayUs n).env = s.env := by unfold delayUs; split <;> rfl
@[simp] theorem delayUs_chipIn (n : Word) : (s.delayUs n).chipIn = s.chipIn := by unfold delayUs; split <;> rfl
@[simp] theorem delayUs_chipCount (n : Word) : (s.delayUs n).chipCount = s.chipCount := by unfold delayUs; split <;> rfl
@[simp] theorem delayUs_clockIn (n : Word) : (s.delayUs n).clockIn = s.clockIn := by unfold delayUs; split <;> rfl
@[simp] theorem delayUs_clockCount (n : Word) : (s.delayUs n).clockCount = s.clockCount := by unfold delayUs; split <;> rfl

/-! ### keepByte -/

@[simp] theorem keepByte_cfg (rx : RxDest) (b : Byte) : (s.keepByte rx b).cfg = s.cfg := by cases rx <;> rfl
@[simp] theorem keepByte_par (rx : RxDest) (b : Byte) : (s.keepByte rx b).par = s.par := by cases rx <;> rfl
@[simp] theorem keepByte_seqState (rx : RxDest) (b : Byte) : (s.keepByte rx b).seqState = s.seqState := by cases rx <;> rfl
@[simp] theorem keepByte_current (rx : RxDest) (b : Byte) : (s.keepByte rx b).current = s.current := by cases rx <;> rfl
@[simp] theorem keepByte_pc (rx : RxDest) (b : Byte) : (s.keepByte rx b).pc = s.pc := by cases rx <;> rfl
@[simp] theorem keepByte_cs (rx : RxDest) (b : Byte) : (s.keepByte rx b).cs = s.cs := by cases rx <;> rfl
theorem keepByte_regs (rx : RxDest) (b : Byte) :
    (s.keepByte rx b).regs = (match rx with | .status => s.regs.put .s (b.setWidth 32) | _ => s.regs) := by cases rx <;> rfl
theorem keepByte_locals (rx : RxDest) (b : Byte) :
    (s.keepByte rx b).locals = (match rx with | .keep l => s.locals.put l b | _ => s.locals) := by cases rx <;> rfl
@[simp] theorem keepByte_faultCode (rx : RxDest) (b : Byte) : (s.keepByte rx b).faultCode = s.faultCode := by cases rx <;> rfl
@[simp] theorem keepByte_result (rx : RxDest) (b : Byte) : (s.keepByte rx b).result = s.result := by cases rx <;> rfl
@[simp] theorem keepByte_trace (rx : RxDest) (b : Byte) : (s.keepByte rx b).trace = s.trace := by cases rx <;> rfl
@[simp] theorem keepByte_mem (rx : RxDest) (b : Byte) : (s.keepByte rx b).mem = s.mem := by cases rx <;> rfl
@[simp] theorem keepByte_transport (rx : RxDest) (b : Byte) : (s.keepByte rx b).transport = s.transport := by cases rx <;> rfl
@[simp] theorem keepByte_env (rx : RxDest) (b : Byte) : (s.keepByte rx b).env = s.env := by cases rx <;> rfl
@[simp] theorem keepByte_chipIn (rx : RxDest) (b : Byte) : (s.keepByte rx b).chipIn = s.chipIn := by cases rx <;> rfl
@[simp] theorem keepByte_chipCount (rx : RxDest) (b : Byte) : (s.keepByte rx b).chipCount = s.chipCount := by cases rx <;> rfl
@[simp] theorem keepByte_clockIn (rx : RxDest) (b : Byte) : (s.keepByte rx b).clockIn = s.clockIn := by cases rx <;> rfl
@[simp] theorem keepByte_clockCount (rx : RxDest) (b : Byte) : (s.keepByte rx b).clockCount = s.clockCount := by cases rx <;> rfl

/-! ### xferTo -/

@[simp] theorem xferTo_cfg (t : TxByte) (rx : RxDest) : (s.xferTo t rx).cfg = s.cfg := by
  simp [xferTo]
@[simp] theorem xferTo_par (t : TxByte) (rx : RxDest) : (s.xferTo t rx).par = s.par := by
  simp [xferTo]
@[simp] theorem xferTo_seqState (t : TxByte) (rx : RxDest) : (s.xferTo t rx).seqState = s.seqState := by
  simp [xferTo]
@[simp] theorem xferTo_current (t : TxByte) (rx : RxDest) : (s.xferTo t rx).current = s.current := by
  simp [xferTo]
@[simp] theorem xferTo_pc (t : TxByte) (rx : RxDest) : (s.xferTo t rx).pc = s.pc := by
  simp [xferTo]
@[simp] theorem xferTo_cs (t : TxByte) (rx : RxDest) : (s.xferTo t rx).cs = s.cs := by
  simp [xferTo]
@[simp] theorem xferTo_faultCode (t : TxByte) (rx : RxDest) : (s.xferTo t rx).faultCode = s.faultCode := by
  simp [xferTo]
@[simp] theorem xferTo_result (t : TxByte) (rx : RxDest) : (s.xferTo t rx).result = s.result := by
  simp [xferTo]
@[simp] theorem xferTo_trace (t : TxByte) (rx : RxDest) : (s.xferTo t rx).trace = s.trace ++ [.xfer t (s.chipDraw 0)] := by
  simp [xferTo]
@[simp] theorem xferTo_mem (t : TxByte) (rx : RxDest) : (s.xferTo t rx).mem = s.mem := by
  simp [xferTo]
@[simp] theorem xferTo_transport (t : TxByte) (rx : RxDest) : (s.xferTo t rx).transport = s.transport := by
  simp [xferTo]
@[simp] theorem xferTo_env (t : TxByte) (rx : RxDest) : (s.xferTo t rx).env = s.env := by
  simp [xferTo]
@[simp] theorem xferTo_chipIn (t : TxByte) (rx : RxDest) : (s.xferTo t rx).chipIn = s.chipIn.tail := by
  simp [xferTo]
@[simp] theorem xferTo_chipCount (t : TxByte) (rx : RxDest) : (s.xferTo t rx).chipCount = s.chipCount + 1 := by
  simp [xferTo]
@[simp] theorem xferTo_clockIn (t : TxByte) (rx : RxDest) : (s.xferTo t rx).clockIn = s.clockIn := by
  simp [xferTo]
@[simp] theorem xferTo_clockCount (t : TxByte) (rx : RxDest) : (s.xferTo t rx).clockCount = s.clockCount := by
  simp [xferTo]

/-! ### The oracles' draws -/

@[simp] theorem exchange_chipDraw (t : TxByte) (k : Nat) : (s.exchange t).chipDraw k = s.chipDraw (k + 1) := by
  simp only [chipDraw, exchange_chipIn, exchange_chipCount, List.getElem?_tail, Nat.add_assoc, Nat.add_comm 1 k]

@[simp] theorem readClock_clockDraw (k : Nat) : s.readClock.clockDraw k = s.clockDraw (k + 1) := by
  simp only [clockDraw, readClock_clockIn, readClock_clockCount, List.getElem?_tail, Nat.add_assoc, Nat.add_comm 1 k]

/-- The Chip oracle's draws depend on its script and count alone. -/
theorem chipDraw_congr (t : State) (h : t.chipIn = s.chipIn) (h' : t.chipCount = s.chipCount) (k : Nat) :
    t.chipDraw k = s.chipDraw k := by
  simp only [chipDraw, h, h']

/-- The Clock oracle's draws depend on its script and count alone. -/
theorem clockDraw_congr (t : State) (h : t.clockIn = s.clockIn) (h' : t.clockCount = s.clockCount) (k : Nat) :
    t.clockDraw k = s.clockDraw k := by
  simp only [clockDraw, h, h']

@[simp] theorem dropLocal_chipDraw (l : Local) (k : Nat) : (s.dropLocal l).chipDraw k = s.chipDraw k :=
  chipDraw_congr s _ (by simp) (by simp) k
@[simp] theorem setPc_chipDraw (ops : List Micro) (k : Nat) : (s.setPc ops).chipDraw k = s.chipDraw k :=
  chipDraw_congr s _ (by simp) (by simp) k
@[simp] theorem dropLocal_clockDraw (l : Local) (k : Nat) : (s.dropLocal l).clockDraw k = s.clockDraw k :=
  clockDraw_congr s _ (by simp) (by simp) k
@[simp] theorem setPc_clockDraw (ops : List Micro) (k : Nat) : (s.setPc ops).clockDraw k = s.clockDraw k :=
  clockDraw_congr s _ (by simp) (by simp) k
@[simp] theorem pushOps_chipDraw (ops : List Micro) (k : Nat) : (s.pushOps ops).chipDraw k = s.chipDraw k :=
  chipDraw_congr s _ (by simp) (by simp) k
@[simp] theorem pushOps_clockDraw (ops : List Micro) (k : Nat) : (s.pushOps ops).clockDraw k = s.clockDraw k :=
  clockDraw_congr s _ (by simp) (by simp) k
@[simp] theorem record_chipDraw (e : Event) (k : Nat) : (s.record e).chipDraw k = s.chipDraw k :=
  chipDraw_congr s _ (by simp) (by simp) k
@[simp] theorem record_clockDraw (e : Event) (k : Nat) : (s.record e).clockDraw k = s.clockDraw k :=
  clockDraw_congr s _ (by simp) (by simp) k
@[simp] theorem writeReg_chipDraw (r : Reg) (v : Word) (k : Nat) : (s.writeReg r v).chipDraw k = s.chipDraw k :=
  chipDraw_congr s _ (by simp) (by simp) k
@[simp] theorem writeReg_clockDraw (r : Reg) (v : Word) (k : Nat) : (s.writeReg r v).clockDraw k = s.clockDraw k :=
  clockDraw_congr s _ (by simp) (by simp) k
@[simp] theorem writeLocal_chipDraw (l : Local) (b : Byte) (k : Nat) : (s.writeLocal l b).chipDraw k = s.chipDraw k :=
  chipDraw_congr s _ (by simp) (by simp) k
@[simp] theorem writeLocal_clockDraw (l : Local) (b : Byte) (k : Nat) : (s.writeLocal l b).clockDraw k = s.clockDraw k :=
  clockDraw_congr s _ (by simp) (by simp) k
@[simp] theorem applyBus_chipDraw (k : Nat) : (s.applyBus).chipDraw k = s.chipDraw k :=
  chipDraw_congr s _ (by simp) (by simp) k
@[simp] theorem applyBus_clockDraw (k : Nat) : (s.applyBus).clockDraw k = s.clockDraw k :=
  clockDraw_congr s _ (by simp) (by simp) k
@[simp] theorem lowerCs_chipDraw (k : Nat) : (s.lowerCs).chipDraw k = s.chipDraw k :=
  chipDraw_congr s _ (by simp) (by simp) k
@[simp] theorem lowerCs_clockDraw (k : Nat) : (s.lowerCs).clockDraw k = s.clockDraw k :=
  clockDraw_congr s _ (by simp) (by simp) k
@[simp] theorem raiseCs_chipDraw (k : Nat) : (s.raiseCs).chipDraw k = s.chipDraw k :=
  chipDraw_congr s _ (by simp) (by simp) k
@[simp] theorem raiseCs_clockDraw (k : Nat) : (s.raiseCs).clockDraw k = s.clockDraw k :=
  clockDraw_congr s _ (by simp) (by simp) k
@[simp] theorem exchange_clockDraw (t : TxByte) (k : Nat) : (s.exchange t).clockDraw k = s.clockDraw k :=
  clockDraw_congr s _ (by simp) (by simp) k
@[simp] theorem readClock_chipDraw (k : Nat) : (s.readClock).chipDraw k = s.chipDraw k :=
  chipDraw_congr s _ (by simp) (by simp) k
@[simp] theorem storeByte_chipDraw (d : Nat) (b : Byte) (k : Nat) : (s.storeByte d b).chipDraw k = s.chipDraw k :=
  chipDraw_congr s _ (by simp) (by simp) k
@[simp] theorem storeByte_clockDraw (d : Nat) (b : Byte) (k : Nat) : (s.storeByte d b).clockDraw k = s.clockDraw k :=
  clockDraw_congr s _ (by simp) (by simp) k
@[simp] theorem raiseFault_chipDraw (c : FaultCode) (k : Nat) : (s.raiseFault c).chipDraw k = s.chipDraw k :=
  chipDraw_congr s _ (by simp) (by simp) k
@[simp] theorem raiseFault_clockDraw (c : FaultCode) (k : Nat) : (s.raiseFault c).clockDraw k = s.clockDraw k :=
  clockDraw_congr s _ (by simp) (by simp) k
@[simp] theorem respondWith_chipDraw (v : Response) (k : Nat) : (s.respondWith v).chipDraw k = s.chipDraw k :=
  chipDraw_congr s _ (by simp) (by simp) k
@[simp] theorem respondWith_clockDraw (v : Response) (k : Nat) : (s.respondWith v).clockDraw k = s.clockDraw k :=
  clockDraw_congr s _ (by simp) (by simp) k
@[simp] theorem startRequest_chipDraw (i : Instr) (ops : List Micro) (k : Nat) : (s.startRequest i ops).chipDraw k = s.chipDraw k :=
  chipDraw_congr s _ (by simp) (by simp) k
@[simp] theorem startRequest_clockDraw (i : Instr) (ops : List Micro) (k : Nat) : (s.startRequest i ops).clockDraw k = s.clockDraw k :=
  clockDraw_congr s _ (by simp) (by simp) k
@[simp] theorem delayUs_chipDraw (n : Word) (k : Nat) : (s.delayUs n).chipDraw k = s.chipDraw k :=
  chipDraw_congr s _ (by simp) (by simp) k
@[simp] theorem delayUs_clockDraw (n : Word) (k : Nat) : (s.delayUs n).clockDraw k = s.clockDraw k :=
  clockDraw_congr s _ (by simp) (by simp) k
@[simp] theorem keepByte_chipDraw (rx : RxDest) (b : Byte) (k : Nat) : (s.keepByte rx b).chipDraw k = s.chipDraw k :=
  chipDraw_congr s _ (by simp) (by simp) k
@[simp] theorem keepByte_clockDraw (rx : RxDest) (b : Byte) (k : Nat) : (s.keepByte rx b).clockDraw k = s.clockDraw k :=
  clockDraw_congr s _ (by simp) (by simp) k
@[simp] theorem xferTo_chipDraw (t : TxByte) (rx : RxDest) (k : Nat) :
    (s.xferTo t rx).chipDraw k = s.chipDraw (k + 1) := by
  simp [xferTo]
@[simp] theorem xferTo_clockDraw (t : TxByte) (rx : RxDest) (k : Nat) :
    (s.xferTo t rx).clockDraw k = s.clockDraw k := by
  simp [xferTo]

end Sys2Proof.Machine.State
end

