-- ==== Sys2Proof/Laws/Registers.lean ====
section
/-! SUPPORT. Working registers and local temporaries: reading back what was written, and what stays. -/

namespace Sys2Proof.Machine

namespace RegFile

@[simp] theorem get_put_same (f : RegFile) (r : Reg) (v : Word) :
    (f.put r v).get r = { value := some v, fresh := true } := by cases r <;> rfl

theorem get_put_other (f : RegFile) {r q : Reg} (v : Word) (h : q ≠ r) : (f.put r v).get q = f.get q := by
  cases r <;> cases q <;> first | rfl | exact absurd rfl h

theorem get_put (f : RegFile) (r q : Reg) (v : Word) :
    (f.put r v).get q = if q = r then { value := some v, fresh := true } else f.get q := by
  by_cases h : q = r
  · subst h; simp
  · rw [get_put_other f v h, if_neg h]

@[simp] theorem get_stale (f : RegFile) (r : Reg) : f.stale.get r = (f.get r).stale := by cases r <;> rfl

end RegFile

@[simp] theorem RegCell.stale_value (c : RegCell) : c.stale.value = c.value := rfl
@[simp] theorem RegCell.stale_fresh (c : RegCell) : c.stale.fresh = false := rfl

namespace Locals

@[simp] theorem get_put_same (x : Locals) (l : Local) (b : Byte) : (x.put l b).get l = some b := by cases l <;> rfl

theorem get_put_other (x : Locals) {l q : Local} (b : Byte) (h : q ≠ l) : (x.put l b).get q = x.get q := by
  cases l <;> cases q <;> first | rfl | exact absurd rfl h

theorem get_put (x : Locals) (l q : Local) (b : Byte) : (x.put l b).get q = if q = l then some b else x.get q := by
  by_cases h : q = l
  · subst h; simp
  · rw [get_put_other x b h, if_neg h]

theorem get_drop (x : Locals) (l q : Local) : (x.drop l).get q = if q = l then none else x.get q := by
  cases l <;> cases q <;> rfl

@[simp] theorem get_empty (l : Local) : Locals.empty.get l = none := by cases l <;> rfl

end Locals

namespace State

/-- A register holds `v`, written by the current request. -/
def holds (s : State) (r : Reg) (v : Word) : Prop := s.regs.get r = { value := some v, fresh := true }

theorem holds.readReg {s : State} {r : Reg} {v : Word} (h : s.holds r v) : s.readReg r = .ok v := by
  unfold State.readReg
  rw [h]

theorem holds_congr {s t : State} {r : Reg} {v : Word} (h : t.regs = s.regs) : t.holds r v ↔ s.holds r v := by
  unfold holds
  rw [h]

theorem holds_writeReg_same (s : State) (r : Reg) (v : Word) : (s.writeReg r v).holds r v := by
  simp [holds]

theorem holds_writeReg_other {s : State} {r q : Reg} {v w : Word} (h : s.holds q w) (hne : q ≠ r) :
    (s.writeReg r v).holds q w := by
  unfold holds at *
  rw [writeReg_regs, RegFile.get_put_other _ _ hne, h]

/-- A read gives a value exactly when the current request wrote the register (R25). -/
theorem readReg_of_live {s : State} {r : Reg} (h : live s (.reg r) = true) : ∃ v, s.holds r v ∧ s.readReg r = .ok v := by
  simp only [live, Bool.and_eq_true, Option.isSome_iff_exists] at h
  obtain ⟨hf, v, hv⟩ := h
  have hh : s.holds r v := by
    unfold holds
    cases hc : s.regs.get r with
    | mk val fr => simp_all
  exact ⟨v, hh, hh.readReg⟩

theorem readLocal_of_live {s : State} {l : Local} (h : live s (.loc l) = true) :
    ∃ b, s.locals.get l = some b ∧ s.readLocal l = .ok b := by
  simp only [live, Option.isSome_iff_exists] at h
  obtain ⟨b, hb⟩ := h
  exact ⟨b, hb, by unfold State.readLocal; rw [hb]⟩

theorem readLocal_writeLocal_same (s : State) (l : Local) (b : Byte) : (s.writeLocal l b).readLocal l = .ok b := by
  unfold State.readLocal
  simp

end State

end Sys2Proof.Machine
end

