-- ==== Sys2Proof/Laws/Run.lean ====
section
/-! SUPPORT. Runs of the sequencer composed step by step. A state is written `s.setPc ops`: `pc` stands at `ops`, everything
else as in `s`; the updates of the operations leave `pc` where it is. -/

namespace Sys2Proof.Machine

/-! ### `setPc` and the other updates -/

namespace State

@[simp] theorem setPc_setPc (s : State) (a b : List Micro) : (s.setPc a).setPc b = s.setPc b := rfl
@[simp] theorem pushOps_setPc (s : State) (a b : List Micro) : (s.setPc a).pushOps b = s.setPc (b ++ a) := rfl
@[simp] theorem exchange_setPc (s : State) (a : List Micro) (t : TxByte) :
    (s.setPc a).exchange t = (s.exchange t).setPc a := rfl
@[simp] theorem record_setPc (s : State) (a : List Micro) (e : Event) :
    (s.setPc a).record e = (s.record e).setPc a := rfl
@[simp] theorem writeReg_setPc (s : State) (a : List Micro) (r : Reg) (v : Word) :
    (s.setPc a).writeReg r v = (s.writeReg r v).setPc a := rfl
@[simp] theorem writeLocal_setPc (s : State) (a : List Micro) (l : Local) (b : Byte) :
    (s.setPc a).writeLocal l b = (s.writeLocal l b).setPc a := rfl
@[simp] theorem dropLocal_setPc (s : State) (a : List Micro) (l : Local) :
    (s.setPc a).dropLocal l = (s.dropLocal l).setPc a := rfl
@[simp] theorem applyBus_setPc (s : State) (a : List Micro) : (s.setPc a).applyBus = s.applyBus.setPc a := rfl
@[simp] theorem lowerCs_setPc (s : State) (a : List Micro) : (s.setPc a).lowerCs = s.lowerCs.setPc a := rfl
@[simp] theorem raiseCs_setPc (s : State) (a : List Micro) : (s.setPc a).raiseCs = s.raiseCs.setPc a := rfl
@[simp] theorem readClock_setPc (s : State) (a : List Micro) : (s.setPc a).readClock = s.readClock.setPc a := rfl
@[simp] theorem storeByte_setPc (s : State) (a : List Micro) (d : Nat) (b : Byte) :
    (s.setPc a).storeByte d b = (s.storeByte d b).setPc a := rfl
@[simp] theorem respondWith_setPc (s : State) (a : List Micro) (v : Response) :
    (s.setPc a).respondWith v = s.respondWith v := rfl
@[simp] theorem delayUs_setPc (s : State) (a : List Micro) (n : Word) :
    (s.setPc a).delayUs n = (s.delayUs n).setPc a := by
  unfold delayUs; split <;> rfl
@[simp] theorem keepByte_setPc (s : State) (a : List Micro) (rx : RxDest) (b : Byte) :
    (s.setPc a).keepByte rx b = (s.keepByte rx b).setPc a := by
  cases rx <;> rfl
@[simp] theorem xferTo_setPc (s : State) (a : List Micro) (t : TxByte) (rx : RxDest) :
    (s.setPc a).xferTo t rx = (s.xferTo t rx).setPc a := by
  simp [xferTo]
@[simp] theorem readReg_setPc (s : State) (a : List Micro) (r : Reg) : (s.setPc a).readReg r = s.readReg r := rfl
@[simp] theorem readLocal_setPc (s : State) (a : List Micro) (l : Local) :
    (s.setPc a).readLocal l = s.readLocal l := rfl

/-- A running request's state is `s.setPc` of its own `pc`. -/
theorem setPc_of_pc {s : State} {ops : List Micro} (h : s.pc = some ops) : s.setPc ops = s := by
  cases s
  simp_all [setPc]

end State

/-! ### Composition -/

theorem seqRun_add (j k : Nat) {s t : State} (h : seqRun j s = .next t) : seqRun (j + k) s = seqRun k t := by
  induction j generalizing s with
  | zero =>
    simp only [seqRun, Host.Outcome.next.injEq] at h
    subst h
    simp
  | succ j ih =>
    rw [Nat.add_right_comm]
    simp only [seqRun] at h ⊢
    cases hs : seqStep s with
    | next u => rw [hs] at h; exact ih h
    | fault f => rw [hs] at h; cases h
    | refused r => rw [hs] at h; cases h

namespace Reaches

theorem refl (s : State) : Reaches s s := ⟨0, rfl⟩

theorem trans {s t u : State} (h : Reaches s t) (h' : Reaches t u) : Reaches s u := by
  obtain ⟨j, hj⟩ := h
  obtain ⟨k, hk⟩ := h'
  exact ⟨j + k, by rw [seqRun_add j k hj, hk]⟩

/-- One step, then the rest. -/
theorem head {s t u : State} (h : seqStep s = .next t) (h' : Reaches t u) : Reaches s u := by
  obtain ⟨k, hk⟩ := h'
  refine ⟨k + 1, ?_⟩
  simp only [seqRun, h, hk]

theorem single {s t : State} (h : seqStep s = .next t) : Reaches s t := head h (refl t)

end Reaches

/-! ### One step at `pc` -/

theorem seqStep_prim {s : State} (hb : s.seqState = .busy) (p : Prim) (rest : List Micro) :
    seqStep (s.setPc (.prim p :: rest)) = execPrim p (s.setPc rest) := by
  simp [seqStep, hb]

theorem seqStep_frame {s : State} (hb : s.seqState = .busy) (c : FrameCall) (rest : List Micro) :
    seqStep (s.setPc (.frame c :: rest)) =
      withValue (frameAt c (s.setPc rest)) fun f => exec f (s.setPc rest) := by
  simp [seqStep, hb]

/-- A primitive that always answers a next state. -/
theorem Reaches.prim {s t u : State} {p : Prim} {rest : List Micro} (hb : s.seqState = .busy)
    (h : execPrim p (s.setPc rest) = .next t) (h' : Reaches t u) : Reaches (s.setPc (.prim p :: rest)) u :=
  head (by rw [seqStep_prim hb, h]) h'

/-- `step` of a state whose environment waits is the sequencer's own step. -/
theorem step_eq_seqStep {s : State} (hb : s.seqState = .busy) (hq : quiet s = true) : step s = seqStep s := by
  unfold step wholeStep
  rw [hb]
  unfold quiet at hq
  unfold agentStep
  split at hq <;> simp_all

end Sys2Proof.Machine
end

