-- ==== Sys2Proof/Laws/Frames.lean ====
section
/-! SUPPORT. A frame, run to its end: the transaction is opened, its bytes exchanged, the transaction closed, and `pc` stands
at what was next. -/

namespace Sys2Proof.Machine

namespace Code

/-! ### What the pieces of a frame leave alone -/

section beginTx
variable (s : State)

@[simp] theorem beginTx_cfg : (beginTx s).cfg = s.cfg := by unfold beginTx; split <;> simp
@[simp] theorem beginTx_par : (beginTx s).par = s.par := by unfold beginTx; split <;> simp
@[simp] theorem beginTx_seqState : (beginTx s).seqState = s.seqState := by unfold beginTx; split <;> simp
@[simp] theorem beginTx_current : (beginTx s).current = s.current := by unfold beginTx; split <;> simp
@[simp] theorem beginTx_cs : (beginTx s).cs = .low := by unfold beginTx; split <;> simp
@[simp] theorem beginTx_regs : (beginTx s).regs = s.regs := by unfold beginTx; split <;> simp
@[simp] theorem beginTx_locals : (beginTx s).locals = s.locals := by unfold beginTx; split <;> simp
@[simp] theorem beginTx_faultCode : (beginTx s).faultCode = s.faultCode := by unfold beginTx; split <;> simp
@[simp] theorem beginTx_result : (beginTx s).result = s.result := by unfold beginTx; split <;> simp
@[simp] theorem beginTx_mem : (beginTx s).mem = s.mem := by unfold beginTx; split <;> simp
@[simp] theorem beginTx_env : (beginTx s).env = s.env := by unfold beginTx; split <;> simp
@[simp] theorem beginTx_chipDraw (k : Nat) : (beginTx s).chipDraw k = s.chipDraw k := by
  unfold beginTx; split <;> simp
@[simp] theorem beginTx_clockDraw (k : Nat) : (beginTx s).clockDraw k = s.clockDraw k := by
  unfold beginTx; split <;> simp
theorem beginTx_trace : (beginTx s).trace = s.trace ++ (openingEvents s.cfg ++ [.csLow]) := by
  unfold beginTx openingEvents delayEvents
  split
  · simp only [State.lowerCs_trace, State.delayUs_trace, State.applyBus_trace]
    split <;> simp
  · simp
@[simp] theorem beginTx_setPc (a : List Micro) : beginTx (s.setPc a) = (beginTx s).setPc a := by
  unfold beginTx
  cases h : s.cfg.shared <;> simp [h]

end beginTx

section endTx
variable (s : State)

@[simp] theorem endTx_cs : (endTx s).cs = .high := rfl
@[simp] theorem endTx_eq : endTx s = s.raiseCs := rfl

end endTx

/-- The fields an exchange of bytes that are not kept leaves alone. -/
theorem xferOut_rest (bs : List Byte) (s : State) :
    (xferOut bs s).cfg = s.cfg ∧ (xferOut bs s).par = s.par ∧ (xferOut bs s).seqState = s.seqState
      ∧ (xferOut bs s).current = s.current ∧ (xferOut bs s).cs = s.cs ∧ (xferOut bs s).regs = s.regs
      ∧ (xferOut bs s).locals = s.locals ∧ (xferOut bs s).mem = s.mem ∧ (xferOut bs s).pc = s.pc
      ∧ (xferOut bs s).transport = s.transport := by
  induction bs generalizing s with
  | nil => simp [xferOut]
  | cons b bs ih => simpa [xferOut] using ih (s.exchange (.byte b))

@[simp] theorem xferOut_nil (s : State) : xferOut [] s = s := rfl
@[simp] theorem xferOut_cons (b : Byte) (bs : List Byte) (s : State) :
    xferOut (b :: bs) s = xferOut bs (s.exchange (.byte b)) := rfl
@[simp] theorem xferOut_cfg (bs : List Byte) (s : State) : (xferOut bs s).cfg = s.cfg := (xferOut_rest bs s).1
@[simp] theorem xferOut_par (bs : List Byte) (s : State) : (xferOut bs s).par = s.par := (xferOut_rest bs s).2.1
@[simp] theorem xferOut_seqState (bs : List Byte) (s : State) : (xferOut bs s).seqState = s.seqState :=
  (xferOut_rest bs s).2.2.1
@[simp] theorem xferOut_current (bs : List Byte) (s : State) : (xferOut bs s).current = s.current :=
  (xferOut_rest bs s).2.2.2.1
@[simp] theorem xferOut_cs (bs : List Byte) (s : State) : (xferOut bs s).cs = s.cs := (xferOut_rest bs s).2.2.2.2.1
@[simp] theorem xferOut_regs (bs : List Byte) (s : State) : (xferOut bs s).regs = s.regs :=
  (xferOut_rest bs s).2.2.2.2.2.1
@[simp] theorem xferOut_mem (bs : List Byte) (s : State) : (xferOut bs s).mem = s.mem :=
  (xferOut_rest bs s).2.2.2.2.2.2.2.1

@[simp] theorem xferOut_chipDraw (bs : List Byte) (s : State) (k : Nat) :
    (xferOut bs s).chipDraw k = s.chipDraw (bs.length + k) := by
  induction bs generalizing s k with
  | nil => simp
  | cons b bs ih => simp [ih]; congr 1; omega

@[simp] theorem xferOut_clockDraw (bs : List Byte) (s : State) (k : Nat) :
    (xferOut bs s).clockDraw k = s.clockDraw k := by
  induction bs generalizing s with
  | nil => simp
  | cons b bs ih => simp [ih]

theorem xferOut_trace (bs : List Byte) (s : State) :
    (xferOut bs s).trace = s.trace ++ bs.mapIdx fun j b => .xfer (.byte b) (s.chipDraw j) := by
  induction bs generalizing s with
  | nil => simp
  | cons b bs ih => simp [ih, List.mapIdx_cons]

/-- The data bytes received into the host buffer change registers, chip-select and configuration not at all. -/
theorem readBytes_rest (n d : Nat) (s : State) :
    (readBytes n d s).cfg = s.cfg ∧ (readBytes n d s).par = s.par ∧ (readBytes n d s).seqState = s.seqState
      ∧ (readBytes n d s).current = s.current ∧ (readBytes n d s).cs = s.cs ∧ (readBytes n d s).regs = s.regs
      ∧ (readBytes n d s).pc = s.pc := by
  induction n generalizing d s with
  | zero => simp [readBytes]
  | succ n ih =>
    have h := ih (d + 1) ((s.xferTo .dc (.keep .r)).storeByte d (s.chipDraw 0))
    simpa [readBytes, State.xferTo, State.keepByte] using h

/-- The data bytes sent from the host buffer change memory, registers, chip-select and configuration not at all. -/
theorem programBytes_rest (n d : Nat) (s : State) :
    (programBytes n d s).cfg = s.cfg ∧ (programBytes n d s).par = s.par ∧ (programBytes n d s).seqState = s.seqState
      ∧ (programBytes n d s).current = s.current ∧ (programBytes n d s).cs = s.cs
      ∧ (programBytes n d s).regs = s.regs ∧ (programBytes n d s).mem = s.mem ∧ (programBytes n d s).pc = s.pc := by
  induction n generalizing d s with
  | zero => simp [programBytes]
  | succ n ih => simpa [programBytes] using ih (d + 1) (s.exchange (.byte (s.mem.read d)))

end Code

open Code

/-! ### The sequencer runs a frame -/

section
variable {s : State} (rest : List Micro)

theorem reaches_xferOut (bs : List Byte) (hb : s.seqState = .busy) (hc : s.cs = .low) :
    Reaches (s.setPc ((bs.map fun b => .prim (.xfer (.byte b) .discard)) ++ rest)) ((xferOut bs s).setPc rest) := by
  induction bs generalizing s with
  | nil => exact Reaches.refl _
  | cons b bs ih =>
    refine Reaches.prim hb (t := (s.exchange (.byte b)).setPc _) ?_ (ih (by simpa) (by simpa))
    simp [execPrim, doXfer, hc, State.xferTo, State.keepByte]

theorem reaches_xferIn (rx : List RxDest) (hb : s.seqState = .busy) (hc : s.cs = .low) :
    Reaches (s.setPc ((rx.map fun d => .prim (.xfer .dc d)) ++ rest)) ((xferIn rx s).setPc rest) := by
  induction rx generalizing s with
  | nil => exact Reaches.refl _
  | cons d rx ih =>
    refine Reaches.prim hb (t := (s.xferTo .dc d).setPc _) ?_ (ih (by simpa) (by simpa))
    simp [execPrim, doXfer, hc]

theorem xferIn_seqState (rx : List RxDest) : (xferIn rx s).seqState = s.seqState := by
  induction rx generalizing s with
  | nil => rfl
  | cons d rx ih => simpa [xferIn] using ih (s := s.xferTo .dc d)

theorem reaches_readBytes (n d : Nat) (hb : s.seqState = .busy) (hc : s.cs = .low) (hd : d + n ≤ 2 ^ 32) :
    Reaches (s.setPc (.prim (.dataIn d n) :: rest)) ((readBytes n d s).setPc rest) := by
  induction n generalizing d s with
  | zero => exact Reaches.prim hb rfl (Reaches.refl _)
  | succ n ih =>
    refine Reaches.prim hb (t := (s.xferTo .dc (.keep .r)).setPc (.prim (.storeIn d n) :: rest)) ?_ ?_
    · simp [execPrim, doDataIn, doXfer, hc]
    · refine Reaches.prim (by simpa)
        (t := ((s.xferTo .dc (.keep .r)).storeByte d (s.chipDraw 0)).setPc (.prim (.dataIn (d + 1) n) :: rest)) ?_
        (ih (d + 1) (by simpa) (by simpa) (by omega))
      have hl : (s.xferTo .dc (.keep .r)).readLocal .r = .ok (s.chipDraw 0) := by
        simp [State.xferTo, State.keepByte, State.readLocal_writeLocal_same]
      have hlt : d < 2 ^ 32 := by omega
      simp [-Nat.reducePow, execPrim, doStoreIn, hl, withValue, hlt]

theorem reaches_programBytes (n d : Nat) (hb : s.seqState = .busy) (hc : s.cs = .low) (hd : d + n ≤ 2 ^ 32) :
    Reaches (s.setPc (.prim (.dataOut d n) :: rest)) ((programBytes n d s).setPc rest) := by
  induction n generalizing d s with
  | zero => exact Reaches.prim hb rfl (Reaches.refl _)
  | succ n ih =>
    refine Reaches.prim hb (t := (s.exchange (.byte (s.mem.read d))).setPc (.prim (.dataOut (d + 1) n) :: rest)) ?_
      (ih (d + 1) (by simpa) (by simpa) (by omega))
    have hlt : d < 2 ^ 32 := by omega
    simp [-Nat.reducePow, execPrim, doDataOut, doXfer, hc, hlt, State.xferTo, State.keepByte]

theorem reaches_endTx (hb : s.seqState = .busy) :
    Reaches (s.setPc (.prim .csDeassert :: rest)) ((endTx s).setPc rest) :=
  Reaches.prim hb rfl (Reaches.refl _)

/-- `openFrame` from `CS = HIGH` opens the transaction; `BeginTx` is then run to its end. -/
theorem openFrame_reaches (ops : List Micro) (hb : s.seqState = .busy) (hc : s.cs = .high) :
    ∃ t, openFrame (s.setPc rest) ops = .next t
      ∧ Reaches t ((beginTx s).setPc (ops ++ .prim .csDeassert :: rest)) := by
  unfold openFrame
  simp only [State.setPc_seqState, hb, State.setPc_cs, hc]
  refine ⟨_, rfl, ?_⟩
  cases hs : s.cfg.shared with
  | false =>
    have : beginTx s = s.lowerCs := by simp [beginTx, hs]
    rw [this]
    simp only [State.pushOps_setPc, State.setPc_cfg, hs, State.lowerCs_setPc]
    simp [Reaches.refl]
  | true =>
    have hx : beginTx s = (s.applyBus.delayUs s.cfg.sharedSettleUs).lowerCs := by simp [beginTx, hs]
    rw [hx]
    simp only [State.pushOps_setPc, State.setPc_cfg, hs, if_true, State.applyBus_setPc, List.cons_append,
      List.nil_append, List.append_assoc]
    refine Reaches.prim (by simpa)
      (t := (s.applyBus.delayUs s.cfg.sharedSettleUs).setPc (.prim .csAssert :: (ops ++ .prim .csDeassert :: rest))) ?_
      (Reaches.prim (by simpa)
        (t := (s.applyBus.delayUs s.cfg.sharedSettleUs).lowerCs.setPc (ops ++ .prim .csDeassert :: rest)) ?_
        (Reaches.refl _))
    · simp [execPrim, delayLength]
    · simp [execPrim, doCsAssert, hc]

/-- A frame of fixed length, run to its end. -/
theorem sendFrame_reaches (i : Instr) (rx : List RxDest) (hb : s.seqState = .busy) (hc : s.cs = .high) :
    ∃ t, sendFrame (s.setPc rest) i rx = .next t
      ∧ Reaches t ((frame (frameHeader s.par.cmdWriteStatus i) rx s).setPc rest) := by
  obtain ⟨t, ht, hr⟩ := openFrame_reaches (s := s) rest
    ((frameHeader s.par.cmdWriteStatus i).map (fun b => .prim (.xfer (.byte b) .discard))
      ++ rx.map fun d => .prim (.xfer .dc d)) hb hc
  refine ⟨t, ht, hr.trans ?_⟩
  rw [List.append_assoc]
  refine (reaches_xferOut _ _ (by simpa) (by simp)).trans ((reaches_xferIn _ _ (by simpa) (by simp)).trans ?_)
  exact reaches_endTx _ (by rw [xferIn_seqState]; simpa)

/-- Where a chunk of `n` bytes stands in the buffer of the running request. -/
theorem chunkBuffer_eq {buf len cur n : Word} {q : Instr} (hq : s.current = some q) (hbuf : q.buffer = some (buf, len))
    (hcur : s.holds .cur cur) (hlen : cur.toNat + n.toNat ≤ len.toNat)
    (hmax : buf.toNat + cur.toNat + n.toNat ≤ 2 ^ 32) : chunkBuffer s n = .ok (buf.toNat + cur.toNat) := by
  unfold chunkBuffer
  simp only [hq, Option.bind_some, hbuf, hcur.readReg]
  rw [if_pos ⟨hlen, hmax⟩]

theorem chunkBuffer_setPc (n : Word) (a : List Micro) : chunkBuffer (s.setPc a) n = chunkBuffer s n := rfl

/-- A read frame, run to its end. -/
theorem receiveFrame_reaches (i : Instr) {n : Word} {d : Nat} (hb : s.seqState = .busy) (hc : s.cs = .high)
    (hd : chunkBuffer s n = .ok d) (hmax : d + n.toNat ≤ 2 ^ 32) :
    ∃ t, receiveFrame (s.setPc rest) i n = .next t
      ∧ Reaches t ((readChunk (frameHeader s.par.cmdWriteStatus i) d n.toNat s).setPc rest) := by
  obtain ⟨t, ht, hr⟩ := openFrame_reaches (s := s) rest
    ((frameHeader s.par.cmdWriteStatus i).map (fun b => .prim (.xfer (.byte b) .discard))
      ++ [.prim (.dataIn d n.toNat)]) hb hc
  refine ⟨t, ?_, hr.trans ?_⟩
  · unfold receiveFrame
    rw [chunkBuffer_setPc, hd]
    exact ht
  · rw [List.append_assoc]
    refine (reaches_xferOut _ _ (by simpa) (by simp)).trans
      ((reaches_readBytes _ _ _ (by simpa) (by simp) hmax).trans ?_)
    exact reaches_endTx _ (by rw [(readBytes_rest _ _ _).2.2.1]; simpa)

/-- A page-program frame, run to its end. -/
theorem programFrom_reaches (i : Instr) {n : Word} {d : Nat} (hb : s.seqState = .busy) (hc : s.cs = .high)
    (hd : chunkBuffer s n = .ok d) (hmax : d + n.toNat ≤ 2 ^ 32) :
    ∃ t, programFrom (s.setPc rest) i n = .next t
      ∧ Reaches t ((Code.programFrame (frameHeader s.par.cmdWriteStatus i) d n.toNat s).setPc rest) := by
  obtain ⟨t, ht, hr⟩ := openFrame_reaches (s := s) rest
    ((frameHeader s.par.cmdWriteStatus i).map (fun b => .prim (.xfer (.byte b) .discard))
      ++ [.prim (.dataOut d n.toNat)]) hb hc
  refine ⟨t, ?_, hr.trans ?_⟩
  · unfold programFrom
    rw [chunkBuffer_setPc, hd]
    exact ht
  · rw [List.append_assoc]
    refine (reaches_xferOut _ _ (by simpa) (by simp)).trans
      ((reaches_programBytes _ _ _ (by simpa) (by simp) hmax).trans ?_)
    exact reaches_endTx _ (by rw [(programBytes_rest _ _ _).2.2.1]; simpa)

end

end Sys2Proof.Machine
end

