-- ==== Sys2Proof/Laws/Waits.lean ====
section
/-! SUPPORT. `Wait`, `WrenSeq` and the chunk loops, run to their ends. -/

namespace Sys2Proof.Machine

open Code

/-- What a procedure running inside a request never changes: the configuration, the request, the Host's memory and moves,
and the registers of the chunk loops. -/
structure KeepsRange (s u : State) : Prop where
  cfg : u.cfg = s.cfg
  par : u.par = s.par
  current : u.current = s.current
  env : u.env = s.env
  mem : u.mem = s.mem
  faultCode : u.faultCode = s.faultCode
  addr : u.regs.addr = s.regs.addr
  rem : u.regs.rem = s.regs.rem
  cur : u.regs.cur = s.regs.cur
  chunk : u.regs.chunk = s.regs.chunk

namespace KeepsRange

theorem refl (s : State) : KeepsRange s s := ⟨rfl, rfl, rfl, rfl, rfl, rfl, rfl, rfl, rfl, rfl⟩

theorem trans {s t u : State} (h : KeepsRange s t) (h' : KeepsRange t u) : KeepsRange s u :=
  ⟨h'.cfg.trans h.cfg, h'.par.trans h.par, h'.current.trans h.current, h'.env.trans h.env, h'.mem.trans h.mem,
    h'.faultCode.trans h.faultCode, h'.addr.trans h.addr, h'.rem.trans h.rem, h'.cur.trans h.cur,
    h'.chunk.trans h.chunk⟩

theorem beginTx (s : State) : KeepsRange s (beginTx s) :=
  ⟨by simp, by simp, by simp, by simp, by simp, by simp, by simp, by simp, by simp, by simp⟩

theorem exchange (s : State) (t : TxByte) : KeepsRange s (s.exchange t) :=
  ⟨rfl, rfl, rfl, rfl, rfl, rfl, rfl, rfl, rfl, rfl⟩

theorem xferTo (s : State) (t : TxByte) (rx : RxDest) : KeepsRange s (s.xferTo t rx) := by
  cases rx <;> exact ⟨rfl, rfl, rfl, rfl, rfl, rfl, rfl, rfl, rfl, rfl⟩

theorem xferOut (bs : List Byte) (s : State) : KeepsRange s (xferOut bs s) := by
  induction bs generalizing s with
  | nil => exact refl s
  | cons b bs ih => exact (exchange s _).trans (ih _)

theorem xferIn (rx : List RxDest) (s : State) : KeepsRange s (xferIn rx s) := by
  induction rx generalizing s with
  | nil => exact refl s
  | cons d rx ih => exact (xferTo s _ d).trans (ih _)

theorem frame (bs : List Byte) (rx : List RxDest) (s : State) : KeepsRange s (frame bs rx s) :=
  (beginTx s).trans ((xferOut bs _).trans ((xferIn rx _).trans ⟨rfl, rfl, rfl, rfl, rfl, rfl, rfl, rfl, rfl, rfl⟩))

theorem delayUs (s : State) (n : Word) : KeepsRange s (s.delayUs n) :=
  ⟨by simp, by simp, by simp, by simp, by simp, by simp, by simp, by simp, by simp, by simp⟩

theorem record (s : State) (e : Event) : KeepsRange s (s.record e) :=
  ⟨rfl, rfl, rfl, rfl, rfl, rfl, rfl, rfl, rfl, rfl⟩

theorem readClock (s : State) : KeepsRange s s.readClock := ⟨rfl, rfl, rfl, rfl, rfl, rfl, rfl, rfl, rfl, rfl⟩

theorem programFrame (bs : List Byte) (d n : Nat) (s : State) : KeepsRange s (Code.programFrame bs d n s) := by
  have hp (t : State) : KeepsRange t (Code.programBytes n d t) := by
    induction n generalizing d t with
    | zero => exact refl t
    | succ n ih => exact (exchange t _).trans (ih _ _)
  exact (beginTx s).trans ((xferOut bs _).trans ((hp _).trans ⟨rfl, rfl, rfl, rfl, rfl, rfl, rfl, rfl, rfl, rfl⟩))

end KeepsRange

/-! ### The status read -/

theorem frame_seqState (bs : List Byte) (rx : List RxDest) (s : State) : (frame bs rx s).seqState = s.seqState := by
  simp [frame, xferIn_seqState]

theorem frame_cs (bs : List Byte) (rx : List RxDest) (s : State) : (frame bs rx s).cs = .high := rfl

theorem statusRead_regs (s : State) : (statusRead s).regs = s.regs.put .s ((s.chipDraw 1).setWidth 32) := by
  simp [statusRead, frame, xferIn, State.xferTo, State.keepByte]

theorem statusRead_clockDraw (s : State) (k : Nat) : (statusRead s).clockDraw k = s.clockDraw k := by
  simp [statusRead, frame, xferIn]

theorem statusRead_holds_s (s : State) : (statusRead s).holds .s ((s.chipDraw 1).setWidth 32) := by
  simp [State.holds, statusRead_regs]

theorem statusRead_holds {s : State} {r : Reg} {v : Word} (h : s.holds r v) (hr : r ≠ .s) : (statusRead s).holds r v := by
  unfold State.holds at *
  rw [statusRead_regs, RegFile.get_put_other _ _ hr, h]

/-! ### The loop of `Wait` -/

section
variable {s u : State}

theorem pollLoop_reaches {t start : Word} {fuel : Nat} (rest : List Micro) (hb : s.seqState = .busy)
    (hc : s.cs = .high) (ht : s.holds .t t) (hs : s.holds .start start) (hp : pollLoop t start fuel s = some u) :
    Reaches (s.setPc (.frame (.fixed .spiReadStatus) :: .prim .pollTest :: rest)) (u.setPc rest)
      ∧ KeepsRange s u ∧ u.seqState = .busy ∧ u.cs = .high ∧ u.holds .t t ∧ u.holds .start start := by
  induction fuel generalizing s with
  | zero => cases hp
  | succ fuel ih =>
    obtain ⟨m, hm, hr⟩ := sendFrame_reaches (s := s) (.prim .pollTest :: rest) .spiReadStatus [.status] hb hc
    rw [show frameHeader s.par.cmdWriteStatus .spiReadStatus = [0x05] from rfl] at hr
    change Reaches m ((statusRead s).setPc _) at hr
    have hfr : Reaches (s.setPc (.frame (.fixed .spiReadStatus) :: .prim .pollTest :: rest))
        ((statusRead s).setPc (.prim .pollTest :: rest)) :=
      Reaches.head ((seqStep_frame hb _ _).trans hm) hr
    have hb1 : (statusRead s).seqState = .busy := by rw [statusRead, frame_seqState, hb]
    have hc1 : (statusRead s).cs = .high := rfl
    have ht1 := statusRead_holds ht (by decide)
    have hs1 := statusRead_holds hs (by decide)
    have hk1 : KeepsRange s (statusRead s) := KeepsRange.frame _ _ _
    have hv := (statusRead_holds_s s).readReg
    have hpar : (statusRead s).par = s.par := hk1.par
    simp only [pollLoop] at hp
    generalize statusRead s = s1 at *
    split at hp
    · rename_i hw
      simp only [Option.some.injEq] at hp
      subst hp
      refine ⟨hfr.trans (Reaches.prim hb1 ?_ (Reaches.refl _)), hk1, hb1, hc1, ht1, hs1⟩
      simp only [execPrim, doPollTest, State.readReg_setPc, hv, withValue, hw, Bool.false_eq_true, if_false]
    · rename_i hw
      have hw' : wip ((s.chipDraw 1).setWidth 32) = true := by simpa using hw
      have htest : Reaches (s1.setPc (.prim .pollTest :: rest))
          (s1.setPc (.prim .pollClock :: rest)) := by
        refine Reaches.prim hb1 ?_ (Reaches.refl _)
        simp only [execPrim, doPollTest, State.readReg_setPc, hv, withValue, hw', if_true, State.pushOps_setPc,
          List.cons_append, List.nil_append]
      split at hp
      · rename_i hle
        simp only [Option.some.injEq] at hp
        subst hp
        refine ⟨hfr.trans (htest.trans (Reaches.prim hb1 ?_ (Reaches.refl _))), hk1.trans (KeepsRange.readClock _), hb1,
          hc1, ht1, hs1⟩
        simp only [execPrim, doPollClock, State.readReg_setPc, hs1.readReg, ht1.readReg, withValue,
          State.setPc_clockDraw, if_pos hle, State.readClock_setPc]
      · rename_i hle
        let e : Event := if s.par.yieldThresholdMs < t then .yield else .spin
        have hclock : Reaches (s1.setPc (.prim .pollClock :: rest))
            (s1.readClock.setPc (.prim .pollPause :: rest)) := by
          refine Reaches.prim hb1 ?_ (Reaches.refl _)
          simp only [execPrim, doPollClock, State.readReg_setPc, hs1.readReg, ht1.readReg, withValue,
            State.setPc_clockDraw, if_neg hle, State.readClock_setPc, State.pushOps_setPc, List.cons_append,
            List.nil_append]
        have hpause : Reaches (s1.readClock.setPc (.prim .pollPause :: rest))
            ((s1.readClock.record e).setPc
              (.frame (.fixed .spiReadStatus) :: .prim .pollTest :: rest)) := by
          refine Reaches.prim hb1 ?_ (Reaches.refl _)
          have ht2 : s1.readClock.readReg .t = .ok t := ht1.readReg
          have hpar : s1.readClock.par = s.par := hpar
          simp only [execPrim, doPollPause, State.readReg_setPc, ht2, withValue, State.setPc_par, hpar,
            State.record_setPc, State.pushOps_setPc, List.cons_append, List.nil_append, e]
        obtain ⟨h1, h2, h3⟩ := ih (s := s1.readClock.record e) hb1 hc1 ht1 hs1 hp
        exact ⟨hfr.trans (htest.trans (hclock.trans (hpause.trans h1))),
          hk1.trans ((KeepsRange.readClock _).trans ((KeepsRange.record _ _).trans h2)), h3⟩

/-- `Wait`, run to its return (R102). -/
theorem wait_reaches {fuel : Nat} {t : Timeout} (rest : List Micro) (hb : s.seqState = .busy) (hc : s.cs = .high)
    (hw : wait fuel t s = some u) :
    Reaches (s.setPc (waitOps t ++ rest)) (u.setPc rest) ∧ KeepsRange s u ∧ u.seqState = .busy ∧ u.cs = .high
      ∧ u.holds .t (effectiveTimeout s.cfg (timeoutArg s.cfg t)) ∧ u.holds .start (s.clockDraw 0) := by
  simp only [wait] at hw
  have hp := pollLoop_reaches rest
    (s := (s.writeReg .t (effectiveTimeout s.cfg (timeoutArg s.cfg t))).readClock.writeReg .start (s.clockDraw 0))
    hb hc rfl rfl hw
  have hk : KeepsRange s
      ((s.writeReg .t (effectiveTimeout s.cfg (timeoutArg s.cfg t))).readClock.writeReg .start (s.clockDraw 0)) :=
    ⟨rfl, rfl, rfl, rfl, rfl, rfl, rfl, rfl, rfl, rfl⟩
  refine ⟨?_, hk.trans hp.2.1, hp.2.2⟩
  refine Reaches.prim hb rfl (Reaches.prim (s := s.writeReg .t (effectiveTimeout s.cfg (timeoutArg s.cfg t)))
    (by simpa) rfl ?_)
  exact hp.1

/-- `WrenSeq`, run to its end (R103). -/
theorem wren_reaches (rest : List Micro) (hb : s.seqState = .busy) (hc : s.cs = .high) :
    Reaches (s.setPc (wrenOps ++ rest)) ((wren s).setPc rest) ∧ KeepsRange s (wren s) ∧ (wren s).seqState = .busy
      ∧ (wren s).cs = .high := by
  obtain ⟨m, hm, hr⟩ := sendFrame_reaches (s := s) (.prim (.delay .weSettle) :: rest) .spiWriteEnable [] hb hc
  have hk : KeepsRange s (frame [0x06] [] s) := KeepsRange.frame _ _ _
  have hb1 : (frame [0x06] [] s).seqState = .busy := by rw [frame_seqState, hb]
  refine ⟨Reaches.head (by rw [wrenOps, List.cons_append, seqStep_frame hb]; exact hm) (hr.trans ?_),
    hk.trans ?_, ?_, ?_⟩
  · refine Reaches.prim hb1 ?_ (Reaches.refl _)
    simp only [execPrim, delayLength, State.setPc_cfg, State.delayUs_setPc, wren]
    rw [show (frame (frameHeader s.par.cmdWriteStatus .spiWriteEnable) [] s).cfg = s.cfg from hk.cfg]
    rfl
  · exact KeepsRange.delayUs _ _
  · rw [wren, State.delayUs_seqState, hb1]
  · rw [wren, State.delayUs_cs, frame_cs]

end

/-! ### The chunk loops -/

theorem chunkLength_le (p a rem : Word) : (chunkLength p a rem).toNat ≤ rem.toNat := by
  unfold chunkLength
  simp only
  split
  · assumption
  · exact Nat.le_refl _

theorem chunkLength_pos {p a rem : Word} (hp : p ≠ 0) (hr : rem ≠ 0) : 0 < (chunkLength p a rem).toNat := by
  have hp' : 0 < p.toNat := by
    rcases Nat.eq_zero_or_pos p.toNat with h | h
    · exact absurd (BitVec.eq_of_toNat_eq h) hp
    · exact h
  have hr' : 0 < rem.toNat := by
    rcases Nat.eq_zero_or_pos rem.toNat with h | h
    · exact absurd (BitVec.eq_of_toNat_eq h) hr
    · exact h
  have hm : (a % p).toNat < p.toNat := by rw [BitVec.toNat_umod]; exact Nat.mod_lt _ hp'
  unfold chunkLength
  simp only
  split
  · rw [BitVec.toNat_sub_of_le (by rw [BitVec.le_def]; omega)]
    omega
  · exact hr'

/-- What a loop head of READ_DATA or WRITE_DATA stands on: the request, its buffer range, and the three range registers
(R115, R117). -/
structure AtLoop (s : State) (q : Instr) (buf len a rem cur : Word) : Prop where
  busy : s.seqState = .busy
  cs : s.cs = .high
  ok : cfgOk s.cfg = true
  current : s.current = some q
  buffer : q.buffer = some (buf, len)
  addrIs : s.holds .addr a
  remIs : s.holds .rem rem
  curIs : s.holds .cur cur
  total : cur.toNat + rem.toNat = len.toNat
  fits : buf.toNat + len.toNat ≤ 2 ^ 32

theorem mode_cases {c : Cfg} (h : cfgOk c = true) : c.addrBytes = 3 ∨ c.addrBytes = 4 := by
  simp only [cfgOk, Bool.and_eq_true, Bool.or_eq_true, beq_iff_eq] at h
  exact h.1

theorem pageSize_ok {c : Cfg} (h : cfgOk c = true) : isPowerOfTwo c.pageSize = true := by
  simp only [cfgOk, Bool.and_eq_true] at h
  exact h.2

theorem pageSize_ne_zero {c : Cfg} (h : cfgOk c = true) : c.pageSize ≠ 0 := by
  have := pageSize_ok h
  simp only [isPowerOfTwo, Bool.and_eq_true, bne_iff_ne] at this
  exact this.1

/-- The registers after `NextChunk` and `advance`, at the next loop head. -/
theorem AtLoop.next {s u : State} {q : Instr} {buf len a rem cur : Word} (h : AtLoop s q buf len a rem cur)
    (hb : u.seqState = .busy) (hc : u.cs = .high) (hcfg : u.cfg = s.cfg) (hcur : u.current = s.current) :
    AtLoop (advance a rem cur (chunkLength s.cfg.pageSize a rem) u) q buf len (a + chunkLength s.cfg.pageSize a rem)
      (rem - chunkLength s.cfg.pageSize a rem) (cur + chunkLength s.cfg.pageSize a rem) := by
  have hle := chunkLength_le s.cfg.pageSize a rem
  generalize hcc : chunkLength s.cfg.pageSize a rem = c at *
  have ht := h.total
  have hl := len.isLt
  have h1 : (cur + c).toNat = cur.toNat + c.toNat := by rw [BitVec.toNat_add]; omega
  have h2 : (rem - c).toNat = rem.toNat - c.toNat := BitVec.toNat_sub_of_le hle
  refine ⟨hb, hc, by rw [← h.ok]; simp [advance, hcfg], by rw [← h.current]; simpa [advance] using hcur, h.buffer, ?_, ?_, ?_, ?_,
    h.fits⟩
  · exact State.holds_writeReg_other (State.holds_writeReg_other (State.holds_writeReg_same _ _ _) (by decide)) (by decide)
  · exact State.holds_writeReg_same _ _ _
  · exact State.holds_writeReg_other (State.holds_writeReg_same _ _ _) (by decide)
  · rw [h1, h2]; omega

section
variable {s u : State} {q : Instr} {buf len a rem cur : Word}

theorem chunkLoop_exit (d : DataDir) (rest : List Micro) (h : AtLoop s q buf len a rem cur) (hr : rem = 0) :
    Reaches (s.setPc (.prim (.chunkLoop d) :: rest)) (s.setPc rest) := by
  refine Reaches.prim h.busy ?_ (Reaches.refl _)
  simp only [execPrim, doChunkLoop, State.readReg_setPc, h.remIs.readReg, withValue, hr, if_true]

theorem chunkLoop_enter (d : DataDir) (rest : List Micro) (h : AtLoop s q buf len a rem cur) (hr : rem ≠ 0) :
    Reaches (s.setPc (.prim (.chunkLoop d) :: rest)) (s.setPc (chunkBody d ++ rest)) := by
  refine Reaches.prim h.busy ?_ (Reaches.refl _)
  simp only [execPrim, doChunkLoop, State.readReg_setPc, h.remIs.readReg, withValue, hr, if_false, State.pushOps_setPc]

theorem nextChunk_reaches (rest : List Micro) (h : AtLoop s q buf len a rem cur) :
    Reaches (s.setPc (.prim .nextChunk :: rest))
      ((s.writeReg .chunk (chunkLength s.cfg.pageSize a rem)).setPc rest) := by
  refine Reaches.prim h.busy ?_ (Reaches.refl _)
  simp only [execPrim, doNextChunk, State.readReg_setPc, h.addrIs.readReg, h.remIs.readReg, withValue, State.setPc_cfg,
    pageSize_ok h.ok, if_true, State.writeReg_setPc]

theorem advance_reaches (rest : List Micro) {c : Word} (hb : s.seqState = .busy) (ha : s.holds .addr a)
    (hr : s.holds .rem rem) (hcur : s.holds .cur cur) (hc : s.holds .chunk c) :
    Reaches (s.setPc (.prim .advance :: rest)) ((advance a rem cur c s).setPc rest) := by
  refine Reaches.prim hb ?_ (Reaches.refl _)
  simp only [execPrim, doAdvance, State.readReg_setPc, ha.readReg, hr.readReg, hcur.readReg, hc.readReg, withValue,
    State.writeReg_setPc, advance]

/-- The `CHUNK`, `ADDR` and `CUR` a data frame reads, and its place in the buffer. -/
theorem chunk_in_buffer (h : AtLoop s q buf len a rem cur) {t : State} (hk : KeepsRange s t) :
    chunkBuffer t (chunkLength s.cfg.pageSize a rem) = .ok (buf.toNat + cur.toNat)
      ∧ buf.toNat + cur.toNat + (chunkLength s.cfg.pageSize a rem).toNat ≤ 2 ^ 32 := by
  have hle := chunkLength_le s.cfg.pageSize a rem
  have ht := h.total
  have hf := h.fits
  refine ⟨chunkBuffer_eq (q := q) (by rw [hk.current, h.current]) h.buffer (cur := cur) ?_ (by omega) (by omega),
    by omega⟩
  have := h.curIs
  unfold State.holds RegFile.get at *
  simpa [hk.cur] using this

theorem addrBytes_header_read (c : Cfg) (h : cfgOk c = true) (a n : Word) (ws : Byte) :
    ∃ f, readFrame c a n = some f ∧ frameHeader ws f = cmdRead c :: addrBytes c a
      ∧ ∀ s, exec f s = receiveFrame s f n := by
  rcases mode_cases h with h3 | h4
  · exact ⟨.spiRead3 (low24 a) n, by simp [readFrame, h3], by simp [frameHeader, cmdRead, addrBytes, h3],
      fun _ => rfl⟩
  · exact ⟨.spiRead4 a n, by simp [readFrame, h4], by simp [frameHeader, cmdRead, addrBytes, h4], fun _ => rfl⟩

theorem addrBytes_header_program (c : Cfg) (h : cfgOk c = true) (a n : Word) (ws : Byte) :
    ∃ f, Machine.programFrame c a n = some f ∧ frameHeader ws f = cmdProg c :: addrBytes c a
      ∧ ∀ s, exec f s = programFrom s f n := by
  rcases mode_cases h with h3 | h4
  · exact ⟨.spiProgram3 (low24 a) n, by simp [Machine.programFrame, h3],
      by simp [frameHeader, cmdProg, addrBytes, h3], fun _ => rfl⟩
  · exact ⟨.spiProgram4 a n, by simp [Machine.programFrame, h4], by simp [frameHeader, cmdProg, addrBytes, h4],
      fun _ => rfl⟩

theorem addrBytes_header_erase (c : Cfg) (h : cfgOk c = true) (k : EraseKind) (a : Word) (ws : Byte) :
    ∃ f, eraseFrame c k a = some f
      ∧ frameHeader ws f = (match k with | .sector => cmdSector c | .block => cmdBlock c) :: addrBytes c a
      ∧ ∀ s, exec f s = sendFrame s f [] := by
  rcases mode_cases h with h3 | h4 <;> cases k
  · exact ⟨.spiSectorErase3 (low24 a), by simp [eraseFrame, h3], by simp [frameHeader, cmdSector, addrBytes, h3],
      fun _ => rfl⟩
  · exact ⟨.spiBlockErase3 (low24 a), by simp [eraseFrame, h3], by simp [frameHeader, cmdBlock, addrBytes, h3],
      fun _ => rfl⟩
  · exact ⟨.spiSectorErase4 a, by simp [eraseFrame, h4], by simp [frameHeader, cmdSector, addrBytes, h4],
      fun _ => rfl⟩
  · exact ⟨.spiBlockErase4 a, by simp [eraseFrame, h4], by simp [frameHeader, cmdBlock, addrBytes, h4], fun _ => rfl⟩

end

end Sys2Proof.Machine
end

