-- ==== Sys2Proof/Laws/Events.lean ====
section
/-! SUPPORT. What a run records: the events, and the oracle draws it uses up. Each procedure has one lemma that says so, and
the events of a later state are the events of the first one further on in the draws. -/

namespace Sys2Proof.Machine

open Code

theorem mapIdx_map {α β γ : Type} (f : Nat → β → γ) (g : α → β) (l : List α) :
    (l.map g).mapIdx f = l.mapIdx fun k a => f k (g a) := by
  induction l generalizing f with
  | nil => rfl
  | cons a l ih => simp [List.mapIdx_cons, ih]

/-- From `s` to `u`, the events `evs` were recorded, `j` bytes drawn from the Chip oracle and `i` readings from the Clock
oracle. -/
structure Did (s u : State) (evs : List Event) (j i : Nat) : Prop where
  trace : u.trace = s.trace ++ evs
  chip : ∀ k, u.chipDraw k = s.chipDraw (j + k)
  clock : ∀ k, u.clockDraw k = s.clockDraw (i + k)
  cfg : u.cfg = s.cfg
  par : u.par = s.par

namespace Did

theorem refl (s : State) : Did s s [] 0 0 := ⟨by simp, by simp, by simp, rfl, rfl⟩

theorem trans {s t u : State} {e e' : List Event} {j j' i i' : Nat} (h : Did s t e j i) (h' : Did t u e' j' i') :
    Did s u (e ++ e') (j + j') (i + i') :=
  ⟨by rw [h'.trace, h.trace, List.append_assoc], fun k => by rw [h'.chip, h.chip, Nat.add_assoc],
    fun k => by rw [h'.clock, h.clock, Nat.add_assoc], h'.cfg.trans h.cfg, h'.par.trans h.par⟩

/-- The same run, its events and counts written otherwise. -/
theorem cast {s u : State} {e e' : List Event} {j j' i i' : Nat} (h : Did s u e j i) (he : e = e') (hj : j = j')
    (hi : i = i') : Did s u e' j' i' := by
  subst he; subst hj; subst hi; exact h

section shift
variable {s t : State} {e : List Event} {j i : Nat} (h : Did s t e j i)
include h

theorem frameEvents (k : Nat) (tx : List TxByte) : frameEvents t k tx = frameEvents s (j + k) tx := by
  unfold Machine.frameEvents
  simp [h.cfg, h.chip, Nat.add_assoc]

theorem sendEvents (k : Nat) (bs : List Byte) : sendEvents t k bs = sendEvents s (j + k) bs := h.frameEvents k _

theorem statusEvents (k : Nat) : statusEvents t k = statusEvents s (j + k) := h.frameEvents k _

theorem wrenEvents (k : Nat) : wrenEvents t k = wrenEvents s (j + k) := by
  unfold Machine.wrenEvents
  rw [h.sendEvents, h.cfg]

theorem idleAt (k : Nat) : idleAt t k = idleAt s (j + k) := by
  unfold Machine.idleAt
  rw [h.chip, Nat.add_assoc]

theorem waitTimeout (w : Timeout) : waitTimeout t w = waitTimeout s w := by
  unfold Machine.waitTimeout
  rw [h.cfg]

theorem pollsOn (T start : Word) (k l n : Nat) :
    pollsOn t T start k l n = pollsOn s T start (j + k) (i + l) n := by
  induction n generalizing k l with
  | zero => rfl
  | succ n ih => simp only [Machine.pollsOn, h.idleAt, h.clock, ih, Nat.add_assoc]

theorem pollEvents (T : Word) (k l n : Nat) : pollEvents t T k l n = pollEvents s T (j + k) (i + l) n := by
  induction n generalizing k l with
  | zero => exact h.statusEvents k
  | succ n ih => simp only [Machine.pollEvents, h.statusEvents, h.clock, ih, Nat.add_assoc, pauseEvent, h.par]

theorem spanOk (p : Span) (T : Word) (k l : Nat) : p.ok t T k l = p.ok s T (j + k) (i + l) := by
  simp only [Span.ok, h.pollsOn, h.idleAt, h.clock, Nat.add_assoc]

theorem spanEvents (p : Span) (T : Word) (k l : Nat) : p.events t T k l = p.events s T (j + k) (i + l) := by
  simp only [Span.events, h.pollEvents, h.clock, Nat.add_assoc]

theorem spanLeft {p : Span} {u : State} {T : Word} {k l : Nat} (hp : p.left t u T k l) :
    p.left s u T (j + k) (i + l) := by
  simpa only [Span.left, h.clock, h.chip, Nat.add_assoc] using hp

theorem dataEvents (k d n : Nat) : dataEvents t k d n = dataEvents s (j + k) d n := by
  induction n generalizing k d with
  | zero => rfl
  | succ n ih => simp only [Machine.dataEvents, h.chip, ih, Nat.add_assoc]

end shift

theorem delayUs (s : State) (n : Word) : Did s (s.delayUs n) (delayEvents n) 0 0 :=
  ⟨by unfold delayEvents; rw [State.delayUs_trace], by simp, by simp, by simp, by simp⟩

theorem record (s : State) (e : Event) : Did s (s.record e) [e] 0 0 := ⟨rfl, by simp, by simp, rfl, rfl⟩

theorem readClock (s : State) : Did s s.readClock [.clock (s.clockDraw 0)] 0 1 :=
  ⟨rfl, by simp, fun k => by simp [Nat.add_comm], rfl, rfl⟩

theorem writeReg (s : State) (r : Reg) (v : Word) : Did s (s.writeReg r v) [] 0 0 :=
  ⟨by simp, by simp, by simp, rfl, rfl⟩

theorem exchange (s : State) (t : TxByte) : Did s (s.exchange t) [.xfer t (s.chipDraw 0)] 1 0 :=
  ⟨rfl, fun k => by simp [Nat.add_comm], by simp, rfl, rfl⟩

theorem keepByte (s : State) (rx : RxDest) (b : Byte) : Did s (s.keepByte rx b) [] 0 0 := by
  cases rx <;> exact ⟨by simp [State.keepByte], by simp [State.keepByte], by simp [State.keepByte], rfl, rfl⟩

theorem dropLocal (s : State) (l : Local) : Did s (s.dropLocal l) [] 0 0 :=
  ⟨by simp, by simp, by simp, rfl, rfl⟩

theorem xferTo (s : State) (t : TxByte) (rx : RxDest) : Did s (s.xferTo t rx) [.xfer t (s.chipDraw 0)] 1 0 :=
  (exchange s t).trans (keepByte _ rx _)

theorem storeByte (s : State) (d : Nat) (b : Byte) :
    Did s (s.storeByte d b) [.memWrite (BitVec.ofNat 32 d) b] 0 0 := ⟨rfl, by simp, by simp, rfl, rfl⟩

theorem beginTx (s : State) : Did s (beginTx s) (openingEvents s.cfg ++ [.csLow]) 0 0 :=
  ⟨beginTx_trace s, by simp, by simp, by simp, by simp⟩

theorem endTx (s : State) : Did s (endTx s) [.csHigh] 0 0 := ⟨rfl, by simp, by simp, rfl, rfl⟩

theorem xferOut (bs : List Byte) (s : State) :
    Did s (xferOut bs s) (bs.mapIdx fun k b => .xfer (.byte b) (s.chipDraw k)) bs.length 0 :=
  ⟨xferOut_trace bs s, by simp, by simp, by simp, by simp⟩

theorem xferIn (rx : List RxDest) (s : State) :
    Did s (xferIn rx s) ((List.replicate rx.length TxByte.dc).mapIdx fun k t => .xfer t (s.chipDraw k)) rx.length 0 := by
  induction rx generalizing s with
  | nil => exact refl s
  | cons d rx ih =>
    have h := xferTo s .dc d
    refine (h.trans (ih (s.xferTo .dc d))).cast ?_ (by simp [Nat.add_comm]) rfl
    simp [List.replicate_succ, List.mapIdx_cons, h.chip, Nat.add_comm]

/-- A frame of fixed length records exactly its events. -/
theorem frame (bs : List Byte) (rx : List RxDest) (s : State) :
    Did s (frame bs rx s) (Machine.frameEvents s 0 (bs.map .byte ++ List.replicate rx.length .dc))
      (bs.length + rx.length) 0 := by
  have h1 := beginTx s
  have h2 := xferOut bs (Code.beginTx s)
  have h3 := xferIn rx (Code.xferOut bs (Code.beginTx s))
  refine (h1.trans (h2.trans (h3.trans (endTx _)))).cast ?_ (by simp) rfl
  simp only [Machine.frameEvents, List.mapIdx_append, mapIdx_map, List.length_map, h2.chip, h1.chip,
    Nat.zero_add, List.append_assoc, List.cons_append, List.nil_append]
  simp [Nat.add_comm]

theorem readBytes (n d : Nat) (s : State) : Did s (readBytes n d s) (Machine.dataEvents s 0 d n) n 0 := by
  induction n generalizing d s with
  | zero => exact refl s
  | succ n ih =>
    have h := (xferTo s .dc (.keep .r)).trans (storeByte (s.xferTo .dc (.keep .r)) d (s.chipDraw 0))
    refine (h.trans (ih (d + 1) _)).cast ?_ (by omega) rfl
    rw [h.dataEvents]
    simp [Machine.dataEvents]

theorem hostBytes_succ (m : Memory) (d n : Nat) : hostBytes m d (n + 1) = m.read d :: hostBytes m (d + 1) n := by
  simp only [hostBytes, List.range_succ_eq_map, List.map_cons, Nat.add_zero, List.map_map, Function.comp_def]
  congr 1
  exact List.map_congr_left fun a _ => by congr 1; omega

theorem programBytes (n d : Nat) (s : State) :
    Did s (programBytes n d s) ((hostBytes s.mem d n).mapIdx fun k b => .xfer (.byte b) (s.chipDraw k)) n 0 := by
  induction n generalizing d s with
  | zero => exact refl s
  | succ n ih =>
    have h := exchange s (.byte (s.mem.read d))
    refine (h.trans (ih (d + 1) _)).cast ?_ (by omega) rfl
    simp [hostBytes_succ, List.mapIdx_cons, h.chip, Nat.add_comm]

/-- A read frame records exactly its events. -/
theorem readChunk (bs : List Byte) (d n : Nat) (s : State) :
    Did s (readChunk bs d n s)
      (openingEvents s.cfg ++ .csLow :: (bs.mapIdx fun k b => .xfer (.byte b) (s.chipDraw k))
        ++ Machine.dataEvents s bs.length d n ++ [.csHigh]) (bs.length + n) 0 := by
  have h1 := beginTx s
  have h2 := xferOut bs (Code.beginTx s)
  have h12 := h1.trans h2
  refine (h12.trans ((readBytes n d _).trans (endTx _))).cast ?_ (by simp) rfl
  rw [h12.dataEvents]
  simp only [h1.chip, Nat.zero_add, List.append_assoc, List.cons_append, List.nil_append, Nat.add_zero]

/-- A page-program frame records exactly its events. -/
theorem programFrame (bs : List Byte) (d n : Nat) (s : State) :
    Did s (Code.programFrame bs d n s) (Machine.sendEvents s 0 (bs ++ hostBytes s.mem d n)) (bs.length + n) 0 := by
  have h1 := beginTx s
  have h2 := xferOut bs (Code.beginTx s)
  have h12 := h1.trans h2
  refine (h12.trans ((programBytes n d _).trans (endTx _))).cast ?_ (by simp) rfl
  simp only [Machine.sendEvents, Machine.frameEvents, List.map_append, List.mapIdx_append, mapIdx_map,
    List.length_map, h12.chip, h1.chip, xferOut_mem, beginTx_mem, Nat.zero_add, List.append_assoc, List.cons_append,
    List.nil_append]
  simp [Nat.add_comm]

theorem wren (s : State) : Did s (wren s) (Machine.wrenEvents s 0) 1 0 := by
  have h := frame [0x06] [] s
  refine (h.trans (delayUs _ s.cfg.weSettleUs)).cast ?_ rfl rfl
  simp [Machine.wrenEvents, Machine.sendEvents]

theorem statusRead (s : State) : Did s (statusRead s) (Machine.statusEvents s 0) 2 0 := frame [0x05] [.status] s

end Did

end Sys2Proof.Machine
end

