-- ==== Sys2Proof/Laws/Invariant.lean ====
section
/-! SUPPORT. The checks the invariant is made of, piece by piece: traces appended, positions pushed before the rest of a
request, and what a running request's state has. -/

namespace Sys2Proof.Machine

/-! ### Where a trace leads -/

theorem traceBracket_append (c : Cfg) (p : Params) (b : Bracket) (l m : List Event) :
    traceBracket c p b (l ++ m) = (traceBracket c p b l).bind fun b' => traceBracket c p b' m := by
  induction l generalizing b with
  | nil => rfl
  | cons e l ih =>
    simp only [List.cons_append, traceBracket]
    cases traceStep c p b e with
    | none => rfl
    | some b' => simp [ih]

theorem traceBracket_snoc {c : Cfg} {p : Params} {b0 b b' : Bracket} {l : List Event} {e : Event}
    (h : traceBracket c p b0 l = some b) (he : traceStep c p b e = some b') :
    traceBracket c p b0 (l ++ [e]) = some b' := by
  rw [traceBracket_append, h]
  simp [traceBracket, he]

/-- An event inside a trace stands where it may. -/
theorem traceBracket_split {c : Cfg} {p : Params} {pre post : List Event} {e : Event} {b0 b' : Bracket}
    (h : traceBracket c p b0 (pre ++ e :: post) = some b') :
    ∃ b1 b2, traceBracket c p b0 pre = some b1 ∧ traceStep c p b1 e = some b2
      ∧ traceBracket c p b2 post = some b' := by
  rw [traceBracket_append] at h
  cases h1 : traceBracket c p b0 pre with
  | none => simp [h1] at h
  | some b1 =>
    simp only [h1, Option.bind_some, traceBracket] at h
    cases h2 : traceStep c p b1 e with
    | none => simp [h2] at h
    | some b2 => exact ⟨b1, b2, rfl, h2, by simpa [h2] using h⟩

/-- A position that is no response leads somewhere, and the rest goes on from there. -/
theorem pcBracket_cons {c : Cfg} {p : Params} {b : Bracket} {m : Micro} {rest : List Micro}
    (h : pcBracket c p b (m :: rest) = true) (hr : ∀ k, m ≠ .prim (.respond k)) :
    ∃ b', microBracket c p b m = some b' ∧ pcBracket c p b' rest = true := by
  have hm : pcBracket c p b (m :: rest)
      = (match microBracket c p b m with
        | some b' => pcBracket c p b' rest
        | none => false) := by
    cases m with
    | frame f => rfl
    | prim q => cases q <;> first | rfl | exact absurd rfl (hr _)
  rw [hm] at h
  cases hb : microBracket c p b m with
  | none => rw [hb] at h; cases h
  | some b' => rw [hb] at h; exact ⟨b', rfl, h⟩

/-! ### Reading only what is written -/

theorem definesFirst_mono {f g : Var → Bool} (hfg : ∀ v, f v = true → g v = true) {ops : List Micro}
    (h : definesFirst f ops = true) : definesFirst g ops = true := by
  induction ops generalizing f g with
  | nil => rfl
  | cons m ops ih =>
    simp only [definesFirst, Bool.and_eq_true, List.all_eq_true] at h ⊢
    refine ⟨fun v hv => hfg v (h.1 v hv), ih (fun v hv => ?_) h.2⟩
    simp only [Bool.and_eq_true, Bool.or_eq_true] at hv ⊢
    exact ⟨hv.1.imp_left (hfg v), hv.2⟩

/-- Positions that read nothing and take nothing away, pushed before the rest. -/
theorem definesFirst_push {f : Var → Bool} {l ops : List Micro} (hn : ∀ m ∈ l, needs m = [] ∧ drops m = [])
    (h : definesFirst (fun v => f v || l.any fun m => (gives m).contains v) ops = true) :
    definesFirst f (l ++ ops) = true := by
  induction l generalizing f with
  | nil => exact definesFirst_mono (by simp) h
  | cons m l ih =>
    simp only [List.cons_append, definesFirst, Bool.and_eq_true, List.all_eq_true]
    refine ⟨by simp [hn m], ih (fun m' hm' => hn m' (by simp [hm'])) (definesFirst_mono (fun v hv => ?_) h)⟩
    simp only [List.any_cons, Bool.or_eq_true, Bool.and_eq_true, (hn m (by simp)).2, List.contains_nil, Bool.not_false] at hv ⊢
    tauto

/-- After a position has run, what it writes is there. -/
theorem definesFirst_tail {f g : Var → Bool} {m : Micro} {ops : List Micro} (h : definesFirst f (m :: ops) = true)
    (hg : ∀ v, f v = true ∨ v ∈ gives m → g v = true) : definesFirst g ops = true := by
  simp only [definesFirst, Bool.and_eq_true] at h
  refine definesFirst_mono (fun v hv => hg v ?_) h.2
  simp only [Bool.and_eq_true, Bool.or_eq_true, List.contains_iff_mem] at hv
  exact hv.1

/-- After a procedure has returned, its temporary is not read. -/
theorem definesFirst_dropLocal {f g : Var → Bool} {l : Local} {ops : List Micro}
    (h : definesFirst f (.prim (.dropLocal l) :: ops) = true) (hg : ∀ v, f v = true → v ≠ .loc l → g v = true) :
    definesFirst g ops = true := by
  simp only [definesFirst, Bool.and_eq_true] at h
  refine definesFirst_mono (fun v hv => ?_) h.2
  simp only [gives, drops, List.contains_eq_mem, List.not_mem_nil, decide_false, Bool.or_false, Bool.and_eq_true,
    Bool.not_eq_true', List.mem_singleton, decide_eq_false_iff_not] at hv
  exact hg v hv.1 hv.2

theorem definesFirst_head {f : Var → Bool} {m : Micro} {ops : List Micro} (h : definesFirst f (m :: ops) = true) :
    ∀ v ∈ needs m, f v = true := by
  simp only [definesFirst, Bool.and_eq_true, List.all_eq_true] at h
  exact h.1

theorem live_congr {s t : State} (hr : t.regs = s.regs) (hl : t.locals = s.locals) : live t = live s := by
  funext v
  cases v <;> simp [live, hr, hl]

theorem live_writeReg (s : State) (r : Reg) (v : Word) (x : Var) (h : live s x = true ∨ x ∈ [Var.reg r]) :
    live (s.writeReg r v) x = true := by
  cases x with
  | reg q =>
    simp only [live, State.writeReg_regs, RegFile.get_put]
    split
    · simp
    · rename_i hq; simpa [live, hq] using h
  | loc l => simpa [live] using h

theorem live_dropLocal (s : State) (l : Local) (x : Var) (h : live s x = true) (hx : x ≠ .loc l) :
    live (s.dropLocal l) x = true := by
  cases x with
  | reg q => simpa [live] using h
  | loc k =>
    have hk : k ≠ l := fun e => hx (by rw [e])
    simpa [live, Locals.get_drop, hk] using h

theorem live_writeLocal (s : State) (l : Local) (b : Byte) (x : Var) (h : live s x = true ∨ x ∈ [Var.loc l]) :
    live (s.writeLocal l b) x = true := by
  cases x with
  | reg q => simpa [live] using h
  | loc k =>
    simp only [live, State.writeLocal_locals, Locals.get_put]
    split
    · simp
    · rename_i hq; simpa [live, hq] using h

/-! ### The rest of a request is its own -/

/-- A position that touches neither the range registers nor the host buffer nor an exclusive bus's settings. -/
def neutral : Micro → Bool
  | .frame (.fixed _) | .frame (.erase _ _) | .prim (.delay _) | .prim .csAssert | .prim .csDeassert
  | .prim (.xfer _ _) | .prim (.waitBegin _) | .prim .readStart | .prim .pollTest | .prim .pollClock
  | .prim .pollPause => true
  | _ => false

theorem rangeOps_neutral {p buf len : Word} {dir : DataDir} {r : RangeRegs} {m : Micro} (hn : neutral m = true)
    (rest : List Micro) : rangeOps p buf len dir r (m :: rest) = rangeOps p buf len dir r rest := by
  cases m with
  | frame c => cases c <;> first | rfl | simp [neutral] at hn
  | prim q => cases q <;> first | rfl | simp [neutral] at hn

theorem rangeOps_push {p buf len : Word} {dir : DataDir} {r : RangeRegs} {l : List Micro}
    (hn : ∀ m ∈ l, neutral m = true) (rest : List Micro) :
    rangeOps p buf len dir r (l ++ rest) = rangeOps p buf len dir r rest := by
  induction l with
  | nil => rfl
  | cons m l ih => rw [List.cons_append, rangeOps_neutral (hn m (by simp)), ih fun m' h => hn m' (by simp [h])]

theorem dataOrInit_of_neutral {m : Micro} (h : neutral m = true) : dataOrInit m = false := by
  cases m with
  | frame c => cases c <;> first | rfl | simp [neutral] at h
  | prim q => cases q <;> first | rfl | simp [neutral] at h

theorem rangeRegs_congr {s t : State} (h : t.regs = s.regs) : rangeRegs t = rangeRegs s := by simp [rangeRegs, h]

/-- Past a neutral position the rest is still the request's own. -/
theorem ownOps_tail {s t : State} {i : Instr} {m : Micro} {rest : List Micro} (h : ownOps s i (m :: rest) = true)
    (hn : neutral m = true) (hr : rangeRegs t = rangeRegs s) (hc : t.cfg = s.cfg) : ownOps t i rest = true := by
  cases i <;> simp only [ownOps, hr, hc] at h ⊢ <;> first
    | (rw [rangeOps_neutral hn] at h; exact h)
    | cases h
    | (simp only [List.all_cons, Bool.and_eq_true] at h; exact h.2)
    | skip
  simp only [Bool.or_eq_true, decide_eq_true_eq, List.cons.injEq] at h ⊢
  rcases h with (⟨rfl, h⟩ | ⟨rfl, h⟩) | ⟨rfl, h⟩
  · simp [h]
  · simp [neutral] at hn
  · simp [neutral] at hn

/-- Neutral positions pushed before the rest of a request other than INIT. -/
theorem ownOps_push {s : State} {i : Instr} {l rest : List Micro} (h : ownOps s i rest = true) (hi : i ≠ .init)
    (hn : ∀ m ∈ l, neutral m = true) : ownOps s i (l ++ rest) = true := by
  cases i <;> simp only [ownOps] at h ⊢ <;> first
    | (rw [rangeOps_push hn]; exact h)
    | cases h
    | exact absurd rfl hi
    | skip
  all_goals
    rw [List.all_append, h, Bool.and_true, List.all_eq_true]
    intro m hm
    simp [dataOrInit_of_neutral (hn m hm)]

end Sys2Proof.Machine
end

