-- ==== Sys2Proof/Laws/Loops.lean ====
section
/-! SUPPORT. The chunk loops of READ_DATA and WRITE_DATA, run to their ends (R115, R117). -/

namespace Sys2Proof.Machine

open Code

theorem readChunk_rest (bs : List Byte) (d n : Nat) (s : State) :
    (readChunk bs d n s).cfg = s.cfg ∧ (readChunk bs d n s).par = s.par
      ∧ (readChunk bs d n s).seqState = s.seqState ∧ (readChunk bs d n s).current = s.current
      ∧ (readChunk bs d n s).cs = .high ∧ (readChunk bs d n s).regs = s.regs := by
  obtain ⟨h1, h2, h3, h4, _, h6, _⟩ := readBytes_rest n d (xferOut bs (beginTx s))
  refine ⟨?_, ?_, ?_, ?_, rfl, ?_⟩ <;> simp [readChunk, *]

theorem programFrame_seqState (bs : List Byte) (d n : Nat) (s : State) :
    (Code.programFrame bs d n s).seqState = s.seqState := by
  obtain ⟨_, _, h3, _⟩ := programBytes_rest n d (xferOut bs (beginTx s))
  simp [Code.programFrame, h3]

section
variable {s u : State} {q : Instr} {buf len a rem cur : Word}

/-- The `ADDR` and `CHUNK` a data frame is built from. -/
theorem frameAt_readChunk {c : Word} {f : Instr} (ops : List Micro) (ha : s.holds .addr a) (hc : s.holds .chunk c)
    (hf : readFrame s.cfg a c = some f) : frameAt .readChunk (s.setPc ops) = .ok f := by
  simp only [frameAt, State.readReg_setPc, ha.readReg, hc.readReg, State.setPc_cfg, hf]

theorem frameAt_programChunk {c : Word} {f : Instr} (ops : List Micro) (ha : s.holds .addr a) (hc : s.holds .chunk c)
    (hf : Machine.programFrame s.cfg a c = some f) : frameAt .programChunk (s.setPc ops) = .ok f := by
  simp only [frameAt, State.readReg_setPc, ha.readReg, hc.readReg, State.setPc_cfg, hf]

/-- One turn of READ_DATA's loop. -/
theorem readTurn_reaches (rest : List Micro) (h : AtLoop s q buf len a rem cur) (hr : rem ≠ 0) :
    let c := chunkLength s.cfg.pageSize a rem
    let u := advance a rem cur c ((readChunk (cmdRead s.cfg :: addrBytes s.cfg a) (buf.toNat + cur.toNat) c.toNat
      (s.writeReg .chunk c)).dropLocal .r)
    Reaches (s.setPc (.prim (.chunkLoop .read) :: rest)) (u.setPc (.prim (.chunkLoop .read) :: rest))
      ∧ AtLoop u q buf len (a + c) (rem - c) (cur + c) := by
  intro c u
  set s1 := s.writeReg .chunk c with hs1
  have hb1 : s1.seqState = .busy := h.busy
  have ha1 : s1.holds .addr a := State.holds_writeReg_other h.addrIs (by decide)
  have hc1 : s1.holds .chunk c := State.holds_writeReg_same _ _ _
  have hcur1 : s1.holds .cur cur := State.holds_writeReg_other h.curIs (by decide)
  have hrem1 : s1.holds .rem rem := State.holds_writeReg_other h.remIs (by decide)
  have hle : c.toNat ≤ rem.toNat := chunkLength_le s.cfg.pageSize a rem
  have ht := h.total
  have hf := h.fits
  have hbuf : chunkBuffer s1 c = .ok (buf.toNat + cur.toNat) :=
    chunkBuffer_eq (q := q) h.current h.buffer hcur1 (by omega) (by omega)
  obtain ⟨f, hf1, hf2, hf3⟩ := addrBytes_header_read s.cfg h.ok a c s.par.cmdWriteStatus
  obtain ⟨m, hm, hmr⟩ := receiveFrame_reaches (s := s1)
    (.prim (.dropLocal .r) :: .prim .advance :: .prim (.chunkLoop .read) :: rest) f hb1 h.cs hbuf (by omega)
  have hread : Reaches
      (s1.setPc (.frame .readChunk :: .prim (.dropLocal .r) :: .prim .advance :: .prim (.chunkLoop .read) :: rest))
      ((readChunk (cmdRead s.cfg :: addrBytes s.cfg a) (buf.toNat + cur.toNat) c.toNat s1).setPc
        (.prim (.dropLocal .r) :: .prim .advance :: .prim (.chunkLoop .read) :: rest)) := by
    refine Reaches.head (t := m) ?_ ?_
    · rw [seqStep_frame hb1, frameAt_readChunk _ ha1 hc1 hf1]
      exact (hf3 _).trans hm
    · rw [← hf2]; exact hmr
  obtain ⟨r1, r2, r3, r4, r5, r6⟩ :=
    readChunk_rest (cmdRead s.cfg :: addrBytes s.cfg a) (buf.toNat + cur.toNat) c.toNat s1
  refine ⟨?_, ?_⟩
  · refine (chunkLoop_enter .read rest h hr).trans ((nextChunk_reaches _ h).trans (hread.trans ?_))
    set v := readChunk (cmdRead s.cfg :: addrBytes s.cfg a) (buf.toNat + cur.toNat) c.toNat s1
    have r6' : (v.dropLocal .r).regs = s1.regs := r6
    refine Reaches.prim (t := (v.dropLocal .r).setPc _) (r3.trans hb1) rfl ?_
    exact advance_reaches _ (r3.trans hb1) ((State.holds_congr r6').2 ha1) ((State.holds_congr r6').2 hrem1)
      ((State.holds_congr r6').2 hcur1) ((State.holds_congr r6').2 hc1)
  · exact h.next (r3.trans hb1) r5 r1 r4

/-- READ_DATA's loop runs to its end. -/
theorem readLoop_reaches {k : Nat} (rest : List Micro) (h : AtLoop s q buf len a rem cur)
    (hl : readLoop buf k a rem cur s = some u) :
    Reaches (s.setPc (.prim (.chunkLoop .read) :: rest)) (u.setPc rest) ∧ u.seqState = .busy ∧ u.cs = .high := by
  induction k generalizing s a rem cur with
  | zero =>
    simp only [readLoop] at hl
    split at hl
    · simp only [Option.some.injEq] at hl
      subst hl
      exact ⟨chunkLoop_exit _ _ h ‹_›, h.busy, h.cs⟩
    · cases hl
  | succ k ih =>
    simp only [readLoop] at hl
    split at hl
    · simp only [Option.some.injEq] at hl
      subst hl
      exact ⟨chunkLoop_exit _ _ h ‹_›, h.busy, h.cs⟩
    · obtain ⟨h1, h2⟩ := readTurn_reaches rest h ‹_›
      obtain ⟨h3, h4⟩ := ih h2 hl
      exact ⟨h1.trans h3, h4⟩

/-- READ_DATA's loop ends within as many chunks as there are bytes. -/
theorem readLoop_ends {k : Nat} (hp : s.cfg.pageSize ≠ 0) (hk : rem.toNat ≤ k) :
    ∃ u, readLoop buf k a rem cur s = some u := by
  induction k generalizing s a rem cur with
  | zero =>
    have : rem = 0 := BitVec.eq_of_toNat_eq (by simpa using hk)
    exact ⟨s, by simp [readLoop, this]⟩
  | succ k ih =>
    by_cases hr : rem = 0
    · exact ⟨s, by simp [readLoop, hr]⟩
    · have h1 := chunkLength_pos (a := a) hp hr
      have h2 := chunkLength_le s.cfg.pageSize a rem
      simp only [readLoop, if_neg hr]
      refine ih ?_ ?_
      · simpa [advance, (readChunk_rest _ _ _ _).1] using hp
      · rw [BitVec.toNat_sub_of_le h2]; omega

/-- One turn of WRITE_DATA's loop. -/
theorem writeTurn_reaches {fuel : Nat} {s2 : State} (rest : List Micro) (h : AtLoop s q buf len a rem cur) (hr : rem ≠ 0)
    (hp : programChunk fuel a (chunkLength s.cfg.pageSize a rem) (buf.toNat + cur.toNat)
      (s.writeReg .chunk (chunkLength s.cfg.pageSize a rem)) = some s2) :
    let c := chunkLength s.cfg.pageSize a rem
    Reaches (s.setPc (.prim (.chunkLoop .write) :: rest))
        ((advance a rem cur c s2).setPc (.prim (.chunkLoop .write) :: rest))
      ∧ AtLoop (advance a rem cur c s2) q buf len (a + c) (rem - c) (cur + c) := by
  intro c
  change programChunk fuel a c (buf.toNat + cur.toNat) (s.writeReg .chunk c) = some s2 at hp
  set s1 := s.writeReg .chunk c with hs1
  have hb1 : s1.seqState = .busy := h.busy
  have ha1 : s1.holds .addr a := State.holds_writeReg_other h.addrIs (by decide)
  have hc1 : s1.holds .chunk c := State.holds_writeReg_same _ _ _
  have hcur1 : s1.holds .cur cur := State.holds_writeReg_other h.curIs (by decide)
  have hrem1 : s1.holds .rem rem := State.holds_writeReg_other h.remIs (by decide)
  have hle : c.toNat ≤ rem.toNat := chunkLength_le s.cfg.pageSize a rem
  have ht := h.total
  have hf := h.fits
  simp only [programChunk, Option.bind_eq_some_iff] at hp
  obtain ⟨w1, hw1, hw2⟩ := hp
  let tail2 : List Micro := [.prim .advance, .prim (.chunkLoop .write)] ++ rest
  let tail1 : List Micro := .frame .programChunk :: (waitOps .program ++ tail2)
  obtain ⟨p1, k1, b1, cs1, _, _⟩ := wait_reaches (wrenOps ++ tail1) hb1 h.cs hw1
  obtain ⟨p2, k2, b2, cs2⟩ := wren_reaches tail1 b1 cs1
  have k12 : KeepsRange s1 (wren w1) := k1.trans k2
  set w2 := wren w1
  have hx {r : Reg} {v : Word} (t : State) (hk : KeepsRange s1 t) (hrr : r = .addr ∨ r = .rem ∨ r = .cur ∨ r = .chunk)
      (hv : s1.holds r v) : t.holds r v := by
    unfold State.holds RegFile.get at *
    rcases hrr with rfl | rfl | rfl | rfl
    · simpa [hk.addr] using hv
    · simpa [hk.rem] using hv
    · simpa [hk.cur] using hv
    · simpa [hk.chunk] using hv
  have hbuf : chunkBuffer w2 c = .ok (buf.toNat + cur.toNat) :=
    chunkBuffer_eq (q := q) (by rw [k12.current]; exact h.current) h.buffer (hx w2 k12 (by simp) hcur1) (by omega)
      (by omega)
  obtain ⟨f, hf1, hf2, hf3⟩ := addrBytes_header_program s1.cfg h.ok a c w2.par.cmdWriteStatus
  obtain ⟨m, hm, hmr⟩ := programFrom_reaches (s := w2) (waitOps .program ++ tail2) f b2 cs2 hbuf (by omega)
  have hprog : Reaches (w2.setPc tail1)
      ((Code.programFrame (cmdProg s1.cfg :: addrBytes s1.cfg a) (buf.toNat + cur.toNat) c.toNat w2).setPc
        (waitOps .program ++ tail2)) := by
    refine Reaches.head (t := m) ?_ ?_
    · rw [seqStep_frame b2, frameAt_programChunk _ (hx w2 k12 (by simp) ha1) (hx w2 k12 (by simp) hc1)
        (by rw [k12.cfg]; exact hf1)]
      exact (hf3 _).trans hm
    · rw [← hf2]; exact hmr
  have k3 := k12.trans (KeepsRange.programFrame (cmdProg s1.cfg :: addrBytes s1.cfg a) (buf.toNat + cur.toNat) c.toNat w2)
  have b3 := (programFrame_seqState (cmdProg s1.cfg :: addrBytes s1.cfg a) (buf.toNat + cur.toNat) c.toNat w2).trans b2
  obtain ⟨p4, k4, b4, cs4, _, _⟩ := wait_reaches tail2 b3 rfl hw2
  have k5 := k3.trans k4
  refine ⟨?_, h.next b4 cs4 k5.cfg k5.current⟩
  refine (chunkLoop_enter .write rest h hr).trans ((nextChunk_reaches _ h).trans ?_)
  have hbody (x : State) : x.setPc (((waitOps (.arg 0) ++ wrenOps ++ .frame .programChunk :: waitOps .program
      ++ [.prim .advance, .prim (.chunkLoop .write)]) : List Micro).append rest)
        = x.setPc (waitOps (.arg 0) ++ (wrenOps ++ tail1)) := by
    simp [tail1, tail2]
  rw [hbody]
  refine p1.trans (p2.trans (hprog.trans (p4.trans ?_)))
  exact advance_reaches _ b4 (hx _ k5 (by simp) ha1) (hx _ k5 (by simp) hrem1) (hx _ k5 (by simp) hcur1)
    (hx _ k5 (by simp) hc1)

/-- WRITE_DATA's loop runs to its end. -/
theorem writeLoop_reaches {k fuel : Nat} (rest : List Micro) (h : AtLoop s q buf len a rem cur)
    (hl : writeLoop fuel buf k a rem cur s = some u) :
    Reaches (s.setPc (.prim (.chunkLoop .write) :: rest)) (u.setPc rest) ∧ u.seqState = .busy ∧ u.cs = .high := by
  induction k generalizing s a rem cur with
  | zero =>
    simp only [writeLoop] at hl
    split at hl
    · simp only [Option.some.injEq] at hl
      subst hl
      exact ⟨chunkLoop_exit _ _ h ‹_›, h.busy, h.cs⟩
    · cases hl
  | succ k ih =>
    simp only [writeLoop] at hl
    split at hl
    · simp only [Option.some.injEq] at hl
      subst hl
      exact ⟨chunkLoop_exit _ _ h ‹_›, h.busy, h.cs⟩
    · simp only [Option.bind_eq_some_iff] at hl
      obtain ⟨s2, hs2, hl⟩ := hl
      obtain ⟨h1, h2⟩ := writeTurn_reaches rest h ‹_› hs2
      obtain ⟨h3, h4⟩ := ih h2 hl
      exact ⟨h1.trans h3, h4⟩

end

end Sys2Proof.Machine
end

