-- ==== Sys2Proof/Laws/Memory.lean ====
section
/-! SUPPORT. The host buffer space: a read after a write, and that every write keeps the canonical form. -/

namespace Sys2Proof.Machine.Memory

@[simp] theorem read_nil (x : Nat) : read [] x = Config.hostFill := rfl

/-- A byte below every listed address reads as the fill byte. -/
theorem read_below {m : Memory} {lo x : Nat} (h : wfFrom lo m = true) (hx : x < lo) : read m x = Config.hostFill := by
  induction m generalizing lo with
  | nil => rfl
  | cons c rest ih =>
    obtain ⟨a, b⟩ := c
    simp only [wfFrom, Bool.and_eq_true, decide_eq_true_eq] at h
    have hne : a ≠ x := by omega
    simp only [read, if_neg hne]
    exact ih h.2 (by omega)

/-- Reading where a byte was written gives that byte. -/
theorem read_write_same {m : Memory} {lo x : Nat} {v : Byte} (h : wfFrom lo m = true) : read (write m x v) x = v := by
  induction m generalizing lo with
  | nil =>
    unfold write
    split
    · simp [*]
    · simp [read]
  | cons c rest ih =>
    obtain ⟨a, b⟩ := c
    have hw := h
    simp only [wfFrom, Bool.and_eq_true, decide_eq_true_eq] at h
    unfold write
    split
    · rename_i hlt
      split
      · rename_i hv
        rw [hv]
        have hne : a ≠ x := by omega
        simp only [read, if_neg hne]
        exact read_below h.2 (by omega)
      · simp [read]
    · split
      · rename_i heq
        subst heq
        split
        · rename_i hv
          rw [hv]
          exact read_below h.2 (by omega)
        · simp [read]
      · have hne : a ≠ x := by omega
        simp only [read, if_neg hne]
        exact ih h.2

/-- A write leaves every other byte as it was. -/
theorem read_write_other {m : Memory} {x y : Nat} {v : Byte} (hne : y ≠ x) : read (write m x v) y = read m y := by
  induction m with
  | nil =>
    unfold write
    split
    · rfl
    · simp [read, Ne.symm hne]
  | cons c rest ih =>
    obtain ⟨a, b⟩ := c
    unfold write
    split
    · split
      · rfl
      · simp [read, Ne.symm hne]
    · split
      · rename_i heq
        subst heq
        split <;> simp [read, Ne.symm hne]
      · by_cases hay : a = y <;> simp [read, hay, ih]

/-- A memory in canonical form above `lo` is so above anything lower. -/
theorem wfFrom_mono {m : Memory} {lo lo' : Nat} (h : wfFrom lo m = true) (hle : lo' ≤ lo) : wfFrom lo' m = true := by
  cases m with
  | nil => rfl
  | cons c rest =>
    obtain ⟨a, b⟩ := c
    simp only [wfFrom, Bool.and_eq_true, decide_eq_true_eq] at h ⊢
    exact ⟨⟨⟨by omega, h.1.1.2⟩, h.1.2⟩, h.2⟩

/-- A write inside the address space keeps the canonical form. -/
theorem wfFrom_write {m : Memory} {lo x : Nat} {v : Byte} (h : wfFrom lo m = true) (hlo : lo ≤ x) (hx : x < 2 ^ 32) :
    wfFrom lo (write m x v) = true := by
  induction m generalizing lo with
  | nil =>
    unfold write
    split
    · rfl
    · rename_i hv
      simp [-Nat.reducePow, wfFrom, hlo, hx, hv]
  | cons c rest ih =>
    obtain ⟨a, b⟩ := c
    have hw := h
    simp only [wfFrom, Bool.and_eq_true, decide_eq_true_eq] at h
    obtain ⟨⟨⟨h1, h2⟩, h3⟩, h4⟩ := h
    unfold write
    split
    · rename_i hlt
      split
      · exact hw
      · rename_i hv
        simp [-Nat.reducePow, wfFrom, hlo, hx, hv, h2, h3, h4, Nat.succ_le_of_lt hlt]
    · split
      · rename_i heq
        subst heq
        split
        · exact wfFrom_mono h4 (by omega)
        · rename_i hv
          simp [-Nat.reducePow, wfFrom, hlo, hx, hv, h4]
      · have hr := ih h4 (by omega)
        simp [-Nat.reducePow, wfFrom, h1, h2, h3, hr]

/-- A write inside the address space keeps the canonical form. -/
theorem wf_write {m : Memory} {x : Nat} {v : Byte} (h : wf m = true) (hx : x < 2 ^ 32) : wf (write m x v) = true :=
  wfFrom_write h (Nat.zero_le _) hx

/-- Reading where a byte was written gives that byte. -/
theorem wf_read_write_same {m : Memory} {x : Nat} {v : Byte} (h : wf m = true) : read (write m x v) x = v :=
  read_write_same h

theorem read_head {a : Nat} {b : Byte} {rest : Memory} : read ((a, b) :: rest) a = b := by simp [read]

/-- Two memories in canonical form that read alike are equal. -/
theorem ext_of_read {m m' : Memory} {lo lo' : Nat} (h : wfFrom lo m = true) (h' : wfFrom lo' m' = true)
    (hr : ∀ x, read m x = read m' x) : m = m' := by
  induction m generalizing lo lo' m' with
  | nil =>
    cases m' with
    | nil => rfl
    | cons c' rest' =>
      obtain ⟨a', b'⟩ := c'
      simp only [wfFrom, Bool.and_eq_true, bne_iff_ne] at h'
      exact absurd (by rw [← read_head (a := a') (b := b') (rest := rest'), ← hr]; rfl) h'.1.2
  | cons c rest ih =>
    obtain ⟨a, b⟩ := c
    simp only [wfFrom, Bool.and_eq_true, decide_eq_true_eq, bne_iff_ne] at h
    cases m' with
    | nil => exact absurd (by rw [← read_head (a := a) (b := b) (rest := rest), hr]; rfl) h.1.2
    | cons c' rest' =>
      obtain ⟨a', b'⟩ := c'
      simp only [wfFrom, Bool.and_eq_true, decide_eq_true_eq, bne_iff_ne] at h'
      have haa : a = a' := by
        rcases Nat.lt_trichotomy a a' with hlt | heq | hgt
        · have h1 := hr a
          rw [read_head, read, if_neg (by omega), read_below h'.2 (by omega)] at h1
          exact absurd h1 h.1.2
        · exact heq
        · have h1 := hr a'
          rw [read_head, read, if_neg (by omega), read_below h.2 (by omega)] at h1
          exact absurd h1.symm h'.1.2
      subst haa
      have hbb : b = b' := by
        have h1 := hr a
        rwa [read_head, read_head] at h1
      subst hbb
      have hrest : rest = rest' := by
        refine ih h.2 h'.2 fun x => ?_
        by_cases hx : a = x
        · subst hx
          rw [read_below h.2 (by omega), read_below h'.2 (by omega)]
        · have h1 := hr x
          rwa [read, if_neg hx, read, if_neg hx] at h1
      rw [hrest]

end Sys2Proof.Machine.Memory
end

