-- ==== Sys2Proof/Laws/Spans.lean ====
section
/-! SUPPORT. A wait that goes a given way (`Span.ok`) returns, and records that way's events; and every wait that returns
has gone some way (R102, R104). -/

namespace Sys2Proof.Machine

open Code

theorem wip_setWidth (b : Byte) : wip (b.setWidth 32) = b.getLsbD 0 := by
  simp [wip]

theorem idleAt_eq (s : State) (k : Nat) : idleAt s k = !wip ((s.chipDraw (k + 1)).setWidth 32) := by
  rw [wip_setWidth]; rfl

/-- How the loop of `Wait` ends after `n` busy polls. -/
def pollEnd (s : State) (t start : Word) (n : Nat) (timedOut : Bool) : Bool :=
  if timedOut then !idleAt s (2 * n) && decide (t ≤ elapsed (s.clockDraw n) start) else idleAt s (2 * n)

theorem pollLoop_mono {t start : Word} {n m : Nat} {s u : State} (h : pollLoop t start n s = some u) (hle : n ≤ m) :
    pollLoop t start m s = some u := by
  induction n generalizing m s with
  | zero => cases h
  | succ n ih =>
    obtain ⟨m, rfl⟩ : ∃ k, m = k + 1 := ⟨m - 1, by omega⟩
    simp only [pollLoop] at h ⊢
    split
    · rename_i hw; rw [if_pos hw] at h; exact h
    · rename_i hw
      rw [if_neg hw] at h
      split
      · rename_i ht; rw [if_pos ht] at h; exact h
      · rename_i ht; rw [if_neg ht] at h; exact ih h (by omega)

theorem wait_mono {w : Timeout} {n m : Nat} {s u : State} (h : wait n w s = some u) (hle : n ≤ m) :
    wait m w s = some u := pollLoop_mono h hle

theorem statusRead_regs_s (s : State) :
    (statusRead s).regs.s = { value := some ((s.chipDraw 1).setWidth 32), fresh := true } := by
  rw [statusRead_regs]; rfl

/-- The loop, when it goes a given way. -/
theorem pollLoop_of_polls {t start : Word} (n : Nat) (timedOut : Bool) (s : State)
    (hn : pollsOn s t start 0 0 n = true) (he : pollEnd s t start n timedOut = true) :
    ∃ u, pollLoop t start (n + 1) s = some u
      ∧ Did s u (pollEvents s t 0 0 n ++ if timedOut then [.clock (s.clockDraw n)] else []) (2 * (n + 1))
          (n + if timedOut then 1 else 0)
      ∧ u.regs.s = { value := some ((s.chipDraw (2 * n + 1)).setWidth 32), fresh := true } := by
  induction n generalizing s with
  | zero =>
    have h := Did.statusRead s
    simp only [pollLoop]
    cases timedOut with
    | false =>
      simp only [pollEnd, Bool.false_eq_true, if_false, idleAt_eq, Bool.not_eq_true'] at he
      simp only [Nat.mul_zero, Nat.zero_add] at he
      refine ⟨_, if_pos he, ?_, statusRead_regs_s s⟩
      simpa [pollEvents] using h
    | true =>
      simp only [pollEnd, if_true, idleAt_eq, Bool.not_not, Bool.and_eq_true, decide_eq_true_eq] at he
      simp only [Nat.mul_zero, Nat.zero_add] at he
      refine ⟨(statusRead s).readClock, ?_, ?_, statusRead_regs_s s⟩
      · rw [if_neg (by simp [he.1]), if_pos (by simpa [h.clock] using he.2)]
      · refine (h.trans (Did.readClock _)).cast ?_ rfl rfl
        simp [pollEvents, h.clock]
  | succ n ih =>
    have h := Did.statusRead s
    simp only [pollsOn, Bool.and_eq_true, decide_eq_true_eq, idleAt_eq, Bool.not_not, Nat.zero_add] at hn
    obtain ⟨⟨hb, hlt⟩, hrest⟩ := hn
    have hpar : s.par = (statusRead s).par := h.par.symm
    have hd := (h.trans (Did.readClock (statusRead s))).trans (Did.record (statusRead s).readClock (pauseEvent s t))
    have hn' : pollsOn ((statusRead s).readClock.record (pauseEvent s t)) t start 0 0 n = true := by
      rw [hd.pollsOn]; simpa using hrest
    have he' : pollEnd ((statusRead s).readClock.record (pauseEvent s t)) t start n timedOut = true := by
      rw [← he]
      simp only [pollEnd, hd.idleAt, hd.clock]
      rw [show 2 + 0 + 0 + 2 * n = 2 * (n + 1) by omega, show 0 + 1 + 0 + n = n + 1 by omega]
    obtain ⟨u, hu, hdu, hs⟩ := ih _ hn' he'
    refine ⟨u, ?_, ?_, ?_⟩
    · have hne : ¬ t ≤ elapsed ((statusRead s).clockDraw 0) start := by
        rw [h.clock, BitVec.le_def]
        rw [BitVec.lt_def] at hlt
        simp only [Nat.add_zero]
        omega
      have hw : ¬ wip ((s.chipDraw 1).setWidth 32) = false := by simp [hb]
      rw [pollLoop]
      exact (if_neg hw).trans ((if_neg hne).trans hu)
    · refine (hd.trans hdu).cast ?_ (by omega) (by omega)
      rw [hd.pollEvents, hd.clock]
      simp [pollEvents, h.clock, Nat.add_comm]
    · rw [hs, hd.chip]
      rw [show 2 + 0 + 0 + (2 * n + 1) = 2 * (n + 1) + 1 by omega]

/-- The loop goes some way whenever it returns. -/
theorem polls_of_pollLoop {t start : Word} {fuel : Nat} {s u : State} (h : pollLoop t start fuel s = some u) :
    ∃ n timedOut, n < fuel ∧ pollsOn s t start 0 0 n = true ∧ pollEnd s t start n timedOut = true := by
  induction fuel generalizing s with
  | zero => cases h
  | succ fuel ih =>
    have hr := Did.statusRead s
    simp only [pollLoop] at h
    split at h
    · rename_i hw
      exact ⟨0, false, by omega, rfl, by simp [pollEnd, idleAt_eq, hw]⟩
    · rename_i hw
      have hw' : wip ((s.chipDraw 1).setWidth 32) = true := by simpa using hw
      split at h
      · rename_i hle
        rw [hr.clock] at hle
        exact ⟨0, true, by omega, rfl, by simpa [pollEnd, idleAt_eq, hw'] using hle⟩
      · rename_i hle
        rw [hr.clock] at hle
        have hd := (hr.trans (Did.readClock (statusRead s))).trans
          (Did.record (statusRead s).readClock (pauseEvent s t))
        obtain ⟨n, b, hn, hp, he⟩ := ih (s := (statusRead s).readClock.record (pauseEvent s t)) h
        refine ⟨n + 1, b, by omega, ?_, ?_⟩
        · rw [hd.pollsOn] at hp
          simp only [pollsOn, Bool.and_eq_true, decide_eq_true_eq, idleAt_eq, Bool.not_not, Nat.zero_add, hw']
          refine ⟨⟨trivial, ?_⟩, by simpa using hp⟩
          rw [BitVec.le_def] at hle
          rw [BitVec.lt_def]
          simpa using hle
        · simp only [pollEnd, hd.idleAt, hd.clock] at he
          rw [show 2 + 0 + 0 + 2 * n = 2 * (n + 1) by omega, show 0 + 1 + 0 + n = n + 1 by omega] at he
          exact he

/-- The loop returns if the clock reaches the timeout. -/
theorem pollLoop_ends {t start : Word} {k : Nat} {s : State} (h : t ≤ elapsed (s.clockDraw k) start) :
    ∃ u, pollLoop t start (k + 1) s = some u := by
  induction k generalizing s with
  | zero =>
    have hr := Did.statusRead s
    simp only [pollLoop]
    split
    · exact ⟨_, rfl⟩
    · rw [hr.clock, if_pos h]; exact ⟨_, rfl⟩
  | succ k ih =>
    have hr := Did.statusRead s
    have hd := (hr.trans (Did.readClock (statusRead s))).trans
      (Did.record (statusRead s).readClock (pauseEvent s t))
    rw [pollLoop]
    split
    · exact ⟨_, rfl⟩
    · split
      · exact ⟨_, rfl⟩
      · refine ih (s := (statusRead s).readClock.record (pauseEvent s t)) ?_
        rw [hd.clock, show 0 + 1 + 0 + k = k + 1 by omega]
        exact h

/-- What `Wait` did before its loop. -/
theorem Did.waitHead (s : State) (eff now : Word) :
    Did s ((s.writeReg .t eff).readClock.writeReg .start now) [.clock (s.clockDraw 0)] 0 1 :=
  ((Did.writeReg s .t eff).trans ((Did.readClock _).trans (Did.writeReg _ .start now))).cast (by simp) rfl rfl

/-- A `Wait` that goes the way `p` returns and records the events of `p`. -/
theorem wait_of_span {p : Span} {w : Timeout} {s : State} (h : p.ok s (waitTimeout s w) 0 0 = true) :
    ∃ u, wait (p.polls + 1) w s = some u
      ∧ Did s u (p.events s (waitTimeout s w) 0 0) p.bytes p.clocks
      ∧ u.regs.s = { value := some ((s.chipDraw (2 * p.polls + 1)).setWidth 32), fresh := true } := by
  have hd := Did.waitHead s (waitTimeout s w) (s.clockDraw 0)
  simp only [Span.ok, Nat.zero_add, Bool.and_eq_true] at h
  have h1 : pollsOn ((s.writeReg .t (waitTimeout s w)).readClock.writeReg .start (s.clockDraw 0)) (waitTimeout s w)
      (s.clockDraw 0) 0 0 p.polls = true := by
    rw [hd.pollsOn]; exact h.1
  have h2 : pollEnd ((s.writeReg .t (waitTimeout s w)).readClock.writeReg .start (s.clockDraw 0)) (waitTimeout s w)
      (s.clockDraw 0) p.polls p.timedOut = true := by
    rw [← h.2]
    simp only [pollEnd, hd.idleAt, hd.clock, Nat.zero_add]
  obtain ⟨u, hu, hdu, hs⟩ := pollLoop_of_polls _ _ _ h1 h2
  refine ⟨u, hu, ?_, by rw [hs, hd.chip, Nat.zero_add]⟩
  refine (hd.trans hdu).cast ?_ (by simp [Span.bytes]) (by simp only [Span.clocks]; omega)
  rw [hd.pollEvents, hd.clock]
  simp [Span.events, Nat.add_comm]

/-- A `Wait` that returns has gone some way. -/
theorem span_of_wait {fuel : Nat} {w : Timeout} {s u : State} (h : wait fuel w s = some u) :
    ∃ p : Span, p.polls < fuel ∧ p.ok s (waitTimeout s w) 0 0 = true := by
  have hd := Did.waitHead s (waitTimeout s w) (s.clockDraw 0)
  obtain ⟨n, b, hn, hp, he⟩ := polls_of_pollLoop h
  refine ⟨⟨n, b⟩, hn, ?_⟩
  have h1 := hd.pollsOn (waitTimeout s w) (s.clockDraw 0) 0 0 n
  have hp' : pollsOn ((s.writeReg .t (waitTimeout s w)).readClock.writeReg .start (s.clockDraw 0)) (waitTimeout s w)
      (s.clockDraw 0) 0 0 n = true := hp
  have he' : pollEnd ((s.writeReg .t (waitTimeout s w)).readClock.writeReg .start (s.clockDraw 0)) (waitTimeout s w)
      (s.clockDraw 0) n b = true := he
  rw [h1] at hp'
  simp only [pollEnd, hd.idleAt, hd.clock, Nat.zero_add] at he'
  simp only [Span.ok, Nat.zero_add, Bool.and_eq_true]
  exact ⟨hp', he'⟩

/-- A `Wait` returns if the clock reaches its timeout. -/
theorem wait_ends {w : Timeout} {k : Nat} {s : State}
    (h : waitTimeout s w ≤ elapsed (s.clockDraw (k + 1)) (s.clockDraw 0)) : ∃ u, wait (k + 1) w s = some u := by
  have hd := Did.waitHead s (waitTimeout s w) (s.clockDraw 0)
  refine pollLoop_ends (s := (s.writeReg .t (waitTimeout s w)).readClock.writeReg .start (s.clockDraw 0)) ?_
  rw [hd.clock, Nat.add_comm]
  exact h

end Sys2Proof.Machine
end

