-- ==== Sys2Proof/Tests/Slice0.lean ====
section
/-! SUPPORT. Tests. Expected results are taken from the encoding tables of 30_encoding.md and from the worked vectors of
95_test_vectors.md (named in each comment), not from the model. The second half shows, for every obligation with
hypotheses, states and operands that meet them. -/

namespace Sys2Proof.Tests

open Sys2Proof Sys2Proof.Machine

/-! ### Helpers -/

/-- The base configuration of 95_test_vectors.md section 0. -/
def base : Cfg := Config.resetCfg

/-- The base configuration in 4-byte mode. -/
def base4 : Cfg := { base with addrBytes := 4 }

/-- The base configuration on a shared bus with a settle delay (vector B8). -/
def baseShared : Cfg := { base with shared := true, sharedSettleUs := 3 }

/-- The base configuration with every timeout 0. -/
def noTimeouts : Cfg := { base with waitDefaultMs := 0, ppTimeoutMs := 0, seTimeoutMs := 0, bceTimeoutMs := 0 }

/-- An initialized sequencer: the state INIT leaves. -/
def idle (c : Cfg) : State :=
  { State.construct c Config.resetParams with
    seqState := .idle, cs := .high, transport := some c.bus
    trace := if c.shared then [.csHigh] else [.csHigh, .apply c.bus] }

/-- The same with the oracles' next draws scripted. -/
def scripted (c : Cfg) (chip : List Byte) (clock : List Word) : State := { idle c with chipIn := chip, clockIn := clock }

/-- A request running in `s`, at `ops`. -/
def running (s : State) (i : Instr) (ops : List Micro) : State :=
  { s with seqState := .busy, current := some i, pc := some ops }

/-- A register the current request has written. -/
def written (v : Word) : RegCell := { value := some v, fresh := true }

/-- The next state, if there is one. -/
def nextOf : Out → Option State
  | .next t => some t
  | .fault _ => none
  | .refused _ => none

/-- The fault a step stops with, if it stops. -/
def faultOf : Out → Option Fault
  | .next _ => none
  | .fault f => some f
  | .refused _ => none

/-- The state a request is at, `k` steps of the sequencer after it was taken. -/
def ran (k : Nat) (o : Out) : Option State := (nextOf o).bind fun t => nextOf (seqRun k t)

/-- The events one step adds. -/
def added (s : State) (o : Out) : Option (List Event) := (nextOf o).map fun t => t.trace.drop s.trace.length

/-- The fault code one step leaves. -/
def codeOf (o : Out) : Option Byte := (nextOf o).bind State.faultCode

/-- READ_DATA of `n` bytes to `buf`, running, `CUR` at `cur`. -/
def reading (c : Cfg) (n buf cur : Word) : State :=
  { running (idle c) (.readData 0 n buf) [.prim (.respond .nothing)] with
    regs := { RegFile.empty with addr := written 0, rem := written n, cur := written cur, chunk := written n } }

/-! ### Well-formedness: each check refuses an ill-formed term (R67, R70, R81) -/

theorem test_wf_empty_read3 : (Instr.spiRead3 0 0).wellFormed = false := by decide
theorem test_wf_empty_read4 : (Instr.spiRead4 0 0).wellFormed = false := by decide
theorem test_wf_empty_program3 : (Instr.spiProgram3 0 0).wellFormed = false := by decide
theorem test_wf_empty_program4 : (Instr.spiProgram4 0 0).wellFormed = false := by decide
theorem test_wf_reserved_below_range : (Instr.reservedOp 0x0F).wellFormed = false := by decide
theorem test_wf_reserved_bounds : (Instr.reservedOp 0x10).wellFormed = true ∧ (Instr.reservedOp 0xFF).wellFormed = true := by
  decide
theorem test_fits_other_mode :
    (Instr.spiSectorErase4 0).fits base = false ∧ (Instr.spiBlockErase3 0).fits base4 = false
      ∧ (Instr.spiRead4 0 1).fits base = false ∧ (Instr.spiProgram3 0 1).fits base4 = false := by decide
theorem test_fits_chunk_over_page : (Instr.spiProgram3 0 257).fits base = false ∧ (Instr.spiProgram3 0 256).fits base = true := by
  decide

/-! ### Decoding, words written out from R66 to R69 and R77 to R81 -/

theorem test_decode_fixed_frames :
    decodeFrame 0x01 [0b10011111, 0, 0, 0] = .ok .spiIdentify ∧ decodeFrame 0x01 [0b00000101, 0] = .ok .spiReadStatus
      ∧ decodeFrame 0x01 [0b00010101, 0] = .ok .spiReadConfig ∧ decodeFrame 0x01 [0b11000111] = .ok .spiChipErase
      ∧ decodeFrame 0x01 [0b00000110] = .ok .spiWriteEnable ∧ decodeFrame 0x01 [0b01100110] = .ok .spiResetEnable
      ∧ decodeFrame 0x01 [0b10011001] = .ok .spiReset ∧ decodeFrame 0x01 [0b10111001] = .ok .spiPowerDown
      ∧ decodeFrame 0x01 [0b10101011] = .ok .spiReleasePowerDown ∧ decodeFrame 0x01 [0x01, 0xFC] = .ok (.spiWriteStatus 0xFC) := by
  decide

/-- E1, E2, X1 to X6, D3, P-W2, P-W4. -/
theorem test_decode_addressed_frames :
    decodeFrame 0x01 [0x20, 0x12, 0x34, 0x56] = .ok (.spiSectorErase3 0x123456)
      ∧ decodeFrame 0x01 [0x21, 0x00, 0x12, 0x34, 0x56] = .ok (.spiSectorErase4 0x00123456)
      ∧ decodeFrame 0x01 [0xD8, 0x01, 0x00, 0x00] = .ok (.spiBlockErase3 0x010000)
      ∧ decodeFrame 0x01 [0xDC, 0x01, 0x02, 0x03, 0x04] = .ok (.spiBlockErase4 0x01020304)
      ∧ decodeFrame 0x01 [0x03, 0xFF, 0xFF, 0xFF, 0x00] = .ok (.spiRead3 0xFFFFFF 1)
      ∧ decodeFrame 0x01 [0x13, 0x01, 0x23, 0x46, 0x00, 0, 0] = .ok (.spiRead4 0x01234600 2)
      ∧ decodeFrame 0x01 [0x02, 0x00, 0x00, 0x10, 0xA1, 0xA2, 0xA3, 0xA4] = .ok (.spiProgram3 0x10 4)
      ∧ decodeFrame 0x01 [0x12, 0x01, 0x00, 0x00, 0x00, 0xC1] = .ok (.spiProgram4 0x01000000 1) := by decide

theorem test_decode_rejects :
    decodeFrame 0x01 [] = .error .emptyFrame ∧ decodeFrame 0x01 [0x9F, 0, 0] = .error (.badLength 0x9F)
      ∧ decodeFrame 0x01 [0x20, 0, 0, 0, 0] = .error (.badLength 0x20) ∧ decodeFrame 0x01 [0x03, 0, 0, 0] = .error (.badLength 0x03)
      ∧ decodeFrame 0x01 [0x52] = .error (.unknownCommand 0x52) := by decide

/-- The records of programs P1 to P4. -/
theorem test_decode_requests_plain :
    decodeRequest 0x0000000000000000000000000000000000 = .init ∧ decodeRequest 0x0000000000000000000000000000000001 = .identify
      ∧ decodeRequest 0x0000000000000000000000000000000002 = .validate
      ∧ decodeRequest 0x0000000000000000000000000000000003 = .readStatus
      ∧ decodeRequest 0x0000000000000000000000000000000004 = .readConfig
      ∧ decodeRequest 0x0000000000000000000000000000000007 = .writeEnable
      ∧ decodeRequest 0x000000000000000000000000000000000A = .chipErase
      ∧ decodeRequest 0x000000000000000000000000000000000B = .resetDevice
      ∧ decodeRequest 0x000000000000000000000000000000000C = .deepPowerDown
      ∧ decodeRequest 0x000000000000000000000000000000000D = .wake := by decide

theorem test_decode_requests_operands :
    decodeRequest 0x00000000000001FC000000000000000005 = .writeStatus 0xFC
      ∧ decodeRequest 0x0000000000000065000000000000000006 = .waitWrite 101
      ∧ decodeRequest 0x0000000000000000000000000123400008 = .sectorErase 0x01234000
      ∧ decodeRequest 0x0000000000000000000000000001000009 = .blockErase 0x00010000
      ∧ decodeRequest 0x00002000000000000000012C000000640E = .readData 100 300 0x2000
      ∧ decodeRequest 0x00001000000000000000012C000000640F = .writeData 100 300 0x1000
      ∧ decodeRequest 0x00000000000000000000000000000000FF = .reservedOp 0xFF := by decide

theorem test_table_words :
    decodeTableWord 8 0x9F = some .spiIdentify ∧ decodeTableWord 8 0x20 = some (.spiSectorErase3 0)
      ∧ decodeTableWord 8 0x13 = some (.spiRead4 0 1) ∧ decodeTableWord 8 0x05 = some (.writeStatus 0)
      ∧ decodeTableWord 136 0x0E = some (.readData 0 0 0) ∧ decodeTableWord 8 0x30 = some (.reservedOp 0x30) := by decide

/-- The assembly form of R82. -/
theorem test_assembly :
    Instr.assembly (.readData 100 300 8192) = some "READ_DATA 100, 300, 8192" ∧ Instr.assembly .pseudoWait = some "WAIT_WRITE 0" := by
  decide

/-! ### One step of each request (vectors B, G, F, D, P-W) -/

/-- B1 starts, F1, F2, F6. -/
theorem test_requests_at_reset :
    (nextOf (exec .init State.reset)).map State.seqState = some .busy ∧ codeOf (exec .readStatus State.reset) = some 0x03
      ∧ codeOf (exec (.reservedOp 0x10) State.reset) = some 0x02
      ∧ faultOf (exec .init (faultState State.reset 0x03)) = some .stuckFaulted := by decide

/-- B4, B5, B6, B7. -/
theorem test_init_configuration :
    codeOf (exec .init (State.construct { base with pageSize := 0 } Config.resetParams)) = some 0x04
      ∧ codeOf (exec .init (State.construct { base with pageSize := 48 } Config.resetParams)) = some 0x04
      ∧ codeOf (exec .init (State.construct { base with addrBytes := 2 } Config.resetParams)) = some 0x04
      ∧ codeOf (exec .init (State.construct { base with pageSize := 1 } Config.resetParams)) = none := by decide

/-- D5, D6, D7, D8, P-W5. -/
theorem test_data_ranges :
    codeOf (exec (.readData 0xFFFFFFFF 2 0) (idle base)) = some 0x05 ∧ codeOf (exec (.readData 0 2 0xFFFFFFFF) (idle base)) = some 0x05
      ∧ codeOf (exec (.readData 0 1 0xFFFFFFFF) (idle base)) = none ∧ codeOf (exec (.readData 0xFFFFFFF0 0 0) (idle base)) = none
      ∧ codeOf (exec (.writeData 0xFFFFFFFF 2 0) (idle base)) = some 0x05 := by decide

/-- F4, F5: the running request stands where it stood. -/
theorem test_busy_fault :
    (nextOf (exec .init { running (idle base) (.waitWrite 0) [.prim .pollTest] with cs := .low })).map
      (fun t => (t.faultCode, t.seqState, t.cs)) = some (some 0x01, .faulted, .low) := by decide

theorem test_accepted_requests :
    ([.identify, .validate, .readStatus, .readConfig, .writeStatus 0, .waitWrite 0, .writeEnable, .sectorErase 0, .blockErase 0,
      .chipErase, .resetDevice, .deepPowerDown, .wake] : List Instr).all
        (fun i => (nextOf (exec i (idle base))).map (fun t => (t.seqState, t.current, t.trace)) = some (.busy, some i, (idle base).trace))
      = true := by decide

/-! ### One step of each frame (R87) -/

theorem test_frames_open_exclusive :
    ([.spiIdentify, .spiReadStatus, .spiReadConfig, .spiSectorErase3 1, .spiSectorErase4 1, .spiBlockErase3 1, .spiBlockErase4 1,
      .spiChipErase, .spiWriteEnable, .spiResetEnable, .spiReset, .spiPowerDown, .spiReleasePowerDown, .spiWriteStatus 1,
      .spiRead3 0 2, .spiRead4 0 2, .spiProgram3 0 2, .spiProgram4 0 2] : List Instr).all
        (fun i => added (reading base 2 0x300 0) (exec i (reading base 2 0x300 0)) = some [.csLow]) = true := by decide

/-- B8. -/
theorem test_frame_opens_shared :
    added (reading baseShared 2 0 0) (exec .spiReadStatus (reading baseShared 2 0 0)) = some [.apply base.bus] := by decide

/-- R89, U7. -/
theorem test_frame_inside_frame : faultOf (exec .spiReset { reading base 2 0 0 with cs := .low }) = some .nestedTransaction := by decide

/-! ### One step of each primitive -/

/-- G7: the second byte received is kept in `S`. -/
theorem test_xfer_status :
    (nextOf (execPrim (.xfer .dc .status) { reading base 2 0 0 with cs := .low, chipIn := [0x03] })).map
      (fun t => (t.regs.s, t.trace.getLast?)) = some (written 3, some (.xfer .dc 0x03)) := by decide

/-- D2: the byte is stored right after the exchange that received it. -/
theorem test_store_byte :
    (nextOf (execPrim (.storeIn 0x300 1) { reading base 2 0x300 0 with locals := { Locals.empty with r := some 0x11 } })).map
      (fun t => (t.mem.read 0x300, t.mem.read 0x301, t.trace.getLast?)) = some (0x11, 0, some (.memWrite 0x300 0x11)) := by decide

/-- R12: `r` has no value once `ReadChunk` has returned, and the other temporaries stay. -/
theorem test_local_ends :
    (nextOf (execPrim (.dropLocal .r) { reading base 2 0x300 0 with locals := { Locals.empty with r := some 0x11, c := some 0x22 } })).map
      (fun t => (t.locals, t.trace)) = some ({ Locals.empty with c := some 0x22 }, (idle base).trace) := by decide

/-- W1: `T = 10`, `START = 7`. -/
theorem test_wait_registers :
    (nextOf (execPrim (.waitBegin (.arg 0)) (reading base 2 0 0))).map (fun t => t.regs.t) = some (written 10)
      ∧ (nextOf (execPrim .readStart { reading base 2 0 0 with clockIn := [7] })).map (fun t => t.regs.start) = some (written 7) := by
  decide

/-- W3: elapsed 21 across the wrap ends the wait; W4, W5: spin at the threshold, yield above. -/
theorem test_wait_tests :
    (nextOf (execPrim .pollClock { reading base 2 0 0 with
        clockIn := [0x00000005], regs := { RegFile.empty with start := written 0xFFFFFFF0, t := written 20 } })).map
        (fun t => t.pc) = some (some [.prim (.respond .nothing)])
      ∧ (nextOf (execPrim .pollPause { reading base 2 0 0 with regs := { RegFile.empty with t := written 100 } })).map
        (fun t => t.trace.getLast?) = some (some .spin)
      ∧ (nextOf (execPrim .pollPause { reading base 2 0 0 with regs := { RegFile.empty with t := written 101 } })).map
        (fun t => t.trace.getLast?) = some (some .yield) := by decide

/-- Row (100, 300) of V-CHUNK: the first chunk is 156 bytes; then the advance. -/
theorem test_chunk_registers :
    (nextOf (execPrim .nextChunk { reading base 2 0 0 with
        regs := { RegFile.empty with addr := written 100, rem := written 300 } })).map (fun t => t.regs.chunk) = some (written 156)
      ∧ (nextOf (execPrim .advance { reading base 2 0 0 with
        regs := { RegFile.empty with addr := written 100, rem := written 300, cur := written 0, chunk := written 156 } })).map
        (fun t => (t.regs.addr, t.regs.rem, t.regs.cur)) = some (written 256, written 144, written 156) := by decide

/-- R25: a register the current request has not written stops the machine. -/
theorem test_stale_register : faultOf (execPrim .pollTest (reading base 2 0 0)) = some (.registerNoValue .s) := by decide

/-- G1: the response carries the three bytes, most significant first. -/
theorem test_respond_ident :
    (nextOf (execPrim (.respond .ident) { reading base 2 0 0 with
        locals := { Locals.empty with r1 := some 0xEF, r2 := some 0x40, r3 := some 0x18 } })).map
      (fun t => (t.result, t.seqState)) = some (some (.ident 0xEF4018), .idle) := by decide

/-- Equal memories are equal data: a write of the fill value removes the cell. -/
theorem test_memory_canonical :
    Memory.write (Memory.write [] 5 7) 5 0 = [] ∧ Memory.wf (Memory.write (Memory.write [] 9 1) 5 7) = true
      ∧ Memory.read (Memory.write [] 0xFFFFFFFF 0x5A) 0xFFFFFFFF = 0x5A := by decide

/-! ### The functions statements are made of, on the spec's vectors -/

/-- V-CHUNK. -/
theorem test_chunks :
    chunksOf 256 100 300 = [(100, 156), (256, 144)] ∧ chunksOf 256 255 2 = [(255, 1), (256, 1)] ∧ chunksOf 256 0 0 = []
      ∧ chunksOf 4 2 10 = [(2, 2), (4, 4), (8, 4)] ∧ chunksOf 1 5 3 = [(5, 1), (6, 1), (7, 1)] := by decide

/-- W3. -/
theorem test_wait_events :
    let s := scripted base [0xAA, 0x01, 0xAA, 0x01] [0xFFFFFFF0, 0xFFFFFFFA, 0x00000005]
    Span.ok ⟨1, true⟩ s 20 0 0 = true ∧ Span.ok ⟨0, true⟩ s 20 0 0 = false
      ∧ Span.events ⟨1, true⟩ s 20 0 0 =
        [.clock 0xFFFFFFF0, .csLow, .xfer (.byte 0x05) 0xAA, .xfer .dc 0x01, .csHigh, .clock 0xFFFFFFFA, .spin,
          .csLow, .xfer (.byte 0x05) 0xAA, .xfer .dc 0x01, .csHigh, .clock 0x00000005] := by decide

/-- X8, polls 00. -/
theorem test_erase_events :
    let s := scripted { base with weSettleUs := 7, seTimeoutMs := 0 } [0, 0, 0, 0, 0, 0, 0, 0, 0] [1, 2]
    eraseEvents s [0x20, 0x00, 0x00, 0x00] .sector ⟨0, false⟩ ⟨0, false⟩ =
        [.clock 1, .csLow, .xfer (.byte 0x05) 0, .xfer .dc 0, .csHigh, .csLow, .xfer (.byte 0x06) 0, .csHigh, .delayUs 7,
          .csLow, .xfer (.byte 0x20) 0, .xfer (.byte 0) 0, .xfer (.byte 0) 0, .xfer (.byte 0) 0, .csHigh,
          .clock 2, .csLow, .xfer (.byte 0x05) 0, .xfer .dc 0, .csHigh]
      ∧ waitTimeout s .sector = 10 := by decide

/-- D2. -/
theorem test_read_events :
    let s := scripted base [0xAA, 0xAA, 0xAA, 0xAA, 0x11, 0xAA, 0xAA, 0xAA, 0xAA, 0x22] []
    readEvents s 0 0x300 (chunksOf 256 0x00FFFFFF 2) =
        [.csLow, .xfer (.byte 0x03) 0xAA, .xfer (.byte 0xFF) 0xAA, .xfer (.byte 0xFF) 0xAA, .xfer (.byte 0xFF) 0xAA,
          .xfer .dc 0x11, .memWrite 0x300 0x11, .csHigh,
          .csLow, .xfer (.byte 0x03) 0xAA, .xfer (.byte 0) 0xAA, .xfer (.byte 0) 0xAA, .xfer (.byte 0) 0xAA,
          .xfer .dc 0x22, .memWrite 0x301 0x22, .csHigh]
      ∧ readBytesOf s 0 (chunksOf 256 0x00FFFFFF 2) = [0x11, 0x22] := by decide

/-! ### Witnesses: the hypotheses of each obligation are met -/

theorem test_wit_DecodeEncodeAgree :
    (0x01 : Byte) ∉ fixedCommands ∧ (Instr.spiRead3 0xFFFFFF 1).wellFormed = true ∧ (Instr.reservedOp 0x10).wellFormed = true := by
  decide

theorem test_wit_RequestRecordMeaning : 0x10 ≤ (0x10 : Byte).toNat ∧ 0x10 ≤ (0xFF : Byte).toNat := by decide

theorem test_wit_FrameDecodingIsExact : decodeFrame 0x01 [0x03, 1, 2, 3, 0x77, 0x88] = .ok (.spiRead3 0x010203 2) := by decide

theorem test_wit_AddressFieldBytes :
    base.addrBytes = 3 ∧ base4.addrBytes ≠ 3 ∧ (0xFF123456 : Word).extractLsb' 0 24 = (0x00123456 : Word).extractLsb' 0 24 := by
  decide

theorem test_wit_ModeSelectsVariant : cfgOk base = true ∧ cfgOk base4 = true := by decide

theorem test_wit_StepTakesRequest :
    State.reset.seqState ≠ .faulted
      ∧ ({ idle base with env := [.request 1] } : State).env = .request 1 :: []
      ∧ ({ idle base with env := [.requestWhenFree 1] } : State).env = .requestWhenFree 1 :: []
      ∧ (idle base).seqState ≠ .busy := by decide

/-- One clause each: a primitive, a fixed frame, a frame whose operands the registers hold. -/
theorem test_wit_StepRunsNextPosition :
    let s := running (idle base) .chipErase [.prim .readStart]
    let u := running (idle base) .chipErase [.frame (.fixed .spiChipErase)]
    let v := { reading base 2 0 0 with pc := some [.frame .readChunk] }
    s.seqState = .busy ∧ quiet s = true ∧ s.pc = some (.prim .readStart :: [])
      ∧ quiet u = true ∧ u.pc = some (.frame (.fixed .spiChipErase) :: [])
      ∧ quiet v = true ∧ v.pc = some (.frame .readChunk :: [])
      ∧ frameAt .readChunk { v with pc := some [] } = .ok (.spiRead3 0 2) := by decide

/-- One clause each: a request, a frame without data, a data frame. -/
theorem test_wit_StepRunsTableWord :
    State.reset.seqState ≠ .faulted ∧ decodeTableWord 8 0x00 = some .init ∧ Instr.isFrame .init = false
      ∧ decodeTableWord 8 0x9F = some .spiIdentify ∧ Instr.isFrame .spiIdentify = true ∧ chunkOperand .spiIdentify = 0
      ∧ decodeTableWord 8 0x13 = some (.spiRead4 0 1) ∧ chunkOperand (.spiRead4 0 1) ≠ 0 := by decide

/-- Each clause at a boundary: the range check just above 2^32, the first reserved code, a page size of 0. -/
theorem test_wit_RequestCheckPriority :
    Instr.isFrame .wake = false ∧ (faultState State.reset 1).seqState = .faulted ∧ (running (idle base) .wake []).seqState = .busy
      ∧ State.reset.seqState = .uninit ∧ (∀ op, Instr.wake ≠ .reservedOp op) ∧ Instr.wake ≠ .init
      ∧ ¬((base.addrBytes = 3 ∨ base.addrBytes = 4) ∧ (0 : Word) ≠ 0) ∧ (idle base).seqState = .idle
      ∧ 2 ^ 32 < (0xFFFFFFFF : Word).toNat + (2 : Word).toNat := by
  refine ⟨rfl, rfl, rfl, rfl, by intro _; simp, by simp, by decide, rfl, by decide⟩

theorem test_wit_AcceptedRequestStarts :
    Instr.isFrame (.readData 0xFFFFFFFF 1 0) = false ∧ (∀ op, Instr.readData 0xFFFFFFFF 1 0 ≠ .reservedOp op)
      ∧ (idle base).seqState = .idle ∧ Instr.readData 0xFFFFFFFF 1 0 ≠ .init
      ∧ (∀ a n buf, Instr.readData 0xFFFFFFFF 1 0 = .readData a n buf ∨ Instr.readData 0xFFFFFFFF 1 0 = .writeData a n buf →
          a.toNat + n.toNat ≤ 2 ^ 32 ∧ buf.toNat + n.toNat ≤ 2 ^ 32)
      ∧ State.reset.seqState = .uninit ∧ cfgOk State.reset.cfg = true := by
  refine ⟨rfl, by intro _; simp, rfl, by simp, ?_, rfl, by decide⟩
  rintro a n buf (h | h)
  · cases h; decide
  · cases h

theorem test_wit_FaultedHasNoStep : (faultState State.reset 0x03).seqState = .faulted ∧ Instr.isFrame .init = false := by decide

/-- The invariant in the states it ranges over: reset, idle on each bus, inside a frame, and in `FAULTED`. -/
theorem test_wit_Inv_idle : Inv (idle base) ∧ Inv (idle base4) ∧ Inv (idle baseShared) := by
  refine ⟨⟨by decide, .closed, by decide, by decide, by decide, by decide⟩, ⟨by decide, .closed, by decide, by decide, by decide, by decide⟩,
    ⟨by decide, .closed, by decide, by decide, by decide, by decide⟩⟩

/-- READ_STATUS with its frame open. -/
def inFrame : State :=
  { running (idle base) .readStatus
      [.prim (.xfer (.byte 0x05) .discard), .prim (.xfer .dc .status), .prim .csDeassert, .prim (.respond .status)] with
    cs := .low, trace := [.csHigh, .apply base.bus, .csLow] }

/-- READ_DATA of 2 bytes to 0x300, its first data byte just received. -/
def inData : State :=
  { reading base 2 0x300 0 with
    cs := .low, current := some (.readData 0 2 0x300)
    pc := some [.prim (.storeIn 0x300 1), .prim .csDeassert, .prim (.dropLocal .r), .prim .advance, .prim (.chunkLoop .read), .prim (.respond .nothing)]
    locals := { Locals.empty with r := some 0x11 }
    trace := [.csHigh, .apply base.bus, .csLow, .xfer (.byte 0x03) 0] }

/-- READ_STATUS on a shared bus, its frame just closed. -/
def sharedClosed : State :=
  { running (idle baseShared) .readStatus [.prim (.respond .status)] with
    transport := some base.bus, regs := { RegFile.empty with s := written 0 }
    trace := [.csHigh, .apply base.bus, .delayUs 3, .csLow, .xfer (.byte 0x05) 0, .xfer .dc 0, .csHigh] }

theorem test_wit_Inv_busy : Inv inFrame ∧ Inv inData ∧ Inv sharedClosed := by
  refine ⟨⟨by decide, .opened, by decide, by decide, by decide, by decide⟩, ⟨by decide, .sending, by decide, by decide, by decide, by decide⟩,
    ⟨by decide, .closed, by decide, by decide, by decide, by decide⟩⟩

theorem test_wit_FaultSavesOnlyItsCode :
    Inv { State.reset with env := [.request 0x03] }
      ∧ (nextOf (step { State.reset with env := [.request 0x03] })).map State.seqState = some .faulted :=
  ⟨⟨by decide, .undriven, by decide, by decide, by decide, by decide⟩, by decide⟩

theorem test_wit_BusyRequestAbandonsInPlace :
    let s := { inFrame with env := [.request 0x00] }
    s.seqState = .busy ∧ s.env = .request 0x00 :: [] := by decide

/-- Both clauses at the boundary: a sum of 2^32 + 1, and of 2^32. -/
theorem test_wit_RangeCheckIsExact :
    (idle base).seqState = .idle ∧ 2 ^ 32 < (0xFFFFFFFF : Word).toNat + (2 : Word).toNat
      ∧ (0xFFFFFFFF : Word).toNat + (1 : Word).toNat ≤ 2 ^ 32 := by decide

theorem test_wit_ReservedCodeFaults :
    0x10 ≤ (opField 0x10).toNat ∧ 0x10 ≤ (opField 0xFF).toNat ∧ State.reset.seqState = .uninit
      ∧ (idle base).seqState = .idle := by decide

theorem test_wit_StepKeepsInv : Inv inFrame ∧ (nextOf (step inFrame)).isSome = true := ⟨test_wit_Inv_busy.1, by decide⟩

theorem test_wit_InvStepGoesOn : Inv (idle base) ∧ (idle base).seqState ≠ .faulted := ⟨test_wit_Inv_idle.1, by decide⟩

theorem test_wit_RunningRequestNeverFaults : Inv inData ∧ inData.seqState = .busy := ⟨test_wit_Inv_busy.2.1, by decide⟩

/-- From reset and from `IDLE`, in both addressing modes. -/
theorem test_wit_InitCompletes :
    State.reset.seqState = .uninit ∧ (idle base4).seqState = .idle ∧ base.addrBytes = 3 ∧ base4.addrBytes = 4
      ∧ base.pageSize ≠ 0 ∧ base.pageSize &&& (base.pageSize - 1) = 0 := by decide

/-- The common hypotheses of the requests that make no wait. -/
theorem test_wit_requests_without_wait :
    (idle base).seqState = .idle ∧ (idle base).cs = .high ∧ cfgOk (idle base).cfg = true ∧ (idle base).mem.wf = true := by decide

/-- G10 (the poll finds WIP clear) and G11 (the wait times out). -/
theorem test_wit_WriteStatusCompletes :
    let s := scripted base [0, 0x00] [5]
    let u := scripted base [0, 0x01] [5, 15]
    s.seqState = .idle ∧ s.cs = .high ∧ Span.ok ⟨0, false⟩ s (waitTimeout s (.arg 0)) 0 0 = true
      ∧ Span.ok ⟨0, true⟩ u (waitTimeout u (.arg 0)) 0 0 = true := by decide

/-- W2, W3, W4: a timeout of 0, a wrap, one more poll. -/
theorem test_wit_WaitWriteCompletes :
    let s := scripted noTimeouts [0, 0x01] [7, 7]
    let u := scripted base [0, 0x01, 0, 0x01] [0xFFFFFFF0, 0xFFFFFFFA, 0x00000005]
    let v := scripted base [0, 0x01, 0, 0x00] [0, 1]
    s.seqState = .idle ∧ s.cs = .high ∧ Span.ok ⟨0, true⟩ s s.cfg.waitDefaultMs 0 0 = true
      ∧ Span.ok ⟨1, true⟩ u 20 0 0 = true ∧ Span.ok ⟨1, false⟩ v 100 0 0 = true := by decide

/-- X1, X2, and an erase whose two waits both time out. -/
theorem test_wit_SectorEraseCompletes :
    let s := scripted base [0, 0, 0, 0, 0, 0, 0, 0, 0] [1, 2]
    let u := scripted base4 [0, 1, 0, 0, 0, 0, 0, 0, 0, 1] [0, 10, 0, 400]
    s.seqState = .idle ∧ s.cs = .high ∧ cfgOk s.cfg = true ∧ cfgOk u.cfg = true
      ∧ eraseWaits s (0x20 :: addrBytes s.cfg 0x00123456) .sector ⟨0, false⟩ ⟨0, false⟩ = true
      ∧ eraseWaits u (0x21 :: addrBytes u.cfg 0x00123456) .sector ⟨0, true⟩ ⟨0, true⟩ = true := by decide

/-- X5, X6, X7. -/
theorem test_wit_BlockEraseCompletes :
    let s := scripted base [0, 0, 0, 0, 0, 0, 0, 0, 0] [1, 2]
    let u := scripted base4 [0, 1, 0, 0, 0, 0, 0, 0, 0, 1] [0, 10, 0, 2000]
    eraseWaits s (0xD8 :: addrBytes s.cfg 0x00010000) .blockChip ⟨0, false⟩ ⟨0, false⟩ = true
      ∧ eraseWaits u (0xDC :: addrBytes u.cfg 0x01020304) .blockChip ⟨0, true⟩ ⟨0, true⟩ = true := by decide

theorem test_wit_ChipEraseCompletes :
    let s := scripted base [0, 0, 0, 0, 0, 0] [1, 2]
    s.seqState = .idle ∧ s.cs = .high ∧ eraseWaits s [0xC7] .blockChip ⟨0, false⟩ ⟨0, false⟩ = true := by decide

/-- Q1. -/
theorem test_wit_ResetDeviceCompletes :
    let s := scripted base [0, 0] [1]
    s.seqState = .idle ∧ s.cs = .high ∧ Span.ok ⟨0, false⟩ s (waitTimeout s (.arg 0)) 0 0 = true := by decide

/-- D7: both ranges at their end, and the zero length of D8. -/
theorem test_wit_ReadDataCompletes :
    (idle base).seqState = .idle ∧ (idle base).cs = .high ∧ cfgOk (idle base).cfg = true ∧ (idle base).mem.wf = true
      ∧ (0xFFFFFFFF : Word).toNat + (1 : Word).toNat ≤ 2 ^ 32 ∧ (0xFFFFFFF0 : Word).toNat + (0 : Word).toNat ≤ 2 ^ 32 := by decide

/-- P-W3: two chunks, every wait ending at once; and a chunk whose two waits time out. -/
theorem test_wit_WriteDataCompletes :
    let s := scripted base (List.replicate 20 0) [1, 2, 3, 4]
    let u := scripted noTimeouts (List.replicate 10 1) [1, 2, 3, 4]
    s.seqState = .idle ∧ s.cs = .high ∧ cfgOk s.cfg = true
      ∧ (0xFF : Word).toNat + (2 : Word).toNat ≤ 2 ^ 32 ∧ (0x80 : Word).toNat + (2 : Word).toNat ≤ 2 ^ 32
      ∧ writeWaits s 0 0 (chunksOf s.cfg.pageSize 0xFF 2) [(⟨0, false⟩, ⟨0, false⟩), (⟨0, false⟩, ⟨0, false⟩)] = true
      ∧ writeWaits u 0 0 (chunksOf u.cfg.pageSize 0xFF 1) [(⟨0, true⟩, ⟨0, true⟩)] = true := by decide

/-- An accepted request whose pseudocode comes to its end, with a wait in it and without. -/
theorem test_wit_RequestFollowsPseudocode :
    let s := scripted base [0, 0] [1]
    (Code.request 1 .resetDevice
        { s with seqState := .busy, current := some .resetDevice, regs := s.regs.stale, locals := Locals.empty }).isSome = true
      ∧ accepts s.cfg .resetDevice = true ∧ s.seqState = .idle ∧ s.cs = .high
      ∧ (Code.request 0 .init { State.reset with
          seqState := .busy, current := some .init, regs := State.reset.regs.stale, locals := Locals.empty }).isSome = true
      ∧ accepts State.reset.cfg .init = true := by decide

/-- With timeouts of 0 every reading ends every wait. -/
theorem test_wit_AcceptedRequestEnds :
    (idle noTimeouts).seqState = .idle ∧ (idle noTimeouts).cs = .high ∧ accepts (idle noTimeouts).cfg (.writeData 1 2 3) = true
      ∧ (idle noTimeouts).faultCode = none
      ∧ ∀ w ∈ waitsOf (.writeData 1 2 3), fairClock (idle noTimeouts) (waitTimeout (idle noTimeouts) w) := by
  refine ⟨by decide, by decide, by decide, by decide, fun w hw i => ⟨i + 1, Nat.lt_succ_self i, ?_⟩⟩
  have h : waitTimeout (idle noTimeouts) w = 0 := by
    simp only [waitsOf, List.mem_cons, List.not_mem_nil, or_false] at hw
    rcases hw with rfl | rfl <;> decide
  rw [h, BitVec.le_def]
  simp

/-- READ_DATA of one byte inside its data phase and at its end, and a request at its first step. -/
theorem test_wit_RequestLeavesTheRest :
    let s := scripted base [0, 0, 0, 0, 0x5A] []
    Instr.isFrame (.readData 0 1 0x300) = false
      ∧ (ran 12 (exec (.readData 0 1 0x300) s)).map State.seqState = some .busy
      ∧ (ran 40 (exec (.readData 0 1 0x300) s)).map State.seqState = some .idle
      ∧ (ran 0 (exec .wake (idle base))).map State.seqState = some .busy ∧ s.cfg.shared = false := by decide

theorem test_wit_RequestTakingFrame :
    Instr.isFrame .wake = false ∧ (nextOf (exec .wake (idle base))).isSome = true ∧ (nextOf (exec .wake State.reset)).isSome = true := by
  decide

/-- Of `FrameOpens` and `FrameRunsWhole`: a frame without data, and a data frame that ends where its range ends. -/
theorem test_wit_FrameOpens :
    let s := reading base 2 0xFFFFFFFE 0
    Instr.isFrame .spiReset = true ∧ Instr.isFrame (.spiRead3 0 2) = true ∧ s.seqState = .busy ∧ s.cs = .high
      ∧ s.pc = some [.prim (.respond .nothing)] ∧ s.mem.wf = true ∧ dataPlaced s .spiReset 0 ∧ dataPlaced s (.spiRead3 0 2) 0xFFFFFFFE := by
  refine ⟨rfl, rfl, rfl, rfl, rfl, rfl, .inl rfl, .inr ⟨.readData 0 2 0xFFFFFFFE, 0xFFFFFFFE, 2, 0, rfl, rfl, rfl, ?_, ?_, ?_⟩⟩ <;> decide

/-- Each clause: no request, inside a frame, one byte past the range, a stale `CUR`. -/
theorem test_wit_FrameStops :
    let s := reading base 2 0 1
    plainFrame .spiReset = true ∧ (idle base).seqState = .idle ∧ inFrame.seqState = .busy ∧ inFrame.cs ≠ .high
      ∧ plainFrame (.spiRead3 0 2) = false ∧ s.current = some (.readData 0 2 0) ∧ Instr.buffer (.readData 0 2 0) = some (0, 2)
      ∧ s.regs.cur = { value := some 1, fresh := true } ∧ (2 : Word).toNat < (1 : Word).toNat + (chunkOperand (.spiRead3 0 2)).toNat
      ∧ (idle base).regs.cur.fresh = false := by decide

theorem test_wit_FrameOpeningFrame :
    Instr.isFrame .spiReset = true ∧ (nextOf (exec .spiReset (reading base 2 0 0))).isSome = true := by decide

theorem test_wit_NextChunkLength :
    let s := { reading base 2 0 0 with pc := some [.prim .nextChunk] }
    s.seqState = .busy ∧ quiet s = true ∧ s.pc = some (.prim .nextChunk :: []) ∧ s.regs.addr = { value := some 0, fresh := true }
      ∧ s.regs.rem = { value := some 2, fresh := true } ∧ isPowerOfTwo s.cfg.pageSize = true := by decide

/-- A range that ends at 2^32. -/
theorem test_wit_ChunksCoverTheRange :
    (256 : Word) ≠ 0 ∧ (0x100 : Word) ≠ 0 ∧ (0xFFFFFF00 : Word).toNat + (0x100 : Word).toNat ≤ 2 ^ 32 := by decide

/-- A wait that ends on the status, and one on the clock. -/
theorem test_wit_WaitReturnsInTwoWays :
    (ran 12 (exec (.waitWrite 0) (scripted base [0, 0] [1]))).map State.seqState = some .idle
      ∧ (ran 12 (exec (.waitWrite 10) (scripted base [0, 1] [1, 11]))).map State.seqState = some .idle := by decide

theorem test_wit_WaitEndsWhenTheClockAllows :
    let s := scripted base [] [0, 9, 10]
    s.seqState = .idle ∧ s.cs = .high ∧ (if (0 : Word) = 0 then s.cfg.waitDefaultMs else 0) ≤ elapsed (s.clockDraw (1 + 1)) (s.clockDraw 0) := by
  decide

theorem test_wit_TraceOnlyGrows : (nextOf (step (idle base))).isSome = true := by decide

/-- INIT about to apply the settings. -/
theorem test_wit_ExclusiveBusAppliesOnlyInInit :
    let s := { running (State.construct base Config.resetParams) .init [.prim .applyIfExclusive, .prim (.respond .nothing)] with
      cs := .high, trace := [.csHigh] }
    Inv s ∧ s.cfg.shared = false ∧ added s (step s) = some [.apply base.bus] :=
  ⟨⟨by decide, .closed, by decide, by decide, by decide, by decide⟩, by decide, by decide⟩

/-- READ_STATUS on a shared bus right after its `APPLY`: the settle delay and `CS_LOW` are still to come, chip-select is high. -/
def sharedApplied : State :=
  { running (idle baseShared) .readStatus
      [.prim (.delay .sharedSettle), .prim .csAssert, .prim (.xfer (.byte 0x05) .discard), .prim (.xfer .dc .status), .prim .csDeassert,
        .prim (.respond .status)] with
    transport := some base.bus, trace := [.csHigh, .apply base.bus], env := [.otherDevice ⟨1, 1, 1⟩] }

/-- READ_STATUS on a shared bus about to open its frame, another device's settings on the bus. -/
def sharedOpening : State :=
  { running (idle baseShared) .readStatus [.frame (.fixed .spiReadStatus), .prim (.respond .status)] with transport := some ⟨1, 1, 1⟩ }

/-- The first clause in `BUSY` and in `FAULTED` with the frame abandoned; the second where this device applies its settings and
where another one does. -/
theorem test_wit_TransportIsOwnWhileClocking :
    (Inv inFrame ∧ inFrame.cfg.shared = false ∧ inFrame.cs = .low)
      ∧ (Inv (faultState inFrame 0x01) ∧ (faultState inFrame 0x01).cfg.shared = false ∧ (faultState inFrame 0x01).cs = .low)
      ∧ (Inv sharedOpening ∧ (nextOf (step sharedOpening)).map State.transport = some (some base.bus)
        ∧ sharedOpening.transport = some ⟨1, 1, 1⟩)
      ∧ Inv sharedApplied ∧ (nextOf (step sharedApplied)).map State.transport = some (some ⟨1, 1, 1⟩) :=
  ⟨⟨test_wit_Inv_busy.1, by decide, by decide⟩, ⟨⟨by decide, .opened, by decide, by decide, by decide, by decide⟩, by decide, by decide⟩,
    ⟨⟨by decide, .closed, by decide, by decide, by decide, by decide⟩, by decide, by decide⟩,
    ⟨by decide, .applied, by decide, by decide, by decide, by decide⟩, by decide⟩

/-- R137: another device's settings land between `APPLY` and `CS_LOW`, and not while chip-select is low. -/
theorem test_other_device_between_frames :
    (nextOf (step sharedApplied)).map (fun t => (t.env, t.pc)) = some ([], sharedApplied.pc)
      ∧ (nextOf (step { sharedApplied with cs := .low, pc := some [.prim .csDeassert] })).map (fun t => (t.transport, t.cs))
        = some (some base.bus, .high) := by decide

/-- Each clause: a `CS_LOW`, an exchange, and (on the idle state) a response. -/
theorem test_wit_TraceIsBracketed :
    Inv sharedClosed ∧ sharedClosed.trace = [.csHigh, .apply base.bus, .delayUs 3] ++ .csLow :: [.xfer (.byte 0x05) 0, .xfer .dc 0, .csHigh]
      ∧ sharedClosed.trace = [.csHigh, .apply base.bus, .delayUs 3, .csLow] ++ .xfer (.byte 0x05) 0 :: [.xfer .dc 0, .csHigh]
      ∧ Inv { idle base with trace := [.csHigh, .resp .nothing] } :=
  ⟨test_wit_Inv_busy.2.2, by decide, by decide, ⟨by decide, .closed, by decide, by decide, by decide, by decide⟩⟩

theorem test_wit_FramesBeginWithCommands :
    Inv sharedClosed
      ∧ sharedClosed.trace = [.csHigh, .apply base.bus, .delayUs 3] ++ .csLow :: .xfer (.byte 0x05) 0 :: [.xfer .dc 0, .csHigh] :=
  ⟨test_wit_Inv_busy.2.2, by decide⟩

theorem test_wit_SharedFramesAreSetUp :
    Inv sharedClosed ∧ sharedClosed.cfg.shared = true
      ∧ sharedClosed.trace = [.csHigh, .apply base.bus, .delayUs 3] ++ .csLow :: [.xfer (.byte 0x05) 0, .xfer .dc 0, .csHigh] :=
  ⟨test_wit_Inv_busy.2.2, by decide, by decide⟩

/-- READ_DATA stores its byte at 0x300, the Host its own at 5. -/
theorem test_wit_HostBufferChangesOnlyInRange :
    Inv inData ∧ (nextOf (step inData)).map (fun t => t.mem.read 0x300) = some 0x11 ∧ inData.mem.read 0x300 = 0
      ∧ Inv { idle base with env := [.store 5 7] }
      ∧ (nextOf (step { idle base with env := [.store 5 7] })).map (fun t => t.mem.read 5) = some 7 :=
  ⟨test_wit_Inv_busy.2.1, by decide, by decide, test_wit_Inv_idle.1, by decide⟩

theorem test_wit_AgentMoves :
    (idle baseShared).seqState ≠ .faulted ∧ (idle baseShared).seqState ≠ .busy ∧ baseShared.shared = true
      ∧ inTransaction (idle baseShared) = false ∧ (idle baseShared).env = [] ∧ State.reset.seqState = .uninit := by decide

end Sys2Proof.Tests
end

section
/-! The moves of the agents around the sequencer (00_scope.md R6, R40, R137), and what every step keeps: the events
already recorded and the configuration (R9, R17, R31). -/

namespace Sys2Proof.Machine

/-! ### Outside `FAULTED` a step is whoever's turn it is -/

theorem step_eq_agentStep {s : State} (h : s.seqState ≠ .faulted) : step s = agentStep s := by
  unfold step wholeStep
  cases hs : s.seqState with
  | faulted => exact absurd hs h
  | uninit => rfl
  | idle => rfl
  | busy => rfl

theorem step_of_faulted {s : State} (h : s.seqState = .faulted) : step s = .fault .stuckFaulted := by
  unfold step wholeStep
  rw [h]

/-- A sequencer that waits for a request stays as it is (R27, R142). -/
theorem seqStep_of_waiting {s : State} (h : s.seqState = .uninit ∨ s.seqState = .idle) : seqStep s = .next s := by
  unfold seqStep
  rcases h with h | h <;> rw [h]

/-- Settles O60: one agent's move after another, each read off `agentStep`. -/
theorem agentMoves : Obligations.AgentMoves := by
  intro s rest hf
  rw [step_eq_agentStep hf]
  refine ⟨fun a b he hb => ?_, fun b he hsh htx => ?_, fun he hw => ?_⟩
  · simp only [agentStep, he, if_neg hb]
  · simp only [agentStep, he, hsh, htx, if_true, Bool.false_eq_true, if_false]
  · simp only [agentStep, he, seqStep_of_waiting hw]

/-! ### The trace only grows -/

/-- From `s` to `t` no recorded event was lost and the configuration stayed (R9, R17, R31). -/
structure Grows (s t : State) : Prop where
  trace : s.trace <+: t.trace
  cfg : t.cfg = s.cfg
  par : t.par = s.par

/-- An outcome that, if it is a state, has grown from `s`. -/
def GrowsTo (s : State) (o : Out) : Prop := ∀ t, o = .next t → Grows s t

namespace Grows

theorem refl (s : State) : Grows s s := ⟨List.prefix_rfl, rfl, rfl⟩

theorem trans {s t u : State} (h : Grows s t) (h' : Grows t u) : Grows s u :=
  ⟨h.trace.trans h'.trace, h'.cfg.trans h.cfg, h'.par.trans h.par⟩

/-- A run whose events are known. -/
theorem of_did {s t : State} {evs : List Event} {j i : Nat} (h : Did s t evs j i) : Grows s t :=
  ⟨⟨evs, h.trace.symm⟩, h.cfg, h.par⟩

/-- Whatever touches neither the trace nor the configuration. -/
theorem of_eq {s t : State} (ht : t.trace = s.trace) (hc : t.cfg = s.cfg) (hp : t.par = s.par) : Grows s t :=
  ⟨ht ▸ List.prefix_rfl, hc, hp⟩

theorem setPc (s : State) (ops : List Micro) : Grows s (s.setPc ops) := of_eq rfl rfl rfl

theorem pushOps (s : State) (ops : List Micro) : Grows s (s.pushOps ops) := of_eq rfl rfl rfl

theorem record (s : State) (e : Event) : Grows s (s.record e) := of_did (Did.record s e)

theorem applyBus (s : State) : Grows s s.applyBus := ⟨⟨_, rfl⟩, rfl, rfl⟩

theorem lowerCs (s : State) : Grows s s.lowerCs := ⟨⟨_, rfl⟩, rfl, rfl⟩

theorem raiseCs (s : State) : Grows s s.raiseCs := ⟨⟨_, rfl⟩, rfl, rfl⟩

theorem readClock (s : State) : Grows s s.readClock := of_did (Did.readClock s)

theorem writeReg (s : State) (r : Reg) (v : Word) : Grows s (s.writeReg r v) := of_did (Did.writeReg s r v)

theorem raiseFault (s : State) (c : FaultCode) : Grows s (s.raiseFault c) := ⟨⟨_, rfl⟩, rfl, rfl⟩

theorem respondWith (s : State) (v : Response) : Grows s (s.respondWith v) := ⟨⟨_, rfl⟩, rfl, rfl⟩

theorem startRequest (s : State) (i : Instr) (ops : List Micro) : Grows s (s.startRequest i ops) :=
  of_eq rfl rfl rfl

end Grows

namespace GrowsTo

theorem next {s t : State} (h : Grows s t) : GrowsTo s (.next t) := by
  rintro _ ⟨⟩
  exact h

theorem fault (s : State) (f : Fault) : GrowsTo s (.fault f) := by
  rintro _ ⟨⟩

theorem of_grows {s t : State} {o : Out} (h : Grows s t) (ho : GrowsTo t o) : GrowsTo s o :=
  fun u hu => h.trans (ho u hu)

theorem withValue {α : Type} {s : State} (e : Except Fault α) {k : α → Out} (h : ∀ v, GrowsTo s (k v)) :
    GrowsTo s (withValue e k) := by
  cases e with
  | ok v => exact h v
  | error f => exact fault s f

/-! ### Primitives -/

theorem doCsAssert (s : State) : GrowsTo s (doCsAssert s) := by
  unfold Machine.doCsAssert
  split
  · exact next (.lowerCs s)
  · exact fault _ _
  · exact fault _ _

theorem doXfer (t : TxByte) (rx : RxDest) (s : State) : GrowsTo s (doXfer t rx s) := by
  unfold Machine.doXfer
  split
  · exact next (.of_did (Did.xferTo s t rx))
  · exact fault _ _
  · exact fault _ _

theorem doDataIn (d n : Nat) (s : State) : GrowsTo s (doDataIn d n s) := by
  cases n with
  | zero => exact next (.refl s)
  | succ k => exact of_grows (.pushOps s _) (doXfer _ _ _)

theorem doStoreIn (d n : Nat) (s : State) : GrowsTo s (doStoreIn d n s) := by
  refine withValue _ fun b => ?_
  split
  · exact next ((Grows.of_did (Did.storeByte s d b)).trans (.pushOps _ _))
  · exact fault _ _

theorem doDataOut (d n : Nat) (s : State) : GrowsTo s (doDataOut d n s) := by
  cases n with
  | zero => exact next (.refl s)
  | succ k =>
    simp only [Machine.doDataOut]
    split
    · exact of_grows (.pushOps s _) (doXfer _ _ _)
    · exact fault _ _

theorem doPollTest (s : State) : GrowsTo s (doPollTest s) := by
  refine withValue _ fun v => next ?_
  split
  · exact .pushOps s _
  · exact .refl s

theorem doPollClock (s : State) : GrowsTo s (doPollClock s) := by
  refine withValue _ fun start => withValue _ fun t => next ?_
  split
  · exact .readClock s
  · exact (Grows.readClock s).trans (.pushOps _ _)

theorem doPollPause (s : State) : GrowsTo s (doPollPause s) :=
  withValue _ fun _ => next ((Grows.record s _).trans (.pushOps _ _))

theorem doNextChunk (s : State) : GrowsTo s (doNextChunk s) := by
  refine withValue _ fun a => withValue _ fun rem => ?_
  split
  · exact next (.writeReg s _ _)
  · exact fault _ _

theorem doAdvance (s : State) : GrowsTo s (doAdvance s) :=
  withValue _ fun _ => withValue _ fun _ => withValue _ fun _ => withValue _ fun _ =>
    next (((Grows.writeReg s _ _).trans (.writeReg _ _ _)).trans (.writeReg _ _ _))

theorem doChunkLoop (d : DataDir) (s : State) : GrowsTo s (doChunkLoop d s) := by
  refine withValue _ fun rem => next ?_
  split
  · exact .refl s
  · exact .pushOps s _

theorem doRespond (k : RespKind) (s : State) : GrowsTo s (doRespond k s) := by
  unfold Machine.doRespond
  split
  · exact withValue _ fun v => next (.respondWith s v)
  · exact fault _ _
  · exact fault _ _

theorem execPrim (p : Prim) (s : State) : GrowsTo s (execPrim p s) := by
  cases p with
  | applyIfExclusive =>
    refine next ?_
    split
    · exact .refl s
    · exact .applyBus s
  | delay d => exact next (.of_did (Did.delayUs s _))
  | csAssert => exact doCsAssert s
  | csDeassert => exact next (.raiseCs s)
  | xfer t rx => exact doXfer t rx s
  | dataIn d n => exact doDataIn d n s
  | storeIn d n => exact doStoreIn d n s
  | dropLocal l => exact next (.of_did (Did.dropLocal s l))
  | dataOut d n => exact doDataOut d n s
  | setReg r v => exact next (.writeReg s r v)
  | waitBegin t => exact next (.writeReg s _ _)
  | readStart => exact next ((Grows.readClock s).trans (.writeReg _ _ _))
  | pollTest => exact doPollTest s
  | pollClock => exact doPollClock s
  | pollPause => exact doPollPause s
  | nextChunk => exact doNextChunk s
  | advance => exact doAdvance s
  | chunkLoop d => exact doChunkLoop d s
  | respond k => exact doRespond k s

/-! ### Instructions -/

theorem openFrame (s : State) (ops : List Micro) : GrowsTo s (openFrame s ops) := by
  unfold Machine.openFrame
  split
  · exact fault _ _
  · exact fault _ _
  · exact fault _ _
  · split
    · exact fault _ _
    · exact fault _ _
    · refine next ?_
      dsimp only
      split
      · exact ((Grows.pushOps s _).trans (.pushOps _ _)).trans (.applyBus _)
      · exact (Grows.pushOps s _).trans (.lowerCs _)

theorem acceptIdle {k : State → State} (h : ∀ s, Grows s (k s)) (s : State) : GrowsTo s (acceptIdle s k) := by
  unfold Machine.acceptIdle
  split
  · exact fault _ _
  · exact next (.raiseFault s _)
  · exact next (.raiseFault s _)
  · exact next (h s)

theorem acceptAny {k : State → State} (h : ∀ s, Grows s (k s)) (s : State) : GrowsTo s (acceptAny s k) := by
  unfold Machine.acceptAny
  split
  · exact fault _ _
  · exact next (.raiseFault s _)
  · exact next (h s)
  · exact next (h s)

/-- A request with a check of its own starts or raises that check's fault (R126). -/
theorem start_or_fault (s : State) (b : Bool) (i : Instr) (ops : List Micro) (c : FaultCode) :
    Grows s (if b then s.startRequest i ops else s.raiseFault c) := by
  split
  · exact .startRequest s i ops
  · exact .raiseFault s c

theorem exec (i : Instr) (s : State) : GrowsTo s (exec i s) := by
  cases i with
  | spiIdentify | spiReadStatus | spiReadConfig | spiSectorErase3 | spiSectorErase4 | spiBlockErase3 | spiBlockErase4
  | spiChipErase | spiWriteEnable | spiResetEnable | spiReset | spiPowerDown | spiReleasePowerDown
  | spiWriteStatus => exact openFrame s _
  | spiRead3 | spiRead4 | spiProgram3 | spiProgram4 => exact withValue _ fun _ => openFrame s _
  | init => exact acceptAny (fun s => start_or_fault s _ _ _ _) s
  | readData | writeData => exact acceptIdle (fun s => start_or_fault s _ _ _ _) s
  | identify | validate | readStatus | readConfig | writeStatus | waitWrite | writeEnable | sectorErase | blockErase
  | chipErase | resetDevice | deepPowerDown | wake => exact acceptIdle (fun s => .startRequest s _ _) s
  | reservedOp => exact acceptAny (fun s => .raiseFault s _) s

/-! ### Steps -/

theorem seqStep (s : State) : GrowsTo s (seqStep s) := by
  unfold Machine.seqStep
  split
  · exact next (.refl s)
  · exact next (.refl s)
  · exact fault _ _
  · split
    · exact fault _ _
    · exact fault _ _
    · exact of_grows (.setPc s _) (execPrim _ _)
    · exact of_grows (.setPc s _) (withValue _ fun f => exec f _)

theorem takeRequest (r : Record) (s : State) : GrowsTo s (takeRequest r s) :=
  of_grows (.record s _) (exec _ _)

theorem agentStep (s : State) : GrowsTo s (agentStep s) := by
  have henv (rest : List EnvMove) : Grows s { s with env := rest } := .of_eq rfl rfl rfl
  unfold Machine.agentStep
  split
  · exact seqStep s
  · exact of_grows (henv _) (seqStep _)
  · exact of_grows (henv _) (takeRequest _ _)
  · split
    · exact seqStep s
    · exact of_grows (henv _) (takeRequest _ _)
  · split
    · exact seqStep s
    · exact next (.of_eq rfl rfl rfl)
  · split
    · split
      · exact seqStep s
      · exact next (.of_eq rfl rfl rfl)
    · exact next (henv _)

theorem step (s : State) : GrowsTo s (step s) := by
  by_cases h : s.seqState = .faulted
  · rw [step_of_faulted h]
    exact fault _ _
  · rw [step_eq_agentStep h]
    exact agentStep s

end GrowsTo

/-- Settles O53: every operation a step is made of only appends to the trace (`GrowsTo`). -/
theorem traceOnlyGrows : Obligations.TraceOnlyGrows := by
  intro s t h
  obtain ⟨htrace, hcfg, hpar⟩ := GrowsTo.step s t h
  exact ⟨htrace, hcfg, hpar⟩

end Sys2Proof.Machine
end

section
/-! A request from its acceptance to its response: where it starts (R27, R126), and that the sequencer runs `requestOps` to
the state the pseudocode of `Code.request` ends in (R92, R97 to R118). -/

namespace Sys2Proof.Machine

open Code

/-! ### Acceptance -/

theorem acceptIdle_of_idle {s : State} (h : s.seqState = .idle) (k : State → State) :
    acceptIdle s k = .next (k s) := by
  unfold acceptIdle
  rw [h]

theorem acceptAny_of_waiting {s : State} (h : s.seqState = .uninit ∨ s.seqState = .idle) (k : State → State) :
    acceptAny s k = .next (k s) := by
  unfold acceptAny
  rcases h with h | h <;> rw [h]

/-- A request that passes the checks of R126 starts at the head of its pseudocode (R27). -/
theorem exec_of_checks {i : Instr} {s : State} (hframe : i.isFrame = false) (hop : ∀ op, i ≠ .reservedOp op)
    (hstate : s.seqState = .idle ∨ (s.seqState = .uninit ∧ i = .init)) (hcfg : i = .init → cfgOk s.cfg = true)
    (hrange : ∀ a n buf, i = .readData a n buf ∨ i = .writeData a n buf → rangeOk a n buf = true) :
    exec i s = .next (s.startRequest i (requestOps i)) := by
  have hidle (h : i ≠ .init) : s.seqState = .idle := hstate.resolve_right fun h' => h h'.2
  cases i with
  | spiIdentify | spiReadStatus | spiReadConfig | spiRead3 | spiRead4 | spiProgram3 | spiProgram4 | spiSectorErase3
  | spiSectorErase4 | spiBlockErase3 | spiBlockErase4 | spiChipErase | spiWriteEnable | spiResetEnable | spiReset
  | spiPowerDown | spiReleasePowerDown | spiWriteStatus => cases hframe
  | init =>
    have hw : s.seqState = .uninit ∨ s.seqState = .idle := hstate.symm.imp_left And.left
    exact (acceptAny_of_waiting hw fun s => if cfgOk s.cfg then s.startRequest _ _ else s.raiseFault _).trans
      (congrArg _ (if_pos (hcfg rfl)))
  | identify | validate | readStatus | readConfig | writeStatus | waitWrite | writeEnable | sectorErase | blockErase
  | chipErase | resetDevice | deepPowerDown | wake => exact acceptIdle_of_idle (hidle (by simp)) fun s => s.startRequest _ _
  | readData a n buf =>
    exact (acceptIdle_of_idle (hidle (by simp)) fun s =>
      if rangeOk a n buf then s.startRequest _ _ else s.raiseFault _).trans
        (congrArg _ (if_pos (hrange a n buf (.inl rfl))))
  | writeData a n buf =>
    exact (acceptIdle_of_idle (hidle (by simp)) fun s =>
      if rangeOk a n buf then s.startRequest _ _ else s.raiseFault _).trans
        (congrArg _ (if_pos (hrange a n buf (.inr rfl))))
  | reservedOp op => exact absurd rfl (hop op)

theorem rangeOk_iff {a n buf : Word} :
    rangeOk a n buf = true ↔ a.toNat + n.toNat ≤ 2 ^ 32 ∧ buf.toNat + n.toNat ≤ 2 ^ 32 := by
  simp only [rangeOk, Bool.and_eq_true, decide_eq_true_eq]

/-- A register no step of this request has written has no value a rule may read (R25). -/
theorem State.readReg_of_not_fresh {s : State} {r : Reg} (h : (s.regs.get r).fresh = false) :
    s.readReg r = .error (.registerNoValue r) := by
  unfold State.readReg
  rw [h]

/-- Settles O12: `exec_of_checks` gives the started state, and its registers are the old ones, none of them fresh. -/
theorem acceptedRequestStarts : Obligations.AcceptedRequestStarts := by
  intro i s hframe hop hstate hcfg hrange
  refine ⟨_, exec_of_checks hframe hop hstate hcfg fun a n buf h => rangeOk_iff.2 (hrange a n buf h), rfl, fun r => ?_⟩
  have hget : (s.startRequest i (requestOps i)).regs.get r = (s.regs.get r).stale := RegFile.get_stale s.regs r
  exact ⟨hget, State.readReg_of_not_fresh (by rw [hget, RegCell.stale_fresh])⟩

/-- What `accepts` says of a request is what its checks ask for (R126). -/
theorem exec_of_accepts {i : Instr} {s : State} (hstate : s.seqState = .idle ∨ (s.seqState = .uninit ∧ i = .init))
    (h : accepts s.cfg i = true) : exec i s = .next (s.startRequest i (requestOps i)) := by
  refine exec_of_checks ?_ ?_ hstate ?_ ?_
  · cases i with
    | init | identify | validate | readStatus | readConfig | writeStatus | waitWrite | writeEnable | sectorErase
    | blockErase | chipErase | resetDevice | deepPowerDown | wake | readData | writeData => rfl
    | _ => cases h
  · rintro op rfl
    cases h
  · rintro rfl
    exact h
  · rintro a n buf (rfl | rfl) <;> exact (Bool.and_eq_true_iff.1 h).1

/-! ### One position, run -/

section
variable {s u : State} (rest : List Micro)

/-- The response ends the request (R28, R35). -/
theorem respond_reaches {k : RespKind} {v : Response} (hb : s.seqState = .busy) (hc : s.cs = .high)
    (hv : responseValue k s = .ok v) : Reaches (s.setPc [.prim (.respond k)]) (s.respondWith v) := by
  have hv' : responseValue k (s.setPc []) = .ok v := hv
  refine Reaches.prim hb ?_ (Reaches.refl _)
  simp only [execPrim, doRespond, State.setPc_cs, hc, hv', withValue, State.respondWith_setPc]

theorem delay_reaches (d : DelayName) (hb : s.seqState = .busy) :
    Reaches (s.setPc (.prim (.delay d) :: rest)) ((s.delayUs (delayLength s.cfg s.par d)).setPc rest) := by
  refine Reaches.prim hb ?_ (Reaches.refl _)
  simp only [execPrim, State.setPc_cfg, State.setPc_par, State.delayUs_setPc]

/-- A frame known when the request starts, run to its end (R91). -/
theorem fixedFrame_reaches {f : Instr} {rx : List RxDest} (hx : ∀ t, exec f t = sendFrame t f rx)
    (hb : s.seqState = .busy) (hc : s.cs = .high) :
    Reaches (s.setPc (.frame (.fixed f) :: rest)) ((frame (frameHeader s.par.cmdWriteStatus f) rx s).setPc rest) := by
  obtain ⟨t, ht, hr⟩ := sendFrame_reaches (s := s) rest f rx hb hc
  exact Reaches.head ((seqStep_frame hb _ _).trans ((hx _).trans ht)) hr

/-- `CmdSector` or `CmdBlock` (R70). -/
def cmdErase (c : Cfg) : EraseKind → Byte
  | .sector => cmdSector c
  | .block => cmdBlock c

/-- The erase frame of the addressing mode, run to its end (R105, R106). -/
theorem eraseFrame_reaches (k : EraseKind) (a : Word) (hok : cfgOk s.cfg = true) (hb : s.seqState = .busy)
    (hc : s.cs = .high) :
    Reaches (s.setPc (.frame (.erase k a) :: rest))
      ((frame (cmdErase s.cfg k :: addrBytes s.cfg a) [] s).setPc rest) := by
  obtain ⟨f, hf, hhead, hx⟩ := addrBytes_header_erase s.cfg hok k a s.par.cmdWriteStatus
  have hcmd : frameHeader s.par.cmdWriteStatus f = cmdErase s.cfg k :: addrBytes s.cfg a := by
    cases k <;> exact hhead
  obtain ⟨t, ht, hr⟩ := sendFrame_reaches (s := s) rest f [] hb hc
  rw [hcmd] at hr
  refine Reaches.head ((seqStep_frame hb _ _).trans ?_) hr
  have hat : frameAt (.erase k a) (s.setPc rest) = .ok f := by simp only [frameAt, State.setPc_cfg, hf]
  rw [hat]
  exact (hx _).trans ht

/-- The three register writes before a chunk loop (R115, R117). -/
theorem beginRange_reaches (a n : Word) (hb : s.seqState = .busy) :
    Reaches (s.setPc (.prim (.setReg .addr a) :: .prim (.setReg .rem n) :: .prim (.setReg .cur 0) :: rest))
      ((beginRange a n s).setPc rest) :=
  Reaches.prim hb rfl (Reaches.prim (s := s.writeReg .addr a) hb rfl
    (Reaches.prim (s := (s.writeReg .addr a).writeReg .rem n) hb rfl (Reaches.refl _)))

/-- The chunk loop's head is reached with the whole range to go (R115, R117). -/
theorem atLoop_beginRange {q : Instr} {a n buf : Word} (hb : s.seqState = .busy) (hc : s.cs = .high)
    (hok : cfgOk s.cfg = true) (hq : s.current = some q) (hbuf : q.buffer = some (buf, n))
    (hr : rangeOk a n buf = true) : AtLoop (beginRange a n s) q buf n a n 0 where
  busy := hb
  cs := hc
  ok := hok
  current := hq
  buffer := hbuf
  addrIs := State.holds_writeReg_other (State.holds_writeReg_other (State.holds_writeReg_same _ _ _) (by decide))
    (by decide)
  remIs := State.holds_writeReg_other (State.holds_writeReg_same _ _ _) (by decide)
  curIs := State.holds_writeReg_same _ _ _
  total := by simp
  fits := (rangeOk_iff.1 hr).2

end

/-! ### The values responded -/

/-- `IdRead` leaves its three bytes in `r1`, `r2`, `r3` (R97). -/
theorem idRead_locals (s : State) :
    (idRead s).locals = ((s.locals.put .r1 (s.chipDraw 1)).put .r2 (s.chipDraw 2)).put .r3 (s.chipDraw 3) := by
  simp [idRead, frame, xferIn, State.xferTo, State.keepByte]

theorem readConfig_locals (s : State) :
    (frame [0x15] [.keep .c] s).locals = s.locals.put .c (s.chipDraw 1) := by
  simp [frame, xferIn, State.xferTo, State.keepByte]

theorem State.readLocal_of_get {s : State} {l : Local} {b : Byte} (h : s.locals.get l = some b) :
    s.readLocal l = .ok b := by
  unfold State.readLocal
  rw [h]

theorem idRead_readLocal (s : State) :
    (idRead s).readLocal .r1 = .ok (s.chipDraw 1) ∧ (idRead s).readLocal .r2 = .ok (s.chipDraw 2)
      ∧ (idRead s).readLocal .r3 = .ok (s.chipDraw 3) := by
  refine ⟨?_, ?_, ?_⟩ <;> refine State.readLocal_of_get ?_ <;> simp [idRead_locals, Locals.get_put]

theorem responseValue_ident (s : State) : responseValue .ident (idRead s)
    = .ok (.ident (identValue (s.chipDraw 1) (s.chipDraw 2) (s.chipDraw 3))) := by
  obtain ⟨h1, h2, h3⟩ := idRead_readLocal s
  simp only [responseValue, h1, h2, h3]

theorem responseValue_valid (s : State) : responseValue .valid (idRead s)
    = .ok (.valid (identTop (identValue (s.chipDraw 1) (s.chipDraw 2) (s.chipDraw 3)) == s.cfg.mfrId)) := by
  obtain ⟨h1, h2, h3⟩ := idRead_readLocal s
  have hcfg : (idRead s).cfg = s.cfg := (KeepsRange.frame _ _ s).cfg
  simp only [responseValue, h1, h2, h3, hcfg, validResult]

theorem responseValue_status (s : State) : responseValue .status (statusRead s) = .ok (.byte (s.chipDraw 1)) := by
  simp [responseValue, (statusRead_holds_s s).readReg]

theorem responseValue_config (s : State) :
    responseValue .config (frame [0x15] [.keep .c] s) = .ok (.byte (s.chipDraw 1)) := by
  have h : (frame [0x15] [.keep .c] s).readLocal .c = .ok (s.chipDraw 1) :=
    State.readLocal_of_get (by rw [readConfig_locals, Locals.get_put_same])
  simp only [responseValue, h]

/-! ### Requests, run to their response -/

section
variable {s u : State} {fuel : Nat}

/-- The one shape of the three erases (R108): `c` is the position its erase frame `bs` is sent from. -/
theorem erase_reaches {c : FrameCall} {bs : List Byte} {t : Timeout} (hb : s.seqState = .busy) (hc : s.cs = .high)
    (hsend : ∀ (v : State) (rest : List Micro), KeepsRange s v → v.seqState = .busy → v.cs = .high →
      Reaches (v.setPc (.frame c :: rest)) ((frame bs [] v).setPc rest))
    (h : erase fuel bs t s = some u) : Reaches (s.setPc (eraseOps c t)) u := by
  simp only [erase, Option.map_eq_some_iff, Option.bind_eq_some_iff] at h
  obtain ⟨s2, ⟨s1, hw1, hw2⟩, rfl⟩ := h
  obtain ⟨hr1, hk1, hb1, hc1, -⟩ := wait_reaches
    (wrenOps ++ .frame c :: (waitOps t ++ [.prim (.respond .nothing)])) hb hc hw1
  obtain ⟨hr2, hk2, hb2, hc2⟩ := wren_reaches (.frame c :: (waitOps t ++ [.prim (.respond .nothing)])) hb1 hc1
  have hr3 := hsend (wren s1) (waitOps t ++ [.prim (.respond .nothing)]) (hk1.trans hk2) hb2 hc2
  obtain ⟨hr4, -, hb4, hc4, -⟩ := wait_reaches [.prim (.respond .nothing)]
    ((frame_seqState bs [] _).trans hb2) (frame_cs bs [] _) hw2
  have hops : eraseOps c t = waitOps (.arg 0) ++ (wrenOps ++ .frame c :: (waitOps t ++ [.prim (.respond .nothing)])) := by
    simp [eraseOps]
  rw [hops]
  exact hr1.trans (hr2.trans (hr3.trans (hr4.trans (respond_reaches hb4 hc4 rfl))))

/-- A wait, then positions that run on from wherever it returned. -/
theorem wait_then_reaches {t : Timeout} {ops : List Micro} {k : State → State} (hb : s.seqState = .busy)
    (hc : s.cs = .high)
    (hrest : ∀ v, KeepsRange s v → v.seqState = .busy → v.cs = .high → Reaches (v.setPc ops) (k v))
    (h : (wait fuel t s).map k = some u) : Reaches (s.setPc (waitOps t ++ ops)) u := by
  obtain ⟨v, hw, rfl⟩ := Option.map_eq_some_iff.1 h
  obtain ⟨hr, hk, hb', hc', -⟩ := wait_reaches ops hb hc hw
  exact hr.trans (hrest v hk hb' hc')

/-- A frame, a settle delay, then what is next. -/
theorem frame_delay_reaches (rest : List Micro) {f : Instr} (hx : ∀ t, exec f t = sendFrame t f []) (d : DelayName)
    (hb : s.seqState = .busy) (hc : s.cs = .high) :
    Reaches (s.setPc (.frame (.fixed f) :: .prim (.delay d) :: rest))
      (((frame (frameHeader s.par.cmdWriteStatus f) [] s).delayUs (delayLength s.cfg s.par d)).setPc rest) := by
  have hk := KeepsRange.frame (frameHeader s.par.cmdWriteStatus f) [] s
  have hd := delay_reaches rest d (s := frame (frameHeader s.par.cmdWriteStatus f) [] s)
    ((frame_seqState _ _ _).trans hb)
  rw [hk.cfg, hk.par] at hd
  exact (fixedFrame_reaches _ hx hb hc).trans hd

/-- RESET_DEVICE after its wait (R109). -/
theorem resetFrames_reaches (hb : s.seqState = .busy) (hc : s.cs = .high) :
    Reaches (s.setPc [.frame (.fixed .spiResetEnable), .prim (.delay .resetSettle), .frame (.fixed .spiReset),
        .prim (.delay .resetSettle), .prim (.respond .nothing)])
      (((frame [0x99] [] ((frame [0x66] [] s).delayUs s.par.resetSettleUs)).delayUs s.par.resetSettleUs).respondWith
        .nothing) := by
  have h1 := frame_delay_reaches
    [.frame (.fixed .spiReset), .prim (.delay .resetSettle), .prim (.respond .nothing)]
    (f := .spiResetEnable) (fun _ => rfl) .resetSettle hb hc
  change Reaches _ (((frame [0x66] [] s).delayUs s.par.resetSettleUs).setPc _) at h1
  have hk : KeepsRange s ((frame [0x66] [] s).delayUs s.par.resetSettleUs) :=
    (KeepsRange.frame _ _ s).trans (KeepsRange.delayUs _ _)
  have hb1 : ((frame [0x66] [] s).delayUs s.par.resetSettleUs).seqState = .busy := by
    rw [State.delayUs_seqState, frame_seqState, hb]
  have hc1 : ((frame [0x66] [] s).delayUs s.par.resetSettleUs).cs = .high := by rw [State.delayUs_cs, frame_cs]
  have hpar := hk.par
  generalize (frame [0x66] [] s).delayUs s.par.resetSettleUs = s1 at *
  have h2 := frame_delay_reaches [.prim (.respond .nothing)] (f := .spiReset) (fun _ => rfl) .resetSettle hb1 hc1
  change Reaches _ (((frame [0x99] [] s1).delayUs s1.par.resetSettleUs).setPc _) at h2
  rw [hpar] at h2
  refine h1.trans (h2.trans (respond_reaches ?_ ?_ rfl))
  · rw [State.delayUs_seqState, frame_seqState, hb1]
  · rw [State.delayUs_cs, frame_cs]

/-- INIT, from any chip-select level (R92). -/
theorem init_reaches (hb : s.seqState = .busy) :
    Reaches (s.setPc (requestOps .init))
      ((if s.cfg.shared then s.raiseCs else s.raiseCs.applyBus).respondWith .nothing) := by
  refine Reaches.prim hb (t := s.raiseCs.setPc [.prim .applyIfExclusive, .prim (.respond .nothing)]) rfl ?_
  refine Reaches.prim (s := s.raiseCs) hb
    (t := (if s.cfg.shared then s.raiseCs else s.raiseCs.applyBus).setPc [.prim (.respond .nothing)]) ?_ ?_
  · cases hs : s.cfg.shared <;> simp [execPrim, hs]
  · refine respond_reaches ?_ ?_ rfl
    · split <;> exact hb
    · split <;> rfl

/-- A frame whose last position is the response. -/
theorem frame_respond_reaches {f : Instr} {rx : List RxDest} {k : RespKind} {v : Response}
    (hx : ∀ t, exec f t = sendFrame t f rx) (hb : s.seqState = .busy) (hc : s.cs = .high)
    (hv : responseValue k (frame (frameHeader s.par.cmdWriteStatus f) rx s) = .ok v) :
    Reaches (s.setPc [.frame (.fixed f), .prim (.respond k)])
      ((frame (frameHeader s.par.cmdWriteStatus f) rx s).respondWith v) :=
  (fixedFrame_reaches _ hx hb hc).trans (respond_reaches ((frame_seqState _ _ _).trans hb) (frame_cs _ _ _) hv)

/-- A frame and a settle delay before the response. -/
theorem frame_delay_respond_reaches {f : Instr} (hx : ∀ t, exec f t = sendFrame t f []) (d : DelayName)
    (hb : s.seqState = .busy) (hc : s.cs = .high) :
    Reaches (s.setPc [.frame (.fixed f), .prim (.delay d), .prim (.respond .nothing)])
      (((frame (frameHeader s.par.cmdWriteStatus f) [] s).delayUs (delayLength s.cfg s.par d)).respondWith .nothing) := by
  refine (frame_delay_reaches _ hx d hb hc).trans (respond_reaches ?_ ?_ rfl)
  · rw [State.delayUs_seqState, frame_seqState, hb]
  · rw [State.delayUs_cs, frame_cs]

/-- READ_DATA (R115). -/
theorem readData_reaches {a n buf : Word} (hb : s.seqState = .busy) (hc : s.cs = .high) (hok : cfgOk s.cfg = true)
    (hq : s.current = some (.readData a n buf)) (hr : rangeOk a n buf = true)
    (h : request fuel (.readData a n buf) s = some u) : Reaches (s.setPc (dataOps .read a n)) u := by
  obtain ⟨v, hl, rfl⟩ := Option.map_eq_some_iff.1 h
  obtain ⟨hrun, hb', hc'⟩ :=
    readLoop_reaches [.prim (.respond .nothing)] (atLoop_beginRange hb hc hok hq rfl hr) hl
  exact (beginRange_reaches _ a n hb).trans (hrun.trans (respond_reaches hb' hc' rfl))

/-- WRITE_DATA (R117). -/
theorem writeData_reaches {a n buf : Word} (hb : s.seqState = .busy) (hc : s.cs = .high) (hok : cfgOk s.cfg = true)
    (hq : s.current = some (.writeData a n buf)) (hr : rangeOk a n buf = true)
    (h : request fuel (.writeData a n buf) s = some u) : Reaches (s.setPc (dataOps .write a n)) u := by
  obtain ⟨v, hl, rfl⟩ := Option.map_eq_some_iff.1 h
  obtain ⟨hrun, hb', hc'⟩ :=
    writeLoop_reaches [.prim (.respond .nothing)] (atLoop_beginRange hb hc hok hq rfl hr) hl
  exact (beginRange_reaches _ a n hb).trans (hrun.trans (respond_reaches hb' hc' rfl))

/-- A running request at the head of its pseudocode gets to the state the pseudocode ends in. -/
theorem request_reaches {i : Instr} (hb : s.seqState = .busy) (hq : s.current = some i)
    (hc : i ≠ .init → s.cs = .high) (ha : accepts s.cfg i = true) (h : request fuel i s = some u) :
    Reaches (s.setPc (requestOps i)) u := by
  cases i with
  | init =>
    cases h
    exact init_reaches hb
  | identify =>
    cases h
    exact frame_respond_reaches (fun _ => rfl) hb (hc (by simp)) (responseValue_ident s)
  | validate =>
    cases h
    exact frame_respond_reaches (fun _ => rfl) hb (hc (by simp)) (responseValue_valid s)
  | readStatus =>
    cases h
    exact frame_respond_reaches (fun _ => rfl) hb (hc (by simp)) (responseValue_status s)
  | readConfig =>
    cases h
    exact frame_respond_reaches (fun _ => rfl) hb (hc (by simp)) (responseValue_config s)
  | writeStatus v =>
    refine wait_then_reaches hb (hc (by simp)) (fun w hk hb' hc' => ?_) h
    rw [← hk.par]
    exact frame_respond_reaches (f := .spiWriteStatus v) (fun _ => rfl) hb' hc' rfl
  | waitWrite t => exact wait_then_reaches hb (hc (by simp)) (fun w _ hb' hc' => respond_reaches hb' hc' rfl) h
  | writeEnable =>
    cases h
    exact frame_delay_respond_reaches (fun _ => rfl) .weSettle hb (hc (by simp))
  | sectorErase a =>
    refine erase_reaches hb (hc (by simp)) (fun w rest hk hb' hc' => ?_) h
    rw [← hk.cfg]
    exact eraseFrame_reaches rest .sector a (hk.cfg ▸ ha) hb' hc'
  | blockErase a =>
    refine erase_reaches hb (hc (by simp)) (fun w rest hk hb' hc' => ?_) h
    rw [← hk.cfg]
    exact eraseFrame_reaches rest .block a (hk.cfg ▸ ha) hb' hc'
  | chipErase =>
    exact erase_reaches hb (hc (by simp))
      (fun w rest _ hb' hc' => fixedFrame_reaches rest (f := .spiChipErase) (fun _ => rfl) hb' hc') h
  | resetDevice =>
    refine wait_then_reaches hb (hc (by simp)) (fun w hk hb' hc' => ?_) h
    rw [← hk.par]
    exact resetFrames_reaches hb' hc'
  | deepPowerDown =>
    cases h
    exact frame_delay_respond_reaches (fun _ => rfl) .dpdSettle hb (hc (by simp))
  | wake =>
    cases h
    exact frame_delay_respond_reaches (fun _ => rfl) .tres hb (hc (by simp))
  | readData a n buf =>
    obtain ⟨hr, hok⟩ := Bool.and_eq_true_iff.1 ha
    exact readData_reaches hb (hc (by simp)) hok hq hr h
  | writeData a n buf =>
    obtain ⟨hr, hok⟩ := Bool.and_eq_true_iff.1 ha
    exact writeData_reaches hb (hc (by simp)) hok hq hr h
  | reservedOp | spiIdentify | spiReadStatus | spiReadConfig | spiRead3 | spiRead4 | spiProgram3 | spiProgram4
  | spiSectorErase3 | spiSectorErase4 | spiBlockErase3 | spiBlockErase4 | spiChipErase | spiWriteEnable
  | spiResetEnable | spiReset | spiPowerDown | spiReleasePowerDown | spiWriteStatus => cases h

end

/-- Settles O41: the request starts at the head of `requestOps` (`exec_of_accepts`), and runs from there to the state the
pseudocode ends in (`request_reaches`). -/
theorem requestFollowsPseudocode : Obligations.RequestFollowsPseudocode := by
  intro fuel i s u hstate hc ha h
  exact ⟨_, exec_of_accepts hstate ha, request_reaches (s := { s with
    seqState := .busy, current := some i, regs := s.regs.stale, locals := Locals.empty }) rfl rfl hc ha h⟩

end Sys2Proof.Machine
end

section
/-! A frame, start to end, with its frame condition: what its transaction leaves alone, where the received bytes go, and the
run of all eighteen frames (R67, R71, R87, R88, R91, R116, R118). -/

namespace Sys2Proof.Machine

open Code

/-! ### What the exchanges of a frame never touch -/

/-- Only the trace, the registers, the local temporaries, the host buffer and the oracles may differ. -/
structure KeepsControl (s u : State) : Prop where
  seqState : u.seqState = s.seqState
  current : u.current = s.current
  transport : u.transport = s.transport
  faultCode : u.faultCode = s.faultCode
  result : u.result = s.result
  env : u.env = s.env

namespace KeepsControl

theorem refl (s : State) : KeepsControl s s := ⟨rfl, rfl, rfl, rfl, rfl, rfl⟩

theorem trans {s t u : State} (h : KeepsControl s t) (h' : KeepsControl t u) : KeepsControl s u :=
  ⟨h'.seqState.trans h.seqState, h'.current.trans h.current, h'.transport.trans h.transport,
    h'.faultCode.trans h.faultCode, h'.result.trans h.result, h'.env.trans h.env⟩

theorem exchange (s : State) (t : TxByte) : KeepsControl s (s.exchange t) := ⟨rfl, rfl, rfl, rfl, rfl, rfl⟩

theorem xferTo (s : State) (t : TxByte) (rx : RxDest) : KeepsControl s (s.xferTo t rx) :=
  ⟨by simp, by simp, by simp, by simp, by simp, by simp⟩

theorem storeByte (s : State) (d : Nat) (b : Byte) : KeepsControl s (s.storeByte d b) := ⟨rfl, rfl, rfl, rfl, rfl, rfl⟩

theorem raiseCs (s : State) : KeepsControl s s.raiseCs := ⟨rfl, rfl, rfl, rfl, rfl, rfl⟩

theorem xferOut (bs : List Byte) (s : State) : KeepsControl s (xferOut bs s) := by
  induction bs generalizing s with
  | nil => exact refl s
  | cons b bs ih => exact (exchange s _).trans (ih _)

theorem xferIn (rx : List RxDest) (s : State) : KeepsControl s (xferIn rx s) := by
  induction rx generalizing s with
  | nil => exact refl s
  | cons d rx ih => exact (xferTo s _ d).trans (ih _)

theorem readBytes (n d : Nat) (s : State) : KeepsControl s (readBytes n d s) := by
  induction n generalizing d s with
  | zero => exact refl s
  | succ n ih => exact ((xferTo s _ _).trans (storeByte _ _ _)).trans (ih _ _)

theorem programBytes (n d : Nat) (s : State) : KeepsControl s (programBytes n d s) := by
  induction n generalizing d s with
  | zero => exact refl s
  | succ n ih => exact (exchange s _).trans (ih _ _)

end KeepsControl

/-- `BeginTx` applies this device's settings on a shared bus (R87). -/
theorem beginTx_transport (s : State) :
    (beginTx s).transport = if s.cfg.shared then some s.cfg.bus else s.transport := by
  unfold beginTx
  split <;> simp

theorem xferOut_locals (bs : List Byte) (s : State) : (xferOut bs s).locals = s.locals := by
  obtain ⟨-, -, -, -, -, -, hlocals, -⟩ := xferOut_rest bs s
  exact hlocals

/-! ### Where the received bytes go -/

theorem xferTo_regs_get (s : State) (t : TxByte) {rx : RxDest} {r : Reg} (h : rx = .status → r ≠ .s) :
    (s.xferTo t rx).regs.get r = s.regs.get r := by
  cases rx with
  | discard | keep => rfl
  | status => exact RegFile.get_put_other _ _ (h rfl)

theorem xferTo_locals_get (s : State) (t : TxByte) {rx : RxDest} {l : Local} (h : rx ≠ .keep l) :
    (s.xferTo t rx).locals.get l = s.locals.get l := by
  cases rx with
  | discard | status => rfl
  | keep k => exact Locals.get_put_other _ _ fun e => h (by rw [e])

theorem xferIn_regs_get {rx : List RxDest} {r : Reg} (h : .status ∈ rx → r ≠ .s) (s : State) :
    (xferIn rx s).regs.get r = s.regs.get r := by
  induction rx generalizing s with
  | nil => rfl
  | cons d rx ih =>
    rw [List.mem_cons] at h
    exact (ih (fun h' => h (.inr h')) _).trans (xferTo_regs_get s _ fun e => h (.inl e.symm))

theorem xferIn_locals_get {rx : List RxDest} {l : Local} (h : .keep l ∉ rx) (s : State) :
    (xferIn rx s).locals.get l = s.locals.get l := by
  induction rx generalizing s with
  | nil => rfl
  | cons d rx ih =>
    rw [List.mem_cons, not_or] at h
    exact (ih h.2 _).trans (xferTo_locals_get s _ (Ne.symm h.1))

theorem xferIn_mem (rx : List RxDest) (s : State) : (xferIn rx s).mem = s.mem := (KeepsRange.xferIn rx s).mem

theorem readBytes_locals_get {l : Local} (h : l ≠ .r) (n d : Nat) (s : State) :
    (readBytes n d s).locals.get l = s.locals.get l := by
  induction n generalizing d s with
  | zero => rfl
  | succ n ih => exact (ih _ _).trans (xferTo_locals_get s _ fun e => h (RxDest.keep.inj e).symm)

theorem programBytes_locals (n d : Nat) (s : State) : (programBytes n d s).locals = s.locals := by
  induction n generalizing d s with
  | zero => rfl
  | succ n ih => exact ih _ _

/-! ### What a read frame stores -/

theorem storedByte_nil (m : Memory) (d x : Nat) : storedByte m d [] x = m.read x :=
  if_neg fun h => by simp only [List.length_nil] at h; omega

/-- One byte stored, then the rest behind it. -/
theorem storedByte_cons {m : Memory} (h : m.wf = true) (d : Nat) (b : Byte) (bs : List Byte) (x : Nat) :
    storedByte (m.write d b) (d + 1) bs x = storedByte m d (b :: bs) x := by
  unfold storedByte
  rw [List.length_cons]
  by_cases hx : x = d
  · subst hx
    rw [if_neg (by omega), if_pos (by omega), Memory.wf_read_write_same h, Nat.sub_self]
    rfl
  · rw [Memory.read_write_other hx]
    by_cases hin : d + 1 ≤ x ∧ x < d + 1 + bs.length
    · rw [if_pos hin, if_pos (by omega), show x - d = x - (d + 1) + 1 by omega]
      rfl
    · rw [if_neg hin, if_neg (by omega)]

/-- `ReadChunk` stores the bytes it receives, in order (R116). -/
theorem readBytes_mem_read {n d : Nat} {s : State} (h : s.mem.wf = true) (hd : d + n ≤ 2 ^ 32) (x : Nat) :
    (readBytes n d s).mem.read x = storedByte s.mem d ((List.range n).map fun j => s.chipDraw j) x := by
  induction n generalizing d s with
  | zero => exact (storedByte_nil _ _ _).symm
  | succ n ih =>
    have hmem : ((s.xferTo .dc (.keep .r)).storeByte d (s.chipDraw 0)).mem = s.mem.write d (s.chipDraw 0) := by simp
    have hwf : ((s.xferTo .dc (.keep .r)).storeByte d (s.chipDraw 0)).mem.wf = true := by
      rw [hmem]
      exact Memory.wf_write h (by omega)
    rw [readBytes, ih hwf (by omega), hmem, storedByte_cons h, List.range_succ_eq_map, List.map_cons, List.map_map]
    simp [Function.comp_def]

/-! ### A frame with its frame condition -/

/-- What a whole frame of `i`, its data at host address `d`, does to a state (R67, R87, R88). -/
structure FrameDone (s u : State) (i : Instr) (d : Nat) : Prop where
  cs : u.cs = .high
  seqState : u.seqState = s.seqState
  current : u.current = s.current
  trace : u.trace = s.trace ++ frameTrace s d i
  mem : ∀ x, u.mem.read x = storedByte s.mem d (frameStores s i) x
  transport : u.transport = if s.cfg.shared then some s.cfg.bus else s.transport
  regs : ∀ r, (i = .spiReadStatus → r ≠ .s) → u.regs.get r = s.regs.get r
  locals : ∀ l, l ∉ keptBy i → u.locals.get l = s.locals.get l
  faultCode : u.faultCode = s.faultCode
  result : u.result = s.result
  cfg : u.cfg = s.cfg
  par : u.par = s.par
  env : u.env = s.env

/-- `BeginTx`, then exchanges that leave the control state alone, then `EndTx`. -/
theorem FrameDone.of_exchanges {s v : State} {i : Instr} {d j : Nat} (hk : KeepsControl (beginTx s) v)
    (hd : Did s v.raiseCs (frameTrace s d i) j 0) (hm : ∀ x, v.mem.read x = storedByte s.mem d (frameStores s i) x)
    (hr : ∀ r, (i = .spiReadStatus → r ≠ .s) → v.regs.get r = s.regs.get r)
    (hl : ∀ l, l ∉ keptBy i → v.locals.get l = s.locals.get l) : FrameDone s v.raiseCs i d where
  cs := rfl
  seqState := hk.seqState.trans (beginTx_seqState s)
  current := hk.current.trans (beginTx_current s)
  trace := hd.trace
  mem := hm
  transport := hk.transport.trans (beginTx_transport s)
  regs := hr
  locals := hl
  faultCode := hk.faultCode.trans (beginTx_faultCode s)
  result := hk.result.trans (beginTx_result s)
  cfg := hd.cfg
  par := hd.par
  env := hk.env.trans (beginTx_env s)

/-- The destinations of a frame's received bytes after its header (the `rx used` column of R67). -/
def rxOf : Instr → List RxDest
  | .spiIdentify => [.keep .r1, .keep .r2, .keep .r3]
  | .spiReadStatus => [.status]
  | .spiReadConfig => [.keep .c]
  | _ => []

section
variable {s : State} {i : Instr}

theorem status_mem_rxOf (h : .status ∈ rxOf i) : i = .spiReadStatus := by
  cases i with
  | spiReadStatus => rfl
  | spiIdentify | spiReadConfig => simp [rxOf] at h
  | _ => cases h

theorem keep_mem_rxOf {l : Local} (h : .keep l ∈ rxOf i) : l ∈ keptBy i := by
  cases i with
  | spiIdentify | spiReadConfig => simpa [rxOf, keptBy] using h
  | spiReadStatus => simp [rxOf] at h
  | _ => cases h

/-- What the definitions say of a frame that moves no chunk of the host buffer: its header goes out, `rxOf` comes in. -/
theorem plainFrame_meaning (h : plainFrame i = true) (s : State) (d : Nat) :
    (∀ rest, exec i (s.setPc rest) = sendFrame (s.setPc rest) i (rxOf i))
      ∧ frameWhole i d s = frame (frameHeader s.par.cmdWriteStatus i) (rxOf i) s
      ∧ frameStores s i = []
      ∧ frameTrace s d i =
        frameEvents s 0 ((frameHeader s.par.cmdWriteStatus i).map .byte ++ List.replicate (rxOf i).length .dc) := by
  cases i with
  | spiIdentify | spiReadStatus | spiReadConfig => exact ⟨fun _ => rfl, rfl, rfl, rfl⟩
  | spiSectorErase3 | spiSectorErase4 | spiBlockErase3 | spiBlockErase4 | spiChipErase | spiWriteEnable
  | spiResetEnable | spiReset | spiPowerDown | spiReleasePowerDown | spiWriteStatus =>
    exact ⟨fun _ => rfl, rfl, rfl, congrArg _ (List.append_nil _).symm⟩
  | _ => cases h

/-- A frame of fixed length and its frame condition. -/
theorem frameDone_plainFrame (h : plainFrame i = true) (s : State) (d : Nat) :
    FrameDone s (frame (frameHeader s.par.cmdWriteStatus i) (rxOf i) s) i d := by
  obtain ⟨-, -, hstores, htrace⟩ := plainFrame_meaning h s d
  refine FrameDone.of_exchanges ((KeepsControl.xferOut _ _).trans (KeepsControl.xferIn _ _))
    (j := (frameHeader s.par.cmdWriteStatus i).length + (rxOf i).length) ?_ (fun x => ?_) (fun r hr => ?_)
    (fun l hl => ?_)
  · rw [htrace]
    exact Did.frame _ _ s
  · rw [hstores, storedByte_nil, xferIn_mem, xferOut_mem, beginTx_mem]
  · rw [xferIn_regs_get fun hs => hr (status_mem_rxOf hs), xferOut_regs, beginTx_regs]
  · rw [xferIn_locals_get fun hk => hl (keep_mem_rxOf hk), xferOut_locals, beginTx_locals]

/-- A read frame and its frame condition. -/
theorem frameDone_readChunk {n : Word} {d : Nat} (hi : (∃ a, i = .spiRead3 a n) ∨ ∃ a, i = .spiRead4 a n)
    (hwf : s.mem.wf = true) (hd : d + n.toNat ≤ 2 ^ 32) :
    FrameDone s (readChunk (frameHeader s.par.cmdWriteStatus i) d n.toNat s) i d := by
  obtain ⟨_, _, _, _, _, hregs, _⟩ :=
    readBytes_rest n.toNat d (xferOut (frameHeader s.par.cmdWriteStatus i) (beginTx s))
  have hstores : frameStores s i
      = (List.range n.toNat).map fun j => s.chipDraw ((frameHeader s.par.cmdWriteStatus i).length + j) := by
    rcases hi with ⟨a, rfl⟩ | ⟨a, rfl⟩ <;> rfl
  have hkept : keptBy i = [.r] := by rcases hi with ⟨a, rfl⟩ | ⟨a, rfl⟩ <;> rfl
  refine FrameDone.of_exchanges ((KeepsControl.xferOut _ _).trans (KeepsControl.readBytes _ _ _))
    (j := (frameHeader s.par.cmdWriteStatus i).length + n.toNat) ?_ (fun x => ?_) (fun r _ => ?_) (fun l hl => ?_)
  · have hdid := Did.readChunk (frameHeader s.par.cmdWriteStatus i) d n.toNat s
    rcases hi with ⟨a, rfl⟩ | ⟨a, rfl⟩ <;> exact hdid
  · rw [readBytes_mem_read (by rw [xferOut_mem, beginTx_mem, hwf]) hd, xferOut_mem, beginTx_mem, hstores]
    simp only [xferOut_chipDraw, beginTx_chipDraw]
  · rw [hregs, xferOut_regs, beginTx_regs]
  · rw [hkept, List.mem_singleton] at hl
    rw [readBytes_locals_get hl, xferOut_locals, beginTx_locals]

/-- A page-program frame and its frame condition. -/
theorem frameDone_programFrame {n : Word} {d : Nat} (hi : (∃ a, i = .spiProgram3 a n) ∨ ∃ a, i = .spiProgram4 a n)
    (s : State) : FrameDone s (Code.programFrame (frameHeader s.par.cmdWriteStatus i) d n.toNat s) i d := by
  obtain ⟨_, _, _, _, _, hregs, hmem, _⟩ :=
    programBytes_rest n.toNat d (xferOut (frameHeader s.par.cmdWriteStatus i) (beginTx s))
  have hstores : frameStores s i = [] := by rcases hi with ⟨a, rfl⟩ | ⟨a, rfl⟩ <;> rfl
  refine FrameDone.of_exchanges ((KeepsControl.xferOut _ _).trans (KeepsControl.programBytes _ _ _))
    (j := (frameHeader s.par.cmdWriteStatus i).length + n.toNat) ?_ (fun x => ?_) (fun r _ => ?_) (fun l _ => ?_)
  · have hdid := Did.programFrame (frameHeader s.par.cmdWriteStatus i) d n.toNat s
    rcases hi with ⟨a, rfl⟩ | ⟨a, rfl⟩ <;> exact hdid
  · rw [hstores, storedByte_nil, hmem, xferOut_mem, beginTx_mem]
  · rw [hregs, xferOut_regs, beginTx_regs]
  · rw [programBytes_locals, xferOut_locals, beginTx_locals]

/-! ### All eighteen frames, run to their end -/

/-- Where a data frame's bytes stand (R11, R46). -/
theorem chunkBuffer_of_dataPlaced {d : Nat} (h : dataPlaced s i d) (hp : plainFrame i = false) :
    chunkBuffer s (chunkOperand i) = .ok d ∧ d + (chunkOperand i).toNat ≤ 2 ^ 32 := by
  rcases h with h | ⟨q, buf, len, cur, hq, hbuf, hcur, hlen, hmax, rfl⟩
  · rw [hp] at h
    cases h
  · exact ⟨chunkBuffer_eq hq hbuf hcur hlen hmax, hmax⟩

/-- The sequencer opens the frame and gets to what `frameWhole` says, its frame condition kept. -/
theorem frameWhole_reaches {d : Nat} (rest : List Micro) (hf : i.isFrame = true) (hb : s.seqState = .busy)
    (hc : s.cs = .high) (hwf : s.mem.wf = true) (hp : dataPlaced s i d) :
    (∃ t, exec i (s.setPc rest) = .next t ∧ Reaches t ((frameWhole i d s).setPc rest))
      ∧ FrameDone s (frameWhole i d s) i d := by
  cases hplain : plainFrame i with
  | true =>
    obtain ⟨hexec, hwhole, -, -⟩ := plainFrame_meaning hplain s d
    rw [hexec, hwhole]
    exact ⟨sendFrame_reaches rest i _ hb hc, frameDone_plainFrame hplain s d⟩
  | false =>
    obtain ⟨hbuf, hmax⟩ := chunkBuffer_of_dataPlaced hp hplain
    cases i with
    | spiRead3 a n => exact ⟨receiveFrame_reaches rest _ hb hc hbuf hmax, frameDone_readChunk (.inl ⟨a, rfl⟩) hwf hmax⟩
    | spiRead4 a n => exact ⟨receiveFrame_reaches rest _ hb hc hbuf hmax, frameDone_readChunk (.inr ⟨a, rfl⟩) hwf hmax⟩
    | spiProgram3 a n => exact ⟨programFrom_reaches rest _ hb hc hbuf hmax, frameDone_programFrame (.inl ⟨a, rfl⟩) s⟩
    | spiProgram4 a n => exact ⟨programFrom_reaches rest _ hb hc hbuf hmax, frameDone_programFrame (.inr ⟨a, rfl⟩) s⟩
    | init | identify | validate | readStatus | readConfig | writeStatus | waitWrite | writeEnable | sectorErase
    | blockErase | chipErase | resetDevice | deepPowerDown | wake | readData | writeData | reservedOp => cases hf
    | _ => cases hplain

end

/-- Settles O46: the run and its frame condition are `frameWhole_reaches`; the bytes kept are those of `IdRead`, `StatusRead`
and READ_CONFIG's frame. -/
theorem frameRunsWhole : Obligations.FrameRunsWhole := by
  intro i s d rest hf hb hc hpc hwf hp
  obtain ⟨⟨t, ht, hr⟩, hdone⟩ := frameWhole_reaches rest hf hb hc hwf hp
  rw [State.setPc_of_pc hpc] at ht
  refine ⟨t, _, ht, hr, rfl, hdone.cs, hdone.seqState.trans hb, hdone.current, hdone.trace, hdone.mem, hdone.transport,
    ?_, ?_, ?_, hdone.regs, hdone.locals, hdone.faultCode, hdone.result, hdone.cfg, hdone.par, hdone.env⟩
  · rintro rfl
    have hlocals : (frameWhole .spiIdentify d s).locals = _ := idRead_locals s
    simp [hlocals, Locals.put]
  · rintro rfl
    exact statusRead_regs_s s
  · rintro rfl
    have hlocals : (frameWhole .spiReadConfig d s).locals = _ := readConfig_locals s
    simp [hlocals, Locals.put]

end Sys2Proof.Machine
end

section
/-! What one position of the pseudocode does, said once for every primitive and every frame (R10, R11, R87), and what the
requests and frames do where they may not run. -/

namespace Sys2Proof.Machine

/-! ### Values and stops -/

theorem withValue_eq_next {α : Type} {e : Except Fault α} {k : α → Out} {t : State} :
    withValue e k = .next t ↔ ∃ v, e = .ok v ∧ k v = .next t := by
  cases e with
  | ok v => simp [withValue]
  | error f => simp [withValue]

/-! ### Primitives -/

/-- Primitive `p`, performed in `s` with `rest` standing behind it, goes on to `t` (R10, R11, R102, R113 to R118): one case a
branch of the rule, with what the branch asks for. -/
inductive PrimStep (s : State) (rest : List Micro) : Prim → State → Prop
  | applyShared (h : s.cfg.shared = true) : PrimStep s rest .applyIfExclusive (s.setPc rest)
  | applyOwn (h : s.cfg.shared = false) : PrimStep s rest .applyIfExclusive (s.applyBus.setPc rest)
  | delay (d : DelayName) : PrimStep s rest (.delay d) ((s.delayUs (delayLength s.cfg s.par d)).setPc rest)
  | csAssert (h : s.cs = .high) : PrimStep s rest .csAssert (s.lowerCs.setPc rest)
  | csDeassert : PrimStep s rest .csDeassert (s.raiseCs.setPc rest)
  | xfer (t : TxByte) (rx : RxDest) (h : s.cs = .low) : PrimStep s rest (.xfer t rx) ((s.xferTo t rx).setPc rest)
  | dataInEnd (d : Nat) : PrimStep s rest (.dataIn d 0) (s.setPc rest)
  | dataIn (d k : Nat) (h : s.cs = .low) :
    PrimStep s rest (.dataIn d (k + 1)) ((s.xferTo .dc (.keep .r)).setPc (.prim (.storeIn d k) :: rest))
  | storeIn (d n : Nat) (b : Byte) (hr : s.readLocal .r = .ok b) (hd : d < 2 ^ 32) :
    PrimStep s rest (.storeIn d n) ((s.storeByte d b).setPc (.prim (.dataIn (d + 1) n) :: rest))
  | dropLocal (l : Local) : PrimStep s rest (.dropLocal l) ((s.dropLocal l).setPc rest)
  | dataOutEnd (d : Nat) : PrimStep s rest (.dataOut d 0) (s.setPc rest)
  | dataOut (d k : Nat) (hd : d < 2 ^ 32) (h : s.cs = .low) :
    PrimStep s rest (.dataOut d (k + 1))
      ((s.xferTo (.byte (s.mem.read d)) .discard).setPc (.prim (.dataOut (d + 1) k) :: rest))
  | setReg (r : Reg) (v : Word) : PrimStep s rest (.setReg r v) ((s.writeReg r v).setPc rest)
  | waitBegin (t : Timeout) :
    PrimStep s rest (.waitBegin t) ((s.writeReg .t (effectiveTimeout s.cfg (timeoutArg s.cfg t))).setPc rest)
  | readStart : PrimStep s rest .readStart ((s.readClock.writeReg .start (s.clockDraw 0)).setPc rest)
  | pollIdle (v : Word) (hv : s.readReg .s = .ok v) (hw : wip v = false) : PrimStep s rest .pollTest (s.setPc rest)
  | pollBusy (v : Word) (hv : s.readReg .s = .ok v) (hw : wip v = true) :
    PrimStep s rest .pollTest (s.setPc (.prim .pollClock :: rest))
  | clockPast (start t : Word) (hs : s.readReg .start = .ok start) (ht : s.readReg .t = .ok t)
    (hle : t ≤ elapsed (s.clockDraw 0) start) : PrimStep s rest .pollClock (s.readClock.setPc rest)
  | clockBefore (start t : Word) (hs : s.readReg .start = .ok start) (ht : s.readReg .t = .ok t)
    (hle : ¬ t ≤ elapsed (s.clockDraw 0) start) :
    PrimStep s rest .pollClock (s.readClock.setPc (.prim .pollPause :: rest))
  | pollPause (t : Word) (ht : s.readReg .t = .ok t) :
    PrimStep s rest .pollPause ((s.record (pauseEvent s t)).setPc
      (.frame (.fixed .spiReadStatus) :: .prim .pollTest :: rest))
  | nextChunk (a rem : Word) (ha : s.readReg .addr = .ok a) (hr : s.readReg .rem = .ok rem)
    (hp : isPowerOfTwo s.cfg.pageSize = true) :
    PrimStep s rest .nextChunk ((s.writeReg .chunk (chunkLength s.cfg.pageSize a rem)).setPc rest)
  | advance (a cur rem c : Word) (ha : s.readReg .addr = .ok a) (hcur : s.readReg .cur = .ok cur)
    (hr : s.readReg .rem = .ok rem) (hc : s.readReg .chunk = .ok c) :
    PrimStep s rest .advance ((Code.advance a rem cur c s).setPc rest)
  | loopEnd (d : DataDir) (hr : s.readReg .rem = .ok 0) : PrimStep s rest (.chunkLoop d) (s.setPc rest)
  | loopTurn (d : DataDir) (rem : Word) (hr : s.readReg .rem = .ok rem) (h0 : rem ≠ 0) :
    PrimStep s rest (.chunkLoop d) (s.setPc (chunkBody d ++ rest))
  | respond (k : RespKind) (v : Response) (h : s.cs = .high) (hv : responseValue k s = .ok v) :
    PrimStep s rest (.respond k) (s.respondWith v)

section
variable {s t : State} {rest : List Micro} {p : Prim}

theorem responseValue_setPc (k : RespKind) (s : State) (ops : List Micro) :
    responseValue k (s.setPc ops) = responseValue k s := by
  cases k <;> rfl

/-- Each case of `PrimStep` is a branch of `execPrim`. -/
theorem PrimStep.execPrim (h : PrimStep s rest p t) : execPrim p (s.setPc rest) = .next t := by
  cases h with
  | applyShared h => simp [Machine.execPrim, h]
  | applyOwn h => simp [Machine.execPrim, h]
  | delay | csDeassert | dropLocal | setReg | waitBegin | readStart | dataInEnd | dataOutEnd =>
    simp [Machine.execPrim, doDataIn, doDataOut, doWaitBegin, doReadStart]
  | csAssert h => simp [Machine.execPrim, doCsAssert, h]
  | xfer t rx h => simp [Machine.execPrim, doXfer, h]
  | dataIn d k h => simp [Machine.execPrim, doDataIn, doXfer, h]
  | storeIn d n b hr hd => simp [-Nat.reducePow, Machine.execPrim, doStoreIn, withValue, hr, hd]
  | dataOut d k hd h => simp [-Nat.reducePow, Machine.execPrim, doDataOut, doXfer, hd, h]
  | pollIdle v hv hw => simp [Machine.execPrim, doPollTest, withValue, hv, hw]
  | pollBusy v hv hw => simp [Machine.execPrim, doPollTest, withValue, hv, hw]
  | clockPast start t hs ht hle => simp [Machine.execPrim, doPollClock, withValue, hs, ht, hle]
  | clockBefore start t hs ht hle => simp [Machine.execPrim, doPollClock, withValue, hs, ht, hle]
  | pollPause t ht =>
    change withValue (s.readReg .t) _ = _
    rw [ht]
    rfl
  | nextChunk a rem ha hr hp => simp [Machine.execPrim, doNextChunk, withValue, ha, hr, hp]
  | advance a cur rem c ha hcur hr hc =>
    simp [Machine.execPrim, doAdvance, withValue, ha, hcur, hr, hc, Code.advance]
  | loopEnd d hr => simp [Machine.execPrim, doChunkLoop, withValue, hr]
  | loopTurn d rem hr h0 =>
    simp only [Machine.execPrim, doChunkLoop, withValue, State.readReg_setPc, hr, if_neg h0, State.pushOps_setPc]
  | respond k v h hv => simp [Machine.execPrim, doRespond, h, responseValue_setPc, hv, withValue]

/-- Two answers to the same primitive are one. -/
theorem PrimStep.of_execPrim {u : State} (hu : PrimStep s rest p u) (h : Machine.execPrim p (s.setPc rest) = .next t) :
    PrimStep s rest p t :=
  Host.Outcome.next.inj (hu.execPrim.symm.trans h) ▸ hu

/-- A primitive goes on only as one of the cases of `PrimStep`. -/
theorem primStep_of_execPrim (h : execPrim p (s.setPc rest) = .next t) : PrimStep s rest p t := by
  cases p with
  | applyIfExclusive =>
    cases hsh : s.cfg.shared with
    | true => exact (PrimStep.applyShared hsh).of_execPrim h
    | false => exact (PrimStep.applyOwn hsh).of_execPrim h
  | delay d => exact (PrimStep.delay d).of_execPrim h
  | csAssert =>
    cases hc : s.cs with
    | high => exact (PrimStep.csAssert hc).of_execPrim h
    | undriven | low => simp [execPrim, doCsAssert, hc] at h
  | csDeassert => exact PrimStep.csDeassert.of_execPrim h
  | xfer t rx =>
    cases hc : s.cs with
    | low => exact (PrimStep.xfer t rx hc).of_execPrim h
    | undriven | high => simp [execPrim, doXfer, hc] at h
  | dataIn d n =>
    cases n with
    | zero => exact (PrimStep.dataInEnd d).of_execPrim h
    | succ k =>
      cases hc : s.cs with
      | low => exact (PrimStep.dataIn d k hc).of_execPrim h
      | undriven | high => simp [execPrim, doDataIn, doXfer, hc] at h
  | storeIn d n =>
    obtain ⟨b, hb, hk⟩ := withValue_eq_next.1 h
    by_cases hd : d < 2 ^ 32
    · exact (PrimStep.storeIn (s := s) d n b hb hd).of_execPrim h
    · rw [if_neg hd] at hk
      cases hk
  | dropLocal l => exact (PrimStep.dropLocal l).of_execPrim h
  | dataOut d n =>
    cases n with
    | zero => exact (PrimStep.dataOutEnd d).of_execPrim h
    | succ k =>
      by_cases hd : d < 2 ^ 32
      · cases hc : s.cs with
        | low => exact (PrimStep.dataOut d k hd hc).of_execPrim h
        | undriven | high => simp [-Nat.reducePow, execPrim, doDataOut, doXfer, hd, hc] at h
      · simp [-Nat.reducePow, execPrim, doDataOut, hd] at h
  | setReg r v => exact (PrimStep.setReg r v).of_execPrim h
  | waitBegin t => exact (PrimStep.waitBegin t).of_execPrim h
  | readStart => exact PrimStep.readStart.of_execPrim h
  | pollTest =>
    obtain ⟨v, hv, -⟩ := withValue_eq_next.1 h
    cases hw : wip v with
    | false => exact (PrimStep.pollIdle (s := s) v hv hw).of_execPrim h
    | true => exact (PrimStep.pollBusy (s := s) v hv hw).of_execPrim h
  | pollClock =>
    obtain ⟨start, hs, hk⟩ := withValue_eq_next.1 h
    obtain ⟨x, hx, -⟩ := withValue_eq_next.1 hk
    by_cases hle : x ≤ elapsed (s.clockDraw 0) start
    · exact (PrimStep.clockPast (s := s) start x hs hx hle).of_execPrim h
    · exact (PrimStep.clockBefore (s := s) start x hs hx hle).of_execPrim h
  | pollPause =>
    obtain ⟨x, hx, -⟩ := withValue_eq_next.1 h
    exact (PrimStep.pollPause (s := s) x hx).of_execPrim h
  | nextChunk =>
    obtain ⟨a, ha, hk⟩ := withValue_eq_next.1 h
    obtain ⟨rem, hr, hk⟩ := withValue_eq_next.1 hk
    by_cases hp : isPowerOfTwo s.cfg.pageSize = true
    · exact (PrimStep.nextChunk (s := s) a rem ha hr hp).of_execPrim h
    · rw [State.setPc_cfg, if_neg hp] at hk
      cases hk
  | advance =>
    obtain ⟨a, ha, hk⟩ := withValue_eq_next.1 h
    obtain ⟨cur, hcur, hk⟩ := withValue_eq_next.1 hk
    obtain ⟨rem, hr, hk⟩ := withValue_eq_next.1 hk
    obtain ⟨c, hc, -⟩ := withValue_eq_next.1 hk
    exact (PrimStep.advance (s := s) a cur rem c ha hcur hr hc).of_execPrim h
  | chunkLoop d =>
    obtain ⟨rem, hr, -⟩ := withValue_eq_next.1 h
    by_cases h0 : rem = 0
    · exact (PrimStep.loopEnd (s := s) d (h0 ▸ hr)).of_execPrim h
    · exact (PrimStep.loopTurn (s := s) d rem hr h0).of_execPrim h
  | respond k =>
    cases hc : s.cs with
    | high =>
      simp only [execPrim, doRespond, State.setPc_cs, hc] at h
      obtain ⟨v, hv, -⟩ := withValue_eq_next.1 h
      rw [responseValue_setPc] at hv
      refine (PrimStep.respond k v hc hv).of_execPrim ?_
      simpa only [execPrim, doRespond, State.setPc_cs, hc] using h
    | undriven | low => simp [execPrim, doRespond, hc] at h

end

/-! ### Frames -/

section
variable {s t : State} {i : Instr} {rest ops : List Micro}

/-- A frame of fixed length opens with the exchanges of R67, and so does not depend on a place in the host buffer. -/
theorem exec_plainFrame (h : plainFrame i = true) (s : State) (d : Nat) :
    exec i s = openFrame s (exchangeOps s.par.cmdWriteStatus d i) := by
  cases i with
  | spiIdentify | spiReadStatus | spiReadConfig | spiSectorErase3 | spiSectorErase4 | spiBlockErase3 | spiBlockErase4
  | spiChipErase | spiWriteEnable | spiResetEnable | spiReset | spiPowerDown | spiReleasePowerDown
  | spiWriteStatus => rfl
  | _ => cases h

/-- A data frame first asks where its chunk stands in the host buffer (R11, R46). -/
theorem exec_dataFrame (hf : i.isFrame = true) (hp : plainFrame i = false) (s : State) :
    exec i s = withValue (chunkBuffer s (chunkOperand i)) fun d => openFrame s (exchangeOps s.par.cmdWriteStatus d i) := by
  cases i with
  | spiRead3 | spiRead4 | spiProgram3 | spiProgram4 => rfl
  | spiIdentify | spiReadStatus | spiReadConfig | spiSectorErase3 | spiSectorErase4 | spiBlockErase3 | spiBlockErase4
  | spiChipErase | spiWriteEnable | spiResetEnable | spiReset | spiPowerDown | spiReleasePowerDown
  | spiWriteStatus => cases hp
  | _ => cases hf

theorem openFrame_of_waiting (h : s.seqState = .uninit ∨ s.seqState = .idle) (ops : List Micro) :
    openFrame s ops = .fault .frameOutsideRequest := by
  unfold openFrame
  rcases h with h | h <;> rw [h]

theorem openFrame_of_faulted (h : s.seqState = .faulted) (ops : List Micro) : openFrame s ops = .fault .stuckFaulted := by
  unfold openFrame
  rw [h]

theorem openFrame_of_not_high (hb : s.seqState = .busy) (hc : s.cs ≠ .high) (ops : List Micro) :
    openFrame s ops = .fault .nestedTransaction := by
  unfold openFrame
  rw [hb]
  cases h : s.cs with
  | high => exact absurd h hc
  | undriven | low => rfl

/-- Where a frame may not open, opening it stops the model (R27, R86, R89, R123). -/
theorem openFrame_stops (h : s.seqState ≠ .busy ∨ s.cs ≠ .high) (ops : List Micro) : ∃ f, openFrame s ops = .fault f := by
  cases hs : s.seqState with
  | uninit => exact ⟨_, openFrame_of_waiting (.inl hs) ops⟩
  | idle => exact ⟨_, openFrame_of_waiting (.inr hs) ops⟩
  | faulted => exact ⟨_, openFrame_of_faulted hs ops⟩
  | busy => exact ⟨_, openFrame_of_not_high hs (h.resolve_left (absurd hs)) ops⟩

/-- Where it may, the transaction is opened (R87). -/
theorem openFrame_opens (hb : s.seqState = .busy) (hc : s.cs = .high) (d : Nat) (i : Instr) (rest : List Micro) :
    openFrame (s.setPc rest) (exchangeOps s.par.cmdWriteStatus d i) = .next (openedFrame s d i rest) := by
  unfold openFrame
  simp only [State.setPc_seqState, State.setPc_cs, hb, hc, State.pushOps_setPc, State.setPc_cfg, List.append_assoc,
    List.cons_append, List.nil_append]
  unfold openedFrame
  split <;> rfl

theorem openFrame_eq_next {d : Nat} (h : openFrame (s.setPc rest) (exchangeOps s.par.cmdWriteStatus d i) = .next t) :
    s.seqState = .busy ∧ s.cs = .high ∧ t = openedFrame s d i rest := by
  by_cases hn : s.seqState ≠ .busy ∨ s.cs ≠ .high
  · obtain ⟨f, hf⟩ := openFrame_stops (s := s.setPc rest) hn (exchangeOps s.par.cmdWriteStatus d i)
    rw [hf] at h
    cases h
  · obtain ⟨hb, hc⟩ := not_or.1 hn
    rw [not_not] at hb hc
    rw [openFrame_opens hb hc] at h
    exact ⟨hb, hc, (Host.Outcome.next.inj h).symm⟩

/-- The chunk stands where `CUR` says, inside the range the running request names (R11, R46). -/
theorem chunkBuffer_eq_ok {n : Word} {d : Nat} (h : chunkBuffer s n = .ok d) :
    ∃ q buf len cur, s.current = some q ∧ q.buffer = some (buf, len) ∧ s.readReg .cur = .ok cur
      ∧ cur.toNat + n.toNat ≤ len.toNat ∧ buf.toNat + cur.toNat + n.toNat ≤ 2 ^ 32 ∧ d = buf.toNat + cur.toNat := by
  unfold chunkBuffer at h
  split at h
  · rename_i buf len cur hbuf hcur
    obtain ⟨q, hq, hbuf⟩ := Option.bind_eq_some_iff.1 hbuf
    split at h
    · rename_i hin
      cases h
      exact ⟨q, buf, len, cur, hq, hbuf, hcur, hin.1, hin.2, rfl⟩
    · cases h
  · cases h
  · cases h

/-- A frame goes on only by opening its transaction, its data inside the buffer range (R46, R87). -/
theorem openedFrame_of_exec (hf : i.isFrame = true) (h : exec i (s.setPc rest) = .next t) :
    s.cs = .high ∧ ∃ d, (plainFrame i = true ∨ chunkBuffer s (chunkOperand i) = .ok d) ∧ t = openedFrame s d i rest := by
  cases hp : plainFrame i with
  | true =>
    rw [exec_plainFrame hp _ 0] at h
    obtain ⟨-, hc, ht⟩ := openFrame_eq_next h
    exact ⟨hc, 0, .inl rfl, ht⟩
  | false =>
    rw [exec_dataFrame hf hp] at h
    obtain ⟨d, hd, h⟩ := withValue_eq_next.1 h
    obtain ⟨-, hc, ht⟩ := openFrame_eq_next h
    exact ⟨hc, d, .inr hd, ht⟩

end

/-- Settles O47: each clause is what `openFrame` or `chunkBuffer` answers there. -/
theorem frameStops : Obligations.FrameStops := by
  intro i s hf
  refine ⟨fun hp hw => ?_, fun hp hb hc => ?_, fun hp q buf len cur hq hbuf hcur hlt => ?_, fun hp hcur => ?_, fun h => ?_⟩
  · rw [exec_plainFrame hp s 0, openFrame_of_waiting hw]
  · rw [exec_plainFrame hp s 0, openFrame_of_not_high hb hc]
  · have hread : s.readReg .cur = .ok cur := State.holds.readReg (r := .cur) hcur
    have hno : ¬ (cur.toNat + (chunkOperand i).toNat ≤ len.toNat
        ∧ buf.toNat + cur.toNat + (chunkOperand i).toNat ≤ 2 ^ 32) := by omega
    have hbuffer : chunkBuffer s (chunkOperand i) = .error .outsideBuffer := by
      simp only [chunkBuffer, hq, Option.bind_some, hbuf, hread, if_neg hno]
    rw [exec_dataFrame hf hp, hbuffer]
    rfl
  · have hbuffer : chunkBuffer s (chunkOperand i) = .error (.registerNoValue .cur) := by
      simp only [chunkBuffer, State.readReg_of_not_fresh (r := .cur) hcur]
    rw [exec_dataFrame hf hp, hbuffer]
    rfl
  · cases hp : plainFrame i with
    | true =>
      rw [exec_plainFrame hp s 0]
      exact openFrame_stops h _
    | false =>
      rw [exec_dataFrame hf hp]
      cases chunkBuffer s (chunkOperand i) with
      | ok d => exact openFrame_stops h _
      | error f => exact ⟨f, rfl⟩

end Sys2Proof.Machine
end

section
/-! One step as a request arrives or `pc` is performed (R27, R28, R34, R40), a request that arrives while another runs
(R127), and INIT's page-size check (R92). -/

namespace Sys2Proof.Machine

/-! ### Steps -/

/-- Settles O8: the step is the Host's move, and taking a request records and executes it. -/
theorem stepTakesRequest : Obligations.StepTakesRequest := by
  intro s r rest hf
  rw [step_eq_agentStep hf]
  refine ⟨fun he => ?_, fun he hb => ?_⟩
  · simp only [agentStep, he]
    rfl
  · simp only [agentStep, he, if_neg hb]
    rfl

/-- Settles O9: the step is the sequencer's own (`step_eq_seqStep`), and that performs what stands at `pc`. -/
theorem stepRunsNextPosition : Obligations.StepRunsNextPosition := by
  intro s rest hb hq
  rw [step_eq_seqStep hb hq]
  refine ⟨fun p hpc => ?_, fun i hpc => ?_, fun c i hpc hi => ?_⟩
  · rw [← State.setPc_of_pc hpc]
    exact seqStep_prim hb p rest
  · rw [← State.setPc_of_pc hpc]
    exact seqStep_frame hb (.fixed i) rest
  · rw [← State.setPc_of_pc hpc, seqStep_frame hb c rest]
    exact congrArg (withValue · _) hi

/-! ### What stands for a request, and what for a frame -/

theorem decodeRequest_isFrame (r : Record) : (decodeRequest r).isFrame = false := by
  unfold decodeRequest
  split <;> rfl

/-- What a byte sequence is decoded to, if to anything, is a frame. -/
def GivesFrame (e : Except DecodeError Instr) : Prop := ∀ i, e = .ok i → i.isFrame = true

namespace GivesFrame
variable {c : Byte} {rest : List Byte}

theorem ok {i : Instr} (h : i.isFrame = true) : GivesFrame (.ok i) := by
  rintro _ ⟨⟩
  exact h

theorem error (e : DecodeError) : GivesFrame (.error e) := nofun

theorem ite {p : Prop} [Decidable p] {x y : Except DecodeError Instr} (hx : GivesFrame x) (hy : GivesFrame y) :
    GivesFrame (if p then x else y) := by
  split
  · exact hx
  · exact hy

theorem frameOf {k : Nat} {i : Instr} (h : i.isFrame = true) : GivesFrame (frameOf c k rest i) := ite (ok h) (error _)

theorem frameData {f : Word → Instr} (h : ∀ n, (f n).isFrame = true) : GivesFrame (frameData c rest f) :=
  ite (ok (h _)) (error _)

theorem frameA3 {f : Addr24 → Instr} (h : ∀ a, (f a).isFrame = true) : GivesFrame (frameA3 c rest f) := by
  unfold Sys2Proof.frameA3
  split
  · exact ok (h _)
  · exact error _

theorem frameA4 {f : Word → Instr} (h : ∀ a, (f a).isFrame = true) : GivesFrame (frameA4 c rest f) := by
  unfold Sys2Proof.frameA4
  split
  · exact ok (h _)
  · exact error _

theorem frameD3 {f : Addr24 → Word → Instr} (h : ∀ a n, (f a n).isFrame = true) : GivesFrame (frameD3 c rest f) := by
  unfold Sys2Proof.frameD3
  split
  · exact frameData (h _)
  · exact error _

theorem frameD4 {f : Word → Word → Instr} (h : ∀ a n, (f a n).isFrame = true) : GivesFrame (frameD4 c rest f) := by
  unfold Sys2Proof.frameD4
  split
  · exact frameData (h _)
  · exact error _

/-- A byte sequence never stands for a request (R65, R69): the commands of R69 in `decodeFrame`'s order. -/
theorem decodeFrame (ws : Byte) (bytes : List Byte) : GivesFrame (decodeFrame ws bytes) := by
  cases bytes with
  | nil => exact error _
  | cons c rest =>
    refine ite (frameOf rfl) (ite (frameOf rfl) (ite (frameOf rfl) ?_))
    refine ite (frameD3 fun _ _ => rfl) (ite (frameD4 fun _ _ => rfl) ?_)
    refine ite (frameD3 fun _ _ => rfl) (ite (frameD4 fun _ _ => rfl) ?_)
    refine ite (frameA3 fun _ => rfl) (ite (frameA4 fun _ => rfl) ?_)
    refine ite (frameA3 fun _ => rfl) (ite (frameA4 fun _ => rfl) ?_)
    refine ite (frameOf rfl) (ite (frameOf rfl) (ite (frameOf rfl) ?_))
    refine ite (frameOf rfl) (ite (frameOf rfl) (ite (frameOf rfl) (ite ?_ (error _))))
    split
    · exact ok rfl
    · exact error _

end GivesFrame

/-- A table word is a frame's bytes or a request record (log entry 5). -/
theorem tableWire_cases (nbits w : Nat) :
    (∃ bytes, tableWire nbits w = .frame bytes) ∨ tableWire nbits w = .request (BitVec.ofNat 136 (w % 2 ^ nbits)) := by
  unfold tableWire
  split
  · exact .inl ⟨_, rfl⟩
  · exact .inr rfl

/-- The step after a frame is placed opens it (log entry 6). -/
theorem step_placeFrame (i : Instr) (n : Word) (s : State) :
    step (placeFrame i n s)
      = exec i ({ placeFrame i n s with env := s.env }.setPc (s.pc.getD [.prim (.respond .nothing)])) := by
  unfold placeFrame
  split <;> rfl

/-- Settles O10: the decoder reads a request from a request record and a frame from a frame's bytes, and each is placed where the
next step takes it. -/
theorem stepRunsTableWord : Obligations.StepRunsTableWord := by
  intro s nbits w i hf hi
  unfold decodeTableWord at hi
  rcases tableWire_cases nbits w with ⟨bytes, hw⟩ | hw
  · have hd : decodeFrame Config.specWriteStatus bytes = .ok i := by
      rw [hw] at hi
      split at hi
      · exact Option.some.inj hi ▸ ‹_›
      · cases hi
    have hframe := GivesFrame.decodeFrame _ _ _ hd
    have hplace : s.withFetchWord nbits w = placeFrame i (chunkOperand i) s := by
      simp only [State.withFetchWord, placeWord, hw, hd]
    rw [hplace, step_placeFrame]
    refine ⟨fun h => absurd (hframe.symm.trans h) (by decide), fun _ h0 => ?_, fun _ h0 => ?_⟩
    · rw [placeFrame, if_pos h0]
      rfl
    · rw [placeFrame, if_neg h0]
      rfl
  · have hd : decodeRequest (BitVec.ofNat 136 (w % 2 ^ nbits)) = i := by
      rw [hw] at hi
      exact Option.some.inj hi
    have hreq : i.isFrame = false := hd ▸ decodeRequest_isFrame _
    have hplace : s.withFetchWord nbits w
        = { s with env := .request (BitVec.ofNat 136 (w % 2 ^ nbits)) :: s.env } := by
      simp only [State.withFetchWord, placeWord, hw]
    refine ⟨fun _ => ?_, fun h => absurd (hreq.symm.trans h) (by decide), fun h => absurd (hreq.symm.trans h) (by decide)⟩
    rw [hplace, ← hd]
    exact (stepTakesRequest { s with env := .request _ :: s.env } _ s.env hf).1 rfl

/-! ### A request while another runs -/

theorem acceptIdle_of_busy {s : State} (hb : s.seqState = .busy) (k : State → State) :
    acceptIdle s k = .next (s.raiseFault .busy) := by
  unfold acceptIdle
  rw [hb]

theorem acceptAny_of_busy {s : State} (hb : s.seqState = .busy) (k : State → State) :
    acceptAny s k = .next (s.raiseFault .busy) := by
  unfold acceptAny
  rw [hb]

/-- The buffer and address ranges of a data request end at 2^32 at most (R120); another request names none. -/
def rangeFits : Instr → Bool
  | .readData a n buf | .writeData a n buf => rangeOk a n buf
  | _ => true

/-- The checks of a request, by kind: a reserved code's, INIT's, and those of the requests that ask for `IDLE` (R126). -/
theorem exec_request_eq {i : Instr} (hi : i.isFrame = false) (s : State) :
    ((∃ op, i = .reservedOp op) ∧ exec i s = acceptAny s fun s => s.raiseFault .undefinedOp)
      ∨ (i = .init ∧ exec i s = acceptAny s fun s =>
          if cfgOk s.cfg then s.startRequest i (requestOps i) else s.raiseFault .config)
      ∨ ((i ≠ .init ∧ ∀ op, i ≠ .reservedOp op) ∧ exec i s = acceptIdle s fun s =>
          if rangeFits i then s.startRequest i (requestOps i) else s.raiseFault .range) := by
  cases i with
  | reservedOp op => exact .inl ⟨⟨op, rfl⟩, rfl⟩
  | init => exact .inr (.inl ⟨rfl, rfl⟩)
  | identify | validate | readStatus | readConfig | writeStatus | waitWrite | writeEnable | sectorErase | blockErase
  | chipErase | resetDevice | deepPowerDown | wake | readData | writeData =>
    exact .inr (.inr ⟨⟨nofun, nofun⟩, rfl⟩)
  | _ => cases hi

/-- Every request that arrives in `BUSY` raises `FAULT_BUSY` (R34, R126). -/
theorem exec_request_of_busy {i : Instr} {s : State} (hi : i.isFrame = false) (hb : s.seqState = .busy) :
    exec i s = .next (s.raiseFault .busy) := by
  rcases exec_request_eq hi s with ⟨-, h⟩ | ⟨-, h⟩ | ⟨-, h⟩
  · rw [h, acceptAny_of_busy hb]
  · rw [h, acceptAny_of_busy hb]
  · rw [h, acceptIdle_of_busy hb]

/-- In `FAULTED` a request has no move (R123, R129). -/
theorem exec_request_of_faulted {i : Instr} {s : State} (hi : i.isFrame = false) (hs : s.seqState = .faulted) :
    exec i s = .fault .stuckFaulted := by
  rcases exec_request_eq hi s with ⟨-, h⟩ | ⟨-, h⟩ | ⟨-, h⟩
  · rw [h, acceptAny, hs]
  · rw [h, acceptAny, hs]
  · rw [h, acceptIdle, hs]

/-- Settles O15: the arriving request only raises `FAULT_BUSY` (`exec_request_of_busy`), which leaves all else in place. -/
theorem busyRequestAbandonsInPlace : Obligations.BusyRequestAbandonsInPlace := by
  intro s r rest hb he
  have hstep : step s = .next (({ s with env := rest }.record (.req r)).raiseFault .busy) :=
    ((stepTakesRequest s r rest (by simp [hb])).1 he).trans (exec_request_of_busy (decodeRequest_isFrame r) hb)
  refine ⟨_, hstep, rfl, rfl, ?_, rfl, rfl, rfl, rfl, rfl, rfl, rfl, fun _ => rfl⟩
  exact List.append_assoc _ _ _

/-! ### The page-size check -/

/-- Settles O17: in natural numbers the check is the library's test for a power of two, and below 2^32 there are 32 of
them. -/
theorem pageSizeCheckIsPowerOfTwo : Obligations.PageSizeCheckIsPowerOfTwo := by
  intro v
  have hlt : v.toNat < 2 ^ 32 := v.isLt
  have hcheck : isPowerOfTwo v = true ↔ v.toNat ≠ 0 ∧ v.toNat &&& (v.toNat - 1) = 0 := by
    simp only [isPowerOfTwo, Bool.and_eq_true, bne_iff_ne, beq_iff_eq, ne_eq, ← BitVec.toNat_inj, BitVec.toNat_and]
    refine and_congr_right fun h0 => ?_
    rw [BitVec.toNat_sub_of_le (by rw [BitVec.le_def]; exact Nat.one_le_iff_ne_zero.2 h0)]
    rfl
  rw [hcheck]
  constructor
  · rintro ⟨h0, h⟩
    obtain ⟨k, hk⟩ := (Nat.and_sub_one_eq_zero_iff_isPowerOfTwo h0).1 h
    rw [hk] at hlt
    exact ⟨k, (Nat.pow_lt_pow_iff_right Nat.one_lt_two).1 hlt, hk⟩
  · rintro ⟨k, -, hk⟩
    have h0 : v.toNat ≠ 0 := by rw [hk]; exact Nat.two_pow_pos k |>.ne'
    exact ⟨h0, (Nat.and_sub_one_eq_zero_iff_isPowerOfTwo h0).2 ⟨k, hk⟩⟩

end Sys2Proof.Machine
end

section
/-! The invariant, step by step: what it says of a running request, that every position of the pseudocode keeps it and can be
performed, and from there that every step keeps it and goes on (R25, R30, R46, R89, R130, R137). -/

namespace Sys2Proof.Machine

/-! ### What the invariant says of a running request -/

/-- What `Inv` says of a state in which request `i` runs, `ops` is left of it and the trace stands at `b`. The state's own
`pc` takes no part. -/
structure Running (s : State) (b : Bracket) (i : Instr) (ops : List Micro) : Prop where
  busy : s.seqState = .busy
  current : s.current = some i
  noFault : s.faultCode = none
  wf : s.mem.wf = true
  trace : traceBracket s.cfg s.par .undriven s.trace = some b
  cs : b.cs = s.cs
  cfg : cfgOk s.cfg = true
  bracket : pcBracket s.cfg s.par b ops = true
  defines : definesFirst (live s) ops = true
  own : ownOps s i ops = true
  notLow : i = .init → b.cs ≠ .low
  transport : s.cfg.shared = true ∨ .prim .applyIfExclusive ∈ ops ∨ s.transport = some s.cfg.bus

section
variable {s t u : State} {b b' : Bracket} {i : Instr} {m : Micro} {ops rest l : List Micro}

theorem ownOps_congr (hr : rangeRegs t = rangeRegs s) (hc : t.cfg = s.cfg) (i : Instr) (ops : List Micro) :
    ownOps t i ops = ownOps s i ops := by
  cases i <;> simp only [ownOps, hr, hc]

theorem Running.inv (h : Running s b i ops) : Inv (s.setPc ops) := by
  refine ⟨h.wf, b, h.trace, h.cs, ?_, ?_⟩
  · simp only [controlOk, State.setPc_seqState, h.busy, State.setPc_faultCode, h.noFault, State.setPc_current, h.current,
      State.setPc_pc, busyOk, Bool.and_eq_true, Bool.or_eq_true, decide_eq_true_eq]
    exact ⟨rfl, ⟨⟨⟨h.cfg, h.bracket⟩, h.defines⟩, (ownOps_congr rfl rfl i ops).trans h.own⟩,
      or_iff_not_imp_left.2 fun hi => h.notLow (not_not.1 hi)⟩
  · simp only [transportOk, State.setPc_seqState, h.busy, applyPending, State.setPc_pc, Bool.or_eq_true, beq_iff_eq,
      List.contains_iff_mem]
    exact h.transport

theorem running_of_inv (h : Inv s) (hb : s.seqState = .busy) : ∃ b i ops, s.pc = some ops ∧ Running s b i ops := by
  obtain ⟨hwf, b, htrace, hcs, hcontrol, htransport⟩ := h
  simp only [controlOk, hb, Bool.and_eq_true, Option.isNone_iff_eq_none] at hcontrol
  obtain ⟨hfault, hrun⟩ := hcontrol
  split at hrun
  · rename_i i ops hcur hpc
    simp only [busyOk, Bool.and_eq_true, Bool.or_eq_true, decide_eq_true_eq] at hrun
    obtain ⟨⟨⟨⟨hcfg, hbracket⟩, hdefines⟩, hown⟩, hlow⟩ := hrun
    simp only [transportOk, hb, applyPending, hpc, Bool.or_eq_true, beq_iff_eq, List.contains_iff_mem] at htransport
    exact ⟨b, i, ops, hpc, hb, hcur, hfault, hwf, htrace, hcs, hcfg, hbracket, hdefines, hown,
      fun hi => hlow.resolve_left (not_not.2 hi), htransport⟩
  · cases hrun

/-! ### One position further -/

/-- The request goes on: `u` records `evs` and leaves the control state as in `s`, and `l` is pushed before what was next. -/
theorem Running.goOn {evs : List Event} {j k : Nat} (h : Running s b i (m :: rest)) (hm : m ≠ .prim .applyIfExclusive)
    (hd : Did s u evs j k) (hk : KeepsControl s u) (htr : traceBracket s.cfg s.par b evs = some b') (hcs : b'.cs = u.cs)
    (hwf : u.mem.wf = true) (hb : pcBracket s.cfg s.par b' (l ++ rest) = true)
    (hdef : definesFirst (live u) (l ++ rest) = true) (hown : ownOps u i (l ++ rest) = true)
    (hlow : b'.cs = .low → b.cs ≠ .low → i ≠ .init) : Running u b' i (l ++ rest) where
  busy := hk.seqState.trans h.busy
  current := hk.current.trans h.current
  noFault := hk.faultCode.trans h.noFault
  wf := hwf
  trace := by rw [hd.cfg, hd.par, hd.trace, traceBracket_append, h.trace]; exact htr
  cs := hcs
  cfg := by rw [hd.cfg]; exact h.cfg
  bracket := by rw [hd.cfg, hd.par]; exact hb
  defines := hdef
  own := hown
  notLow hi hl := hlow hl (h.notLow hi) hi
  transport := by
    rw [hd.cfg, hk.transport]
    refine h.transport.imp_right (Or.imp_left fun hmem => ?_)
    exact List.mem_append_right _ ((List.mem_cons.1 hmem).resolve_left hm.symm)

/-- A position that may stand where it does and is followed by the rest (R89). -/
theorem Running.leads (h : Running s b i (m :: rest)) (hm : ∀ k, m ≠ .prim (.respond k)) :
    ∃ b', microBracket s.cfg s.par b m = some b' ∧ pcBracket s.cfg s.par b' rest = true :=
  pcBracket_cons h.bracket hm

/-- A position that stands at one bracket only is at that one. -/
theorem Running.bracket_eq {x : Bracket} (h : Running s b i (m :: rest)) (hr : ∀ k, m ≠ .prim (.respond k))
    (hm : ∀ b, microBracket s.cfg s.par b m = if b = x then some x else none) : b = x := by
  obtain ⟨b', hb', -⟩ := h.leads hr
  rw [hm, Option.ite_none_right_eq_some] at hb'
  exact hb'.1

/-- INIT's only neutral position is its `CsDeassert` (R92). -/
theorem eq_csDeassert_of_own_init (h : ownOps s .init (m :: rest) = true) (hn : neutral m = true) :
    m = .prim .csDeassert := by
  simp only [ownOps, Bool.or_eq_true, decide_eq_true_eq, List.cons.injEq] at h
  rcases h with (⟨hm, -⟩ | ⟨hm, -⟩) | ⟨hm, -⟩
  · exact hm
  all_goals
    rw [hm] at hn
    cases hn

/-- A neutral position that pushes nothing: what it writes is there, and the bracket moves as `microBracket` says. -/
theorem Running.neutralStep {evs : List Event} {j k : Nat} (h : Running s b i (m :: rest)) (hn : neutral m = true)
    (hd : Did s u evs j k) (hk : KeepsControl s u) (hmem : u.mem = s.mem) (hrange : rangeRegs u = rangeRegs s)
    (hlive : ∀ v, live s v = true ∨ v ∈ gives m → live u v = true)
    (hb : ∀ b', microBracket s.cfg s.par b m = some b' →
      traceBracket s.cfg s.par b evs = some b' ∧ b'.cs = u.cs) :
    ∃ b', microBracket s.cfg s.par b m = some b' ∧ Running u b' i rest := by
  obtain ⟨b', hb', hrest⟩ := h.leads (m := m) (by rintro k rfl; cases hn)
  obtain ⟨htr, hcs⟩ := hb b' hb'
  refine ⟨b', hb', h.goOn (l := []) (by rintro rfl; cases hn) hd hk htr hcs (hmem ▸ h.wf) hrest
    (definesFirst_tail h.defines hlive) (ownOps_tail h.own hn hrange hd.cfg) ?_⟩
  rintro hl - rfl
  rw [eq_csDeassert_of_own_init h.own hn] at hb'
  simp only [microBracket, Option.ite_none_right_eq_some, Option.some.injEq] at hb'
  rw [← hb'.2] at hl
  cases hl

/-- A procedure's positions pushed before the rest, none of which a data request's range or INIT owns. -/
theorem Running.push (h : Running s b i rest) (hi : i ≠ .init) (hl : ∀ m ∈ l, neutral m = true)
    (hb : pcBracket s.cfg s.par b (l ++ rest) = true) (hdef : definesFirst (live s) (l ++ rest) = true) :
    Running s b i (l ++ rest) :=
  { h with
    bracket := hb
    defines := hdef
    own := ownOps_push h.own hi hl
    transport := h.transport.imp_right (Or.imp_left (List.mem_append_right l)) }

/-- A position that takes nothing away, and reads only what is there, before the rest. -/
theorem definesFirst_cons {f : Var → Bool} (hn : ∀ v ∈ needs m, f v = true) (hd : drops m = [])
    (h : definesFirst f rest = true) : definesFirst f (m :: rest) = true := by
  simp only [definesFirst, Bool.and_eq_true, List.all_eq_true]
  exact ⟨hn, definesFirst_mono (by simp +contextual [hd]) h⟩

/-- Positions that leave the bracket where it is. -/
theorem pcBracket_push {c : Cfg} {p : Params}
    (hl : ∀ m ∈ l, microBracket c p b m = some b ∧ ∀ k, m ≠ .prim (.respond k)) (ops : List Micro) :
    pcBracket c p b (l ++ ops) = pcBracket c p b ops := by
  induction l with
  | nil => rfl
  | cons m l ih =>
    obtain ⟨hm, hr⟩ := hl m List.mem_cons_self
    rw [← ih fun m' h => hl m' (List.mem_cons_of_mem _ h), List.cons_append]
    cases m with
    | frame f => simp only [pcBracket, hm]
    | prim q =>
      cases q with
      | respond k => exact absurd rfl (hr k)
      | _ => simp only [pcBracket, hm]

/-! ### Data requests -/

/-- What is left of a data request is its own when its buffer range ends at 2^32 at most and `rangeOps` holds (R46). -/
theorem ownOps_data {dir : DataDir} {buf len : Word} (hdir : dataDir i = some dir) (hbuf : i.buffer = some (buf, len)) :
    ownOps s i ops = true ↔ buf.toNat + len.toNat ≤ 2 ^ 32
      ∧ rangeOps s.cfg.pageSize buf len dir (rangeRegs s) ops = true := by
  cases i <;> cases hdir <;> cases hbuf <;> simp only [ownOps, Bool.and_eq_true, decide_eq_true_eq]

/-- The positions of the data procedures stand in a data request only. -/
theorem Running.data (h : Running s b i (m :: rest)) (hm : dataOrInit m = true) (ha : m ≠ .prim .applyIfExclusive) :
    ∃ dir buf len, dataDir i = some dir ∧ i.buffer = some (buf, len) ∧ i ≠ .init := by
  have hown := h.own
  cases i with
  | readData a n buf => exact ⟨_, _, _, rfl, rfl, nofun⟩
  | writeData a n buf => exact ⟨_, _, _, rfl, rfl, nofun⟩
  | init =>
    simp only [ownOps, Bool.or_eq_true, decide_eq_true_eq, List.cons.injEq] at hown
    rcases hown with (⟨rfl, -⟩ | ⟨rfl, -⟩) | ⟨rfl, -⟩
    · cases hm
    · exact absurd rfl ha
    · cases hm
  | identify | validate | readStatus | readConfig | writeStatus | waitWrite | writeEnable | sectorErase | blockErase
  | chipErase | resetDevice | deepPowerDown | wake =>
    simp only [ownOps, List.all_cons, hm, Bool.not_true, Bool.false_and, Bool.false_eq_true] at hown
  | _ => cases hown

/-- A position of a data request, which stands at one bracket `x` and leaves it there: what it pushes keeps the range (R46,
R114). -/
theorem Running.dataStep {evs : List Event} {j k : Nat} {dir : DataDir} {buf len : Word} {x : Bracket}
    (h : Running s b i (m :: rest)) (hm : dataOrInit m = true) (ha : m ≠ .prim .applyIfExclusive)
    (hdir : dataDir i = some dir) (hbuf : i.buffer = some (buf, len))
    (hmb : ∀ b, microBracket s.cfg s.par b m = if b = x then some x else none)
    (hd : Did s u evs j k) (hk : KeepsControl s u) (hcs : u.cs = s.cs) (hwf : u.mem.wf = true)
    (hev : traceBracket s.cfg s.par x evs = some x)
    (hl : ∀ m ∈ l, microBracket s.cfg s.par x m = some x ∧ ∀ k, m ≠ .prim (.respond k))
    (hdef : definesFirst (live u) (l ++ rest) = true)
    (hrange : rangeOps s.cfg.pageSize buf len dir (rangeRegs u) (l ++ rest) = true) : Running u x i (l ++ rest) := by
  have hrespond : ∀ k, m ≠ .prim (.respond k) := by
    rintro k rfl
    cases hm
  obtain rfl := h.bracket_eq hrespond hmb
  obtain ⟨b', hb', hrest⟩ := h.leads hrespond
  rw [hmb, if_pos rfl] at hb'
  cases hb'
  refine h.goOn ha hd hk hev (h.cs.trans hcs.symm) hwf ((pcBracket_push hl rest).trans hrest) hdef ?_
    fun hl hn => absurd hl hn
  rw [ownOps_data hdir hbuf, hd.cfg]
  exact ⟨((ownOps_data hdir hbuf).1 h.own).1, hrange⟩

end

/-! ### Every primitive keeps the invariant -/

theorem Did.lowerCs (s : State) : Did s s.lowerCs [.csLow] 0 0 := ⟨rfl, by simp, by simp, rfl, rfl⟩

namespace KeepsControl

theorem lowerCs (s : State) : KeepsControl s s.lowerCs := ⟨rfl, rfl, rfl, rfl, rfl, rfl⟩

theorem delayUs (s : State) (n : Word) : KeepsControl s (s.delayUs n) :=
  ⟨by simp, by simp, by simp, by simp, by simp, by simp⟩

theorem writeReg (s : State) (r : Reg) (v : Word) : KeepsControl s (s.writeReg r v) := ⟨rfl, rfl, rfl, rfl, rfl, rfl⟩

theorem dropLocal (s : State) (l : Local) : KeepsControl s (s.dropLocal l) := ⟨rfl, rfl, rfl, rfl, rfl, rfl⟩

theorem readClock (s : State) : KeepsControl s s.readClock := ⟨rfl, rfl, rfl, rfl, rfl, rfl⟩

theorem record (s : State) (e : Event) : KeepsControl s (s.record e) := ⟨rfl, rfl, rfl, rfl, rfl, rfl⟩

end KeepsControl

section
variable {s t u : State} {b b' : Bracket} {i : Instr} {m : Micro} {rest l : List Micro}

theorem State.holds_of_readReg {r : Reg} {v : Word} (h : s.readReg r = .ok v) : s.holds r v := by
  unfold State.readReg at h
  unfold State.holds
  split at h
  · rename_i hf hv
    cases hc : s.regs.get r with
    | mk value fresh =>
      rw [hc] at hf hv
      cases h
      simp_all
  · cases h

/-- A register that was read may be read again. -/
theorem live_of_readReg {r : Reg} {v : Word} (h : s.readReg r = .ok v) : live s (.reg r) = true := by
  have hget : s.regs.get r = _ := State.holds_of_readReg h
  simp [live, hget]

theorem live_xferTo (s : State) (x : TxByte) (rx : RxDest) (v : Var)
    (h : live s v = true ∨ v ∈ gives (.prim (.xfer x rx))) : live (s.xferTo x rx) v = true := by
  cases rx with
  | discard => exact h.resolve_right (List.not_mem_nil)
  | status => exact live_writeReg (s.exchange x) .s _ v h
  | keep l => exact live_writeLocal (s.exchange x) l _ v h

theorem rangeRegs_xferTo (s : State) (x : TxByte) (rx : RxDest) : rangeRegs (s.xferTo x rx) = rangeRegs s := by
  cases rx <;> rfl

/-- Where the delay may stand, so may its event, none for 0 (R10, R93). -/
theorem traceBracket_delay {d : DelayName} (h : microBracket s.cfg s.par b (.prim (.delay d)) = some b') :
    traceBracket s.cfg s.par b (delayEvents (delayLength s.cfg s.par d)) = some b' ∧ b'.cs = b.cs := by
  unfold delayEvents
  cases d with
  | sharedSettle =>
    simp only [microBracket, Option.ite_none_right_eq_some, Option.some.injEq] at h
    obtain ⟨⟨-, rfl⟩, rfl⟩ := h
    unfold afterApply delayLength
    split
    · exact ⟨rfl, rfl⟩
    · simp [traceBracket, traceStep, Bracket.cs]
  | weSettle | resetSettle | tres | dpdSettle =>
    simp only [microBracket, Option.ite_none_right_eq_some, Option.some.injEq] at h
    obtain ⟨rfl, rfl⟩ := h
    split <;> simp [traceBracket, traceStep]

/-- The byte of an exchange stands where the exchange may (R65, R75, R89). -/
theorem traceBracket_xfer {x : TxByte} {rx : RxDest} (r : Byte)
    (h : microBracket s.cfg s.par b (.prim (.xfer x rx)) = some b') :
    traceBracket s.cfg s.par b [.xfer x r] = some b' ∧ b'.cs = b.cs := by
  have hstep : traceStep s.cfg s.par b (.xfer x r) = some b' := by cases x <;> exact h
  refine ⟨by simp [traceBracket, hstep], ?_⟩
  cases x <;> simp only [microBracket] at h <;> split_ifs at h <;> cases h <;> simp [*, Bracket.cs]

theorem Running.ne_init (h : Running s b i (m :: rest)) (hn : neutral m = true) (hm : m ≠ .prim .csDeassert) :
    i ≠ .init := by
  rintro rfl
  exact hm (eq_csDeassert_of_own_init h.own hn)

/-- A neutral position that stands between frames and leaves chip-select alone. -/
theorem Running.closedStep {evs : List Event} {j k : Nat} (h : Running s b i (m :: rest)) (hn : neutral m = true)
    (hm : ∀ b, microBracket s.cfg s.par b m = if b = .closed then some .closed else none) (hd : Did s u evs j k)
    (hk : KeepsControl s u) (hcs : u.cs = s.cs) (hmem : u.mem = s.mem) (hrange : rangeRegs u = rangeRegs s)
    (hlive : ∀ v, live s v = true ∨ v ∈ gives m → live u v = true)
    (hev : traceBracket s.cfg s.par .closed evs = some .closed) : Running u .closed i rest := by
  obtain rfl := h.bracket_eq (by rintro k rfl; cases hn) hm
  obtain ⟨b', hb', hr⟩ := h.neutralStep hn hd hk hmem hrange hlive fun b' hb' => by
    rw [hm, if_pos rfl] at hb'
    cases hb'
    exact ⟨hev, h.cs.trans hcs.symm⟩
  rw [hm, if_pos rfl] at hb'
  cases hb'
  exact hr

/-- The loop of `Wait` goes round: the status read writes `S` before it is tested (R102). -/
theorem definesFirst_pollAgain {f : Var → Bool} (hf : ∀ v ∈ needs (.prim .pollPause), f v = true)
    (h : definesFirst f rest = true) :
    definesFirst f ([.frame (.fixed .spiReadStatus), .prim .pollTest] ++ rest) = true := by
  refine definesFirst_push (l := [.frame (.fixed .spiReadStatus)]) (by simp [needs, drops])
    (definesFirst_cons (fun v hv => ?_) rfl (definesFirst_mono (by simp +contextual) h))
  rcases List.mem_cons.1 hv with rfl | hv
  · simp [gives]
  · simp only [hf v hv, Bool.true_or]

/-- A primitive outside the data procedures, INIT's `ApplyBus` and the response keeps the invariant. -/
theorem Running.neutralPrim {p : Prim} (h : Running s b i (.prim p :: rest)) (hn : neutral (.prim p) = true)
    (hs : PrimStep s rest p t) : Inv t := by
  have hsame (v : Var) (hv : live s v = true ∨ v ∈ ([] : List Var)) : live s v = true := hv.resolve_right List.not_mem_nil
  have hread := definesFirst_head h.defines
  cases hs with
  | delay d =>
    obtain ⟨_, -, hr⟩ := h.neutralStep hn (Did.delayUs s _) (.delayUs s _) (by simp) (by simp [rangeRegs])
      (fun v hv => (congrFun (live_congr (by simp) (by simp)) v).trans (hsame v hv)) fun b' hb' => by
        rw [State.delayUs_cs, ← h.cs]
        exact traceBracket_delay hb'
    exact hr.inv
  | csAssert hc =>
    obtain ⟨_, -, hr⟩ := h.neutralStep hn (.lowerCs s) (.lowerCs s) rfl rfl hsame fun b' hb' => by
        simp only [microBracket, Option.ite_none_right_eq_some, Option.some.injEq] at hb'
        obtain ⟨⟨hsh, rfl⟩, rfl⟩ := hb'
        simp [traceBracket, traceStep, hsh, Bracket.cs]
    exact hr.inv
  | csDeassert =>
    obtain ⟨_, -, hr⟩ := h.neutralStep hn (Did.endTx s) (.raiseCs s) rfl rfl hsame fun b' hb' => by
        simp only [microBracket, Option.ite_none_right_eq_some, Option.some.injEq] at hb'
        obtain ⟨hb, rfl⟩ := hb'
        simp [traceBracket, traceStep, hb, Bracket.cs]
    exact hr.inv
  | xfer x rx hc =>
    obtain ⟨_, -, hr⟩ := h.neutralStep hn (Did.xferTo s x rx) (.xferTo s x rx) (by simp) (rangeRegs_xferTo s x rx)
      (live_xferTo s x rx) fun b' hb' => by
        rw [State.xferTo_cs, ← h.cs]
        exact traceBracket_xfer _ hb'
    exact hr.inv
  | waitBegin w =>
    exact (h.closedStep hn (fun _ => rfl) (Did.writeReg s .t _) (.writeReg s .t _) rfl rfl rfl (live_writeReg s .t _) rfl).inv
  | readStart =>
    exact (h.closedStep hn (fun _ => rfl) ((Did.readClock s).trans (Did.writeReg _ .start _))
      (.trans (.readClock s) (.writeReg _ .start _)) rfl rfl rfl (live_writeReg s.readClock .start _) rfl).inv
  | pollIdle => exact (h.closedStep hn (fun _ => rfl) (Did.refl s) (.refl s) rfl rfl rfl hsame rfl).inv
  | pollBusy =>
    have hr := h.closedStep hn (fun _ => rfl) (Did.refl s) (.refl s) rfl rfl rfl hsame rfl
    refine (hr.push (l := [.prim .pollClock]) (h.ne_init hn nofun) (by simp [neutral]) hr.bracket ?_).inv
    exact definesFirst_cons (fun v hv => hread v (List.mem_cons_of_mem _ hv)) rfl hr.defines
  | clockPast => exact (h.closedStep hn (fun _ => rfl) (Did.readClock s) (.readClock s) rfl rfl rfl hsame rfl).inv
  | clockBefore =>
    have hr := h.closedStep hn (fun _ => rfl) (Did.readClock s) (.readClock s) rfl rfl rfl hsame rfl
    refine (hr.push (l := [.prim .pollPause]) (h.ne_init hn nofun) (by simp [neutral]) hr.bracket ?_).inv
    exact definesFirst_cons hread rfl hr.defines
  | pollPause x hx =>
    have hev : traceBracket s.cfg s.par .closed [pauseEvent s x] = some .closed := by
      unfold pauseEvent
      split <;> rfl
    have hr := h.closedStep hn (fun _ => rfl) (Did.record s _) (.record s (pauseEvent s x)) rfl rfl rfl hsame hev
    refine (hr.push (l := [.frame (.fixed .spiReadStatus), .prim .pollTest]) (h.ne_init hn nofun) (by simp [neutral])
      hr.bracket ?_).inv
    exact definesFirst_pollAgain hread hr.defines
  | _ => cases hn

/-! ### Data procedures -/

/-- What a read gives is what the register holds. -/
theorem value_of_readReg {r : Reg} {v : Word} (h : s.readReg r = .ok v) : (s.regs.get r).value.getD 0 = v := by
  have hget : s.regs.get r = _ := State.holds_of_readReg h
  rw [hget]
  rfl

/-- The chunk loop's body before the response: what it reads it has written, and its chunk lies in the range (R113 to R118). -/
theorem definesFirst_chunkBody {f : Var → Bool} (d : DataDir)
    (hf : f (.reg .addr) = true ∧ f (.reg .rem) = true ∧ f (.reg .cur) = true) :
    definesFirst f (chunkBody d ++ [.prim (.respond .nothing)]) = true := by
  cases d <;> simp [definesFirst, chunkBody, waitOps, wrenOps, needs, gives, drops, hf]

theorem rangeOps_chunkBody {p buf len : Word} {d : DataDir} {r : RangeRegs} (h0 : r.rem ≠ 0)
    (htotal : r.cur.toNat + r.rem.toNat = len.toNat) :
    rangeOps p buf len d r (chunkBody d ++ [.prim (.respond .nothing)]) = true := by
  have hle := chunkLength_le p r.addr r.rem
  have hlen := len.isLt
  have hcur : (r.cur + chunkLength p r.addr r.rem).toNat = r.cur.toNat + (chunkLength p r.addr r.rem).toNat := by
    rw [BitVec.toNat_add]
    omega
  have hrem : (r.rem - chunkLength p r.addr r.rem).toNat = r.rem.toNat - (chunkLength p r.addr r.rem).toNat :=
    BitVec.toNat_sub_of_le hle
  have hfits : r.cur.toNat + (chunkLength p r.addr r.rem).toNat ≤ len.toNat := by omega
  have hnext : r.cur.toNat + (chunkLength p r.addr r.rem).toNat
      + (r.rem.toNat - (chunkLength p r.addr r.rem).toNat) = len.toNat := by omega
  cases d <;>
    simp only [chunkBody, waitOps, wrenOps, List.cons_append, List.nil_append, rangeOps, bne_iff_ne, ne_eq, h0,
      not_false_eq_true, Bool.and_eq_true, decide_eq_true_eq, hcur, hrem, hfits, hle, hnext, and_self]

/-- A primitive of the data procedures keeps the invariant. -/
theorem Running.dataPrim {p : Prim} (h : Running s b i (.prim p :: rest)) (hm : dataOrInit (.prim p) = true)
    (ha : Micro.prim p ≠ .prim .applyIfExclusive) (hs : PrimStep s rest p t) : Inv t := by
  obtain ⟨dir, buf, len, hdir, hbuf, -⟩ := h.data hm ha
  obtain ⟨hend, hrange⟩ := (ownOps_data hdir hbuf).1 h.own
  have hread := definesFirst_head h.defines
  have hlive : ∀ v, live s v = true ∨ v ∈ ([] : List Var) → live s v = true := fun v hv => hv.resolve_right List.not_mem_nil
  have haddr (a : Word) (ha : s.readReg .addr = .ok a) : (rangeRegs s).addr = a := value_of_readReg ha
  have hrem (a : Word) (ha : s.readReg .rem = .ok a) : (rangeRegs s).rem = a := value_of_readReg ha
  have hcur (a : Word) (ha : s.readReg .cur = .ok a) : (rangeRegs s).cur = a := value_of_readReg ha
  have hchunk (a : Word) (ha : s.readReg .chunk = .ok a) : (rangeRegs s).chunk = a := value_of_readReg ha
  cases hs with
  | dataInEnd d =>
    simp only [rangeOps, Bool.and_eq_true, decide_eq_true_eq] at hrange
    obtain ⟨-, hrest⟩ := hrange
    exact (h.dataStep (l := []) hm ha hdir hbuf (fun _ => rfl) (Did.refl s) (.refl s) rfl h.wf rfl nofun
      (definesFirst_tail h.defines hlive) hrest).inv
  | dataIn d k hc =>
    simp only [rangeOps, Bool.and_eq_true, decide_eq_true_eq] at hrange
    obtain ⟨⟨⟨hr, hlo⟩, hhi⟩, hrest⟩ := hrange
    refine (h.dataStep (l := [.prim (.storeIn d k)]) hm ha hdir hbuf (fun _ => rfl) (Did.xferTo s _ _) (.xferTo s _ _)
      (by simp) (by simpa using h.wf) rfl (by simp [microBracket]) (definesFirst_cons (live_xferTo s .dc (.keep .r) · <| .inr ·) rfl
        (definesFirst_tail h.defines fun v hv => live_xferTo s _ _ v (.inl (hlive v hv)))) ?_).inv
    simp only [List.cons_append, List.nil_append, rangeOps, rangeRegs_xferTo, Bool.and_eq_true, decide_eq_true_eq]
    exact ⟨⟨⟨hr, hlo⟩, by omega⟩, hrest⟩
  | storeIn d n x hx hd =>
    simp only [rangeOps, Bool.and_eq_true, decide_eq_true_eq] at hrange
    obtain ⟨⟨⟨hr, hlo⟩, hhi⟩, hrest⟩ := hrange
    refine (h.dataStep (l := [.prim (.dataIn (d + 1) n)]) hm ha hdir hbuf (fun _ => rfl) (Did.storeByte s d x) (.storeByte s d x)
      rfl (Memory.wf_write h.wf hd) rfl (by simp [microBracket]) (definesFirst_cons nofun rfl (definesFirst_tail h.defines hlive)) ?_).inv
    simp only [List.cons_append, List.nil_append, rangeOps, Bool.and_eq_true, decide_eq_true_eq]
    exact ⟨⟨⟨hr, by omega⟩, by omega⟩, hrest⟩
  | dropLocal l =>
    exact (h.dataStep (l := []) hm ha hdir hbuf (fun _ => rfl) (Did.dropLocal s l) (.dropLocal s l) rfl h.wf rfl nofun
      (definesFirst_dropLocal h.defines (live_dropLocal s l)) hrange).inv
  | dataOutEnd d =>
    simp only [rangeOps, Bool.and_eq_true, decide_eq_true_eq] at hrange
    obtain ⟨-, hrest⟩ := hrange
    exact (h.dataStep (l := []) hm ha hdir hbuf (fun _ => rfl) (Did.refl s) (.refl s) rfl h.wf rfl nofun
      (definesFirst_tail h.defines hlive) hrest).inv
  | dataOut d k hd hc =>
    simp only [rangeOps, Bool.and_eq_true, decide_eq_true_eq] at hrange
    obtain ⟨⟨⟨hr, hlo⟩, hhi⟩, hrest⟩ := hrange
    refine (h.dataStep (l := [.prim (.dataOut (d + 1) k)]) hm ha hdir hbuf (fun _ => rfl) (Did.xferTo s _ _) (.xferTo s _ _)
      (by simp) (by simpa using h.wf) rfl (by simp [microBracket]) (definesFirst_cons nofun rfl
        (definesFirst_tail h.defines fun v hv => live_xferTo s _ _ v (.inl (hlive v hv)))) ?_).inv
    simp only [List.cons_append, List.nil_append, rangeOps, rangeRegs_xferTo, Bool.and_eq_true, decide_eq_true_eq]
    exact ⟨⟨⟨hr, by omega⟩, by omega⟩, hrest⟩
  | setReg r v =>
    refine (h.dataStep (l := []) hm ha hdir hbuf (fun _ => rfl) (Did.writeReg s r v) (.writeReg s r v) rfl h.wf rfl nofun
      (definesFirst_tail h.defines (live_writeReg s r v)) ?_).inv
    cases r with
    | addr | rem | cur => exact hrange
    | chunk | t | start | s => cases hrange
  | nextChunk a rem har hr hp =>
    obtain ⟨-, hrest⟩ := Bool.and_eq_true_iff.1 hrange
    obtain rfl := haddr a har
    obtain rfl := hrem rem hr
    exact (h.dataStep (l := []) hm ha hdir hbuf (fun _ => rfl) (Did.writeReg s .chunk _) (.writeReg s .chunk _) rfl h.wf rfl nofun
      (definesFirst_tail h.defines (live_writeReg s .chunk _)) hrest).inv
  | advance a cur rem c har hc hr hch =>
    obtain ⟨-, hrest⟩ := Bool.and_eq_true_iff.1 hrange
    obtain rfl := haddr a har
    obtain rfl := hrem rem hr
    obtain rfl := hcur cur hc
    obtain rfl := hchunk c hch
    refine (h.dataStep (l := []) hm ha hdir hbuf (fun _ => rfl)
      (((Did.writeReg s .addr _).trans (Did.writeReg _ .cur _)).trans (Did.writeReg _ .rem _))
      (.trans (.trans (.writeReg s .addr _) (.writeReg _ .cur _)) (.writeReg _ .rem _)) rfl h.wf rfl nofun
      (definesFirst_tail h.defines fun v hv => ?_) ?_).inv
    · exact live_writeReg _ _ _ v (.inl (live_writeReg _ _ _ v (.inl (live_writeReg _ _ _ v (.inl (hlive v hv))))))
    · exact hrest
  | loopEnd d hr =>
    simp only [rangeOps, Bool.and_eq_true, decide_eq_true_eq] at hrange
    obtain ⟨-, rfl⟩ := hrange
    exact (h.dataStep (l := []) hm ha hdir hbuf (fun _ => rfl) (Did.refl s) (.refl s) rfl h.wf rfl nofun
      (definesFirst_tail h.defines hlive) rfl).inv
  | loopTurn d rem hr h0 =>
    simp only [rangeOps, Bool.and_eq_true, decide_eq_true_eq] at hrange
    obtain ⟨⟨rfl, htotal⟩, rfl⟩ := hrange
    refine (h.dataStep (l := chunkBody d) hm ha hdir hbuf (fun _ => rfl) (Did.refl s) (.refl s) rfl h.wf rfl ?_
      (definesFirst_chunkBody d ?_) (rangeOps_chunkBody (by rwa [hrem rem hr]) htotal)).inv
    · cases d <;> simp [chunkBody, waitOps, wrenOps, microBracket, plainFrame, Instr.isFrame]
    · simpa [needs] using hread
  | applyShared | applyOwn => exact absurd rfl ha
  | _ => cases hm

/-! ### INIT and the response -/

/-- A data request never applies the bus settings (R90). -/
theorem not_apply_of_rangeOps {p buf len : Word} {dir : DataDir} {r : RangeRegs} {ops : List Micro}
    (h : rangeOps p buf len dir r ops = true) : .prim .applyIfExclusive ∉ ops := by
  induction ops generalizing r with
  | nil => exact List.not_mem_nil
  | cons m rest ih =>
    rw [List.mem_cons, not_or]
    cases m with
    | frame c =>
      refine ⟨nofun, ?_⟩
      cases c with
      | fixed | erase => exact ih h
      | readChunk | programChunk => exact ih (Bool.and_eq_true_iff.1 h).2
    | prim q =>
      cases q with
      | applyIfExclusive => cases h
      | delay | csAssert | csDeassert | xfer | dropLocal | waitBegin | readStart | pollTest | pollClock | pollPause
      | respond => exact ⟨nofun, ih h⟩
      | dataIn | storeIn | dataOut | nextChunk | advance => exact ⟨nofun, ih (Bool.and_eq_true_iff.1 h).2⟩
      | setReg q v =>
        refine ⟨nofun, ?_⟩
        cases q with
        | addr | rem | cur => exact ih h
        | chunk | t | start | s => cases h
      | chunkLoop d =>
        simp only [rangeOps, Bool.and_eq_true, decide_eq_true_eq] at h
        simp [h.2]

/-- Only INIT applies the settings of an exclusive bus (R90). -/
theorem eq_init_of_apply_mem {ops : List Micro} (h : ownOps s i ops = true) (hm : .prim .applyIfExclusive ∈ ops) :
    i = .init := by
  cases i with
  | init => rfl
  | readData | writeData => exact absurd hm (not_apply_of_rangeOps ((ownOps_data rfl rfl).1 h).2)
  | identify | validate | readStatus | readConfig | writeStatus | waitWrite | writeEnable | sectorErase | blockErase
  | chipErase | resetDevice | deepPowerDown | wake => cases List.all_eq_true.1 h _ hm
  | _ => cases h

/-- INIT's `ApplyBus` has its response right behind it (R92). -/
theorem Running.init_of_apply (h : Running s b i (.prim .applyIfExclusive :: rest)) :
    i = .init ∧ rest = [.prim (.respond .nothing)] := by
  obtain rfl := eq_init_of_apply_mem h.own List.mem_cons_self
  exact ⟨rfl, by simpa [ownOps] using h.own⟩

/-- On an exclusive bus INIT sets the transport up (R90, R92). -/
theorem Running.applyPrim (h : Running s b i (.prim .applyIfExclusive :: rest))
    (hs : PrimStep s rest .applyIfExclusive t) : Inv t := by
  obtain ⟨rfl, rfl⟩ := h.init_of_apply
  obtain rfl := h.bracket_eq nofun fun _ => rfl
  obtain ⟨hb, hcur, hf, hwf, htr, hcs, hcfg, -, -, -, -, -⟩ := h
  cases hs with
  | applyShared hsh => exact Running.inv ⟨hb, hcur, hf, hwf, htr, hcs, hcfg, rfl, rfl, rfl, nofun, .inl hsh⟩
  | applyOwn hsh =>
    refine Running.inv ⟨hb, hcur, hf, hwf, traceBracket_snoc htr ?_, hcs, hcfg, rfl, rfl, rfl, nofun, .inr (.inr rfl)⟩
    simp [traceStep, hsh]

/-- The response leaves an idle sequencer (R28, R35). -/
theorem Running.respondPrim {k : RespKind} (h : Running s b i (.prim (.respond k) :: rest))
    (hs : PrimStep s rest (.respond k) t) : Inv t := by
  cases hs with
  | respond _ v hc hv =>
  obtain rfl : b = .closed := of_decide_eq_true h.bracket
  refine ⟨h.wf, .closed, traceBracket_snoc h.trace rfl, h.cs, ?_, ?_⟩
  · simp [controlOk, h.cfg, h.noFault]
  · have hnone : .prim .applyIfExclusive ∉ .prim (.respond k) :: rest := fun hm => by
      obtain rfl := eq_init_of_apply_mem h.own hm
      have hown := h.own
      simp only [ownOps, Bool.or_eq_true, decide_eq_true_eq, List.cons.injEq] at hown
      obtain ⟨-, rfl⟩ : _ ∧ rest = [] := by simpa using hown
      simp at hm
    simpa [transportOk] using h.transport.imp_right (Or.resolve_left · hnone)

/-- Every primitive that can be performed keeps the invariant. -/
theorem Running.primStep {p : Prim} (h : Running s b i (.prim p :: rest)) (hs : PrimStep s rest p t) : Inv t := by
  cases p with
  | applyIfExclusive => exact h.applyPrim hs
  | respond k => exact h.respondPrim hs
  | dataIn | storeIn | dropLocal | dataOut | setReg | nextChunk | advance | chunkLoop => exact h.dataPrim rfl nofun hs
  | delay | csAssert | csDeassert | xfer | waitBegin | readStart | pollTest | pollClock | pollPause =>
    exact h.neutralPrim rfl hs

/-! ### Every frame keeps the invariant -/

/-- An erase frame moves no chunk and reads no status (R105, R106). -/
theorem plainFrame_of_eraseFrame {c : Cfg} {k : EraseKind} {a : Word} (h : eraseFrame c k a = some i) :
    plainFrame i = true ∧ i ≠ .spiReadStatus := by
  unfold eraseFrame at h
  split_ifs at h <;> cases k <;> cases h <;> exact ⟨rfl, nofun⟩

/-- A frame begins with a command byte of R69. -/
theorem frameHeader_cons (p : Params) (hf : i.isFrame = true) :
    ∃ c bs, frameHeader p.cmdWriteStatus i = c :: bs ∧ c ∈ commandBytes p := by
  cases i with
  | spiIdentify | spiReadStatus | spiReadConfig | spiRead3 | spiRead4 | spiProgram3 | spiProgram4 | spiSectorErase3
  | spiSectorErase4 | spiBlockErase3 | spiBlockErase4 | spiChipErase | spiWriteEnable | spiResetEnable | spiReset
  | spiPowerDown | spiReleasePowerDown | spiWriteStatus =>
    exact ⟨_, _, rfl, by simp [commandBytes, fixedCommands]⟩
  | _ => cases hf

/-- What the exchanges of a frame are: bytes exchanged, received data stored, or data sent (R67). -/
theorem mem_exchangeOps {ws : Byte} {d : Nat} (h : m ∈ exchangeOps ws d i) :
    (∃ x rx, m = .prim (.xfer x rx) ∧ (rx = .status → i = .spiReadStatus))
      ∨ (m = .prim (.dataIn d (chunkOperand i).toNat) ∧ ((∃ a n, i = .spiRead3 a n) ∨ ∃ a n, i = .spiRead4 a n))
      ∨ (m = .prim (.dataOut d (chunkOperand i).toNat)
          ∧ ((∃ a n, i = .spiProgram3 a n) ∨ ∃ a n, i = .spiProgram4 a n)) := by
  rcases List.mem_append.1 h with h | h
  · obtain ⟨x, -, rfl⟩ := List.mem_map.1 h
    exact .inl ⟨_, _, rfl, nofun⟩
  · cases i with
    | spiRead3 a n => exact .inr (.inl ⟨List.mem_singleton.1 h, .inl ⟨a, n, rfl⟩⟩)
    | spiRead4 a n => exact .inr (.inl ⟨List.mem_singleton.1 h, .inr ⟨a, n, rfl⟩⟩)
    | spiProgram3 a n => exact .inr (.inr ⟨List.mem_singleton.1 h, .inl ⟨a, n, rfl⟩⟩)
    | spiProgram4 a n => exact .inr (.inr ⟨List.mem_singleton.1 h, .inr ⟨a, n, rfl⟩⟩)
    | spiReadStatus => exact .inl ⟨_, _, List.mem_singleton.1 h, fun _ => rfl⟩
    | spiReadConfig => exact .inl ⟨_, _, List.mem_singleton.1 h, nofun⟩
    | spiIdentify =>
      simp only [List.mem_cons, List.not_mem_nil, or_false] at h
      rcases h with rfl | rfl | rfl <;> exact .inl ⟨_, _, rfl, nofun⟩
    | _ => cases h

/-- Bytes are exchanged, stored and sent inside a frame only, and none of it reads or ends a temporary (R12, R89). -/
theorem exchangeOps_sending {ws : Byte} {d : Nat} (h : m ∈ exchangeOps ws d i) (c : Cfg) (p : Params) :
    (microBracket c p .sending m = some .sending ∧ ∀ k, m ≠ .prim (.respond k)) ∧ needs m = [] ∧ drops m = [] := by
  rcases mem_exchangeOps h with ⟨x, rx, rfl, -⟩ | ⟨rfl, -⟩ | ⟨rfl, -⟩
  · cases x <;> exact ⟨⟨rfl, nofun⟩, rfl, rfl⟩
  · exact ⟨⟨rfl, nofun⟩, rfl, rfl⟩
  · exact ⟨⟨rfl, nofun⟩, rfl, rfl⟩

/-- From `CS_LOW` a frame's exchanges lead to its `EndTx` and back between frames (R65, R88). -/
theorem pcBracket_exchangeOps (c : Cfg) (p : Params) (d : Nat) (hf : i.isFrame = true) (rest : List Micro) :
    pcBracket c p .opened (exchangeOps p.cmdWriteStatus d i ++ .prim .csDeassert :: rest)
      = pcBracket c p .closed rest := by
  obtain ⟨x, bs, hx, hmem⟩ := frameHeader_cons p hf
  obtain ⟨l, hl⟩ : ∃ l, exchangeOps p.cmdWriteStatus d i = .prim (.xfer (.byte x) .discard) :: l :=
    ⟨_, by unfold exchangeOps; rw [hx]; rfl⟩
  have hsend (m : Micro) (hm : m ∈ l) := (exchangeOps_sending (hl ▸ List.mem_cons_of_mem _ hm) c p).1
  calc pcBracket c p .opened (exchangeOps p.cmdWriteStatus d i ++ .prim .csDeassert :: rest)
      = pcBracket c p .sending (l ++ .prim .csDeassert :: rest) := by
        rw [hl]
        simp [pcBracket, microBracket, hmem]
    _ = pcBracket c p .sending (.prim .csDeassert :: rest) := pcBracket_push hsend _
    _ = pcBracket c p .closed rest := rfl

/-- A frame is opened between frames, and by no INIT (R89, R92). -/
theorem Running.frame_closed {c : FrameCall} (h : Running s b i (.frame c :: rest)) :
    b = .closed ∧ pcBracket s.cfg s.par .closed rest = true ∧ i ≠ .init := by
  obtain ⟨b', hb', hrest⟩ := h.leads nofun
  have hb : b = .closed ∧ b' = .closed := by
    cases c with
    | fixed f =>
      obtain ⟨hb, hb'⟩ := Option.ite_none_right_eq_some.1 hb'
      exact ⟨hb.1, (Option.some.inj hb').symm⟩
    | erase | readChunk | programChunk =>
      obtain ⟨hb, hb'⟩ := Option.ite_none_right_eq_some.1 hb'
      exact ⟨hb, (Option.some.inj hb').symm⟩
  refine ⟨hb.1, hb.2 ▸ hrest, ?_⟩
  rintro rfl
  have hown := h.own
  simp [ownOps] at hown

/-- On an exclusive bus the transaction opens with `CsAssert` (R87). -/
theorem openedFrame_exclusive (h : s.cfg.shared = false) (d : Nat) (i : Instr) (rest : List Micro) :
    openedFrame s d i rest
      = s.lowerCs.setPc ((exchangeOps s.par.cmdWriteStatus d i ++ [.prim .csDeassert]) ++ rest) := by
  unfold openedFrame
  rw [h, List.append_assoc]
  rfl

/-- On a shared bus it opens with `ApplyBus` (R87). -/
theorem openedFrame_shared (h : s.cfg.shared = true) (d : Nat) (i : Instr) (rest : List Micro) :
    openedFrame s d i rest = s.applyBus.setPc ([.prim (.delay .sharedSettle), .prim .csAssert]
      ++ ((exchangeOps s.par.cmdWriteStatus d i ++ [.prim .csDeassert]) ++ rest)) := by
  unfold openedFrame
  rw [h, List.append_assoc]
  rfl

/-- A frame whose exchanges write what its place in the pseudocode promises, and whose data stay in the request's range, opens
and keeps the invariant (R87). -/
theorem Running.opens {c : FrameCall} {f : Instr} {d : Nat} (h : Running s b i (.frame c :: rest))
    (hf : f.isFrame = true)
    (hgives : ∀ v ∈ gives (.frame c), ∃ m ∈ exchangeOps s.par.cmdWriteStatus d f, v ∈ gives m)
    (hown : ownOps s i (exchangeOps s.par.cmdWriteStatus d f ++ ([.prim .csDeassert] ++ rest)) = true) :
    Inv (openedFrame s d f rest) := by
  obtain ⟨rfl, hrest, hi⟩ := h.frame_closed
  have hbracket := (pcBracket_exchangeOps s.cfg s.par d hf rest).trans hrest
  have hdef : definesFirst (live s) ((exchangeOps s.par.cmdWriteStatus d f ++ [.prim .csDeassert]) ++ rest) = true := by
    refine definesFirst_push (fun m hm => ?_) (definesFirst_tail h.defines fun v hv => ?_)
    · rcases List.mem_append.1 hm with hm | hm
      · exact (exchangeOps_sending hm s.cfg s.par).2
      · rw [List.mem_singleton.1 hm]
        exact ⟨rfl, rfl⟩
    · rw [Bool.or_eq_true, List.any_eq_true]
      refine hv.imp_right fun hv => ?_
      obtain ⟨m, hm, hv⟩ := hgives v hv
      exact ⟨m, List.mem_append_left _ hm, List.contains_iff_mem.2 hv⟩
  cases hsh : s.cfg.shared with
  | false =>
    rw [openedFrame_exclusive hsh]
    have hev : traceBracket s.cfg s.par .closed [.csLow] = some .opened := by simp [traceBracket, traceStep, hsh]
    refine (h.goOn nofun (.lowerCs s) (.lowerCs s) hev rfl h.wf ?_ hdef ?_ fun _ _ => hi).inv
    · rwa [List.append_assoc]
    · rw [List.append_assoc]
      exact (ownOps_congr (s := s) rfl rfl _ _).trans hown
  | true =>
    rw [openedFrame_shared hsh]
    refine Running.inv (b := afterApply s.cfg) (i := i)
      { h with trace := ?_, cs := ?_, bracket := ?_, defines := ?_, own := ?_, notLow := ?_, transport := .inl hsh }
    · exact traceBracket_snoc h.trace (by simp [traceStep, hsh])
    · refine Eq.trans ?_ h.cs
      unfold afterApply
      split <;> rfl
    · rw [← hbracket, List.append_assoc]
      simp [pcBracket, microBracket, hsh]
    · rw [live_congr (t := s.applyBus) (s := s) rfl rfl]
      exact definesFirst_cons nofun rfl (definesFirst_cons nofun rfl hdef)
    · refine ownOps_push ?_ hi (by simp [neutral])
      rw [List.append_assoc]
      exact (ownOps_congr (s := s) rfl rfl _ _).trans hown
    · exact fun hi' => absurd hi' hi

/-- What a fixed frame gives is what its exchanges keep of the received bytes (R97, R99, R100). -/
theorem gives_fixed {f : Instr} {v : Var} (h : v ∈ gives (.frame (.fixed f))) (ws : Byte) (d : Nat) :
    ∃ m ∈ exchangeOps ws d f, v ∈ gives m := by
  cases f with
  | spiIdentify =>
    simp only [gives, List.mem_cons, List.not_mem_nil, or_false] at h
    rcases h with rfl | rfl | rfl <;> simp [exchangeOps, frameHeader, gives]
  | spiReadStatus | spiReadConfig =>
    rw [List.mem_singleton.1 h]
    simp [exchangeOps, frameHeader, gives]
  | _ => cases h

/-- A frame of fixed length keeps the invariant. -/
theorem Running.openPlain {c : FrameCall} {f : Instr} (d : Nat) (h : Running s b i (.frame c :: rest))
    (hp : plainFrame f = true) (hgives : ∀ v ∈ gives (.frame c), v ∈ gives (.frame (.fixed f)))
    (hown : ownOps s i rest = true) : Inv (openedFrame s d f rest) := by
  obtain ⟨-, -, hi⟩ := h.frame_closed
  refine h.opens (Bool.and_eq_true_iff.1 hp).1 (fun v hv => gives_fixed (hgives v hv) _ d)
    (ownOps_push (ownOps_push hown hi (by simp [neutral])) hi fun m hm => ?_)
  rcases mem_exchangeOps hm with ⟨x, rx, rfl, -⟩
      | ⟨-, ⟨a, n, rfl⟩ | ⟨a, n, rfl⟩⟩ | ⟨-, ⟨a, n, rfl⟩ | ⟨a, n, rfl⟩⟩
  · rfl
  all_goals cases hp

/-- A data frame whose data phase `p` keeps the range, keeps the invariant. -/
theorem Running.openData {c : FrameCall} {f : Instr} {d : Nat} {p : Prim} {dir : DataDir} {buf len : Word}
    (h : Running s b i (.frame c :: rest)) (hf : f.isFrame = true) (hgives : gives (.frame c) = [])
    (hops : exchangeOps s.par.cmdWriteStatus d f
      = (frameHeader s.par.cmdWriteStatus f).map (fun b => .prim (.xfer (.byte b) .discard)) ++ [.prim p])
    (hdir : dataDir i = some dir) (hbuf : i.buffer = some (buf, len))
    (hrange : rangeOps s.cfg.pageSize buf len dir (rangeRegs s) (.prim p :: .prim .csDeassert :: rest) = true) :
    Inv (openedFrame s d f rest) := by
  refine h.opens hf (by simp [hgives]) ((ownOps_data hdir hbuf).2 ⟨((ownOps_data hdir hbuf).1 h.own).1, ?_⟩)
  rw [hops, List.append_assoc, rangeOps_push fun m hm => ?_]
  · exact hrange
  · obtain ⟨x, -, rfl⟩ := List.mem_map.1 hm
    rfl

theorem readFrame_eq_some {c : Cfg} {a n : Word} {f : Instr} (h : readFrame c a n = some f) :
    f = .spiRead3 (low24 a) n ∨ f = .spiRead4 a n := by
  unfold readFrame at h
  split_ifs at h
  · exact .inl (Option.some.inj h).symm
  · exact .inr (Option.some.inj h).symm

theorem programFrame_eq_some {c : Cfg} {a n : Word} {f : Instr} (h : programFrame c a n = some f) :
    f = .spiProgram3 (low24 a) n ∨ f = .spiProgram4 a n := by
  unfold programFrame at h
  split_ifs at h
  · exact .inl (Option.some.inj h).symm
  · exact .inr (Option.some.inj h).symm

theorem frameAt_erase_eq_ok {f : Instr} {k : EraseKind} {a : Word} (h : frameAt (.erase k a) s = .ok f) :
    plainFrame f = true ∧ f ≠ .spiReadStatus := by
  simp only [frameAt] at h
  split at h
  · rename_i hf
    exact Except.ok.inj h ▸ plainFrame_of_eraseFrame hf
  · cases h

theorem frameAt_readChunk_eq_ok {f : Instr} (h : frameAt .readChunk s = .ok f) :
    ∃ a n, f = .spiRead3 (low24 a) n ∨ f = .spiRead4 a n := by
  simp only [frameAt] at h
  split at h
  · split at h
    · rename_i hf
      exact ⟨_, _, Except.ok.inj h ▸ readFrame_eq_some hf⟩
    · cases h
  · cases h
  · cases h

theorem frameAt_programChunk_eq_ok {f : Instr} (h : frameAt .programChunk s = .ok f) :
    ∃ a n, f = .spiProgram3 (low24 a) n ∨ f = .spiProgram4 a n := by
  simp only [frameAt] at h
  split at h
  · split at h
    · rename_i hf
      exact ⟨_, _, Except.ok.inj h ▸ programFrame_eq_some hf⟩
    · cases h
  · cases h
  · cases h

/-- The place of a chunk lies in the range of the running data request. -/
theorem chunkBuffer_range {n buf len : Word} {d : Nat} (hcur : s.current = some i) (hbuf : i.buffer = some (buf, len))
    (hd : chunkBuffer s n = .ok d) : buf.toNat ≤ d ∧ d + n.toNat ≤ buf.toNat + len.toNat := by
  obtain ⟨q, buf', len', cur, hq, hbuf', -, hlen, -, rfl⟩ := chunkBuffer_eq_ok hd
  obtain rfl : i = q := Option.some.inj (hcur.symm.trans hq)
  obtain ⟨rfl, rfl⟩ := Prod.mk.inj (Option.some.inj (hbuf.symm.trans hbuf'))
  omega

/-- What a running request sends is a frame (R86). -/
theorem Running.isFrame {c : FrameCall} {f : Instr} (h : Running s b i (.frame c :: rest))
    (hf : frameAt c (s.setPc rest) = .ok f) : f.isFrame = true := by
  cases c with
  | fixed g =>
    obtain rfl : g = f := Except.ok.inj hf
    obtain ⟨_, hb, -⟩ := h.leads nofun
    exact (Bool.and_eq_true_iff.1 (Option.ite_none_right_eq_some.1 hb).1.2).1
  | erase k a => exact (Bool.and_eq_true_iff.1 (frameAt_erase_eq_ok hf).1).1
  | readChunk => obtain ⟨a, n, rfl | rfl⟩ := frameAt_readChunk_eq_ok hf <;> rfl
  | programChunk => obtain ⟨a, n, rfl | rfl⟩ := frameAt_programChunk_eq_ok hf <;> rfl

/-- Every frame that opens keeps the invariant. -/
theorem Running.frameStep {c : FrameCall} {f : Instr} (h : Running s b i (.frame c :: rest))
    (hf : frameAt c (s.setPc rest) = .ok f) (hx : exec f (s.setPc rest) = .next t) : Inv t := by
  obtain ⟨-, d, hd, rfl⟩ := openedFrame_of_exec (h.isFrame hf) hx
  cases c with
  | fixed g =>
    obtain rfl : g = f := Except.ok.inj hf
    obtain ⟨_, hb, -⟩ := h.leads nofun
    have hp := (Option.ite_none_right_eq_some.1 hb).1.2
    exact h.openPlain d hp (fun _ => id) (ownOps_tail h.own rfl rfl rfl)
  | erase k a =>
    exact h.openPlain d (frameAt_erase_eq_ok hf).1 nofun (ownOps_tail h.own rfl rfl rfl)
  | readChunk =>
    obtain ⟨dir, buf, len, hdir, hbuf, -⟩ := h.data rfl nofun
    obtain ⟨-, hrange⟩ := (ownOps_data hdir hbuf).1 h.own
    simp only [rangeOps, Bool.and_eq_true, decide_eq_true_eq] at hrange
    obtain ⟨⟨hread, -⟩, hrest⟩ := hrange
    obtain ⟨a, n, rfl | rfl⟩ := frameAt_readChunk_eq_ok hf
    all_goals
      obtain ⟨hlo, hhi⟩ := chunkBuffer_range h.current hbuf (hd.resolve_left nofun)
      refine h.openData (p := .dataIn d n.toNat) rfl rfl rfl hdir hbuf ?_
      simp only [rangeOps, Bool.and_eq_true, decide_eq_true_eq]
      exact ⟨⟨⟨hread, hlo⟩, hhi⟩, hrest⟩
  | programChunk =>
    obtain ⟨dir, buf, len, hdir, hbuf, -⟩ := h.data rfl nofun
    obtain ⟨-, hrange⟩ := (ownOps_data hdir hbuf).1 h.own
    simp only [rangeOps, Bool.and_eq_true, decide_eq_true_eq] at hrange
    obtain ⟨⟨hwrite, -⟩, hrest⟩ := hrange
    obtain ⟨a, n, rfl | rfl⟩ := frameAt_programChunk_eq_ok hf
    all_goals
      obtain ⟨hlo, hhi⟩ := chunkBuffer_range h.current hbuf (hd.resolve_left nofun)
      refine h.openData (p := .dataOut d n.toNat) rfl rfl rfl hdir hbuf ?_
      simp only [rangeOps, Bool.and_eq_true, decide_eq_true_eq]
      exact ⟨⟨⟨hwrite, hlo⟩, hhi⟩, hrest⟩

/-- The step of a running request performs the primitive, or opens the frame, that stands at `pc` (R27, R28). -/
theorem Inv.busyStep (h : Inv s) (hb : s.seqState = .busy) (hs : seqStep s = .next t) :
    ∃ b i rest, (∃ p, Running s b i (.prim p :: rest) ∧ PrimStep s rest p t)
      ∨ ∃ c f, Running s b i (.frame c :: rest) ∧ frameAt c (s.setPc rest) = .ok f
          ∧ exec f (s.setPc rest) = .next t := by
  obtain ⟨b, i, ops, hpc, hr⟩ := running_of_inv h hb
  rw [← State.setPc_of_pc hpc] at hs
  cases ops with
  | nil => cases hr.bracket
  | cons m rest =>
    refine ⟨b, i, rest, ?_⟩
    cases m with
    | prim p => exact .inl ⟨p, hr, primStep_of_execPrim ((seqStep_prim hb p rest).symm.trans hs)⟩
    | frame c =>
      rw [seqStep_frame hb] at hs
      obtain ⟨f, hf, hx⟩ := withValue_eq_next.1 hs
      exact .inr ⟨c, f, hr, hf, hx⟩

/-- Outside `BUSY` the sequencer's own step changes nothing (R27, R142). -/
theorem busy_or_eq_of_seqStep (h : seqStep s = .next t) : s.seqState = .busy ∨ t = s := by
  cases hseq : s.seqState with
  | busy => exact .inl rfl
  | uninit => exact .inr (Host.Outcome.next.inj ((seqStep_of_waiting (.inl hseq)).symm.trans h)).symm
  | idle => exact .inr (Host.Outcome.next.inj ((seqStep_of_waiting (.inr hseq)).symm.trans h)).symm
  | faulted => simp [seqStep, hseq] at h

/-- The sequencer's own step keeps the invariant (R27). -/
theorem Inv.of_seqStep (h : Inv s) (hs : seqStep s = .next t) : Inv t := by
  rcases busy_or_eq_of_seqStep hs with hb | rfl
  · obtain ⟨b, i, rest, ⟨p, hr, hp⟩ | ⟨c, f, hr, hf, hx⟩⟩ := h.busyStep hb hs
    · exact hr.primStep hp
    · exact hr.frameStep hf hx
  · exact h

end
end Sys2Proof.Machine
end

section
/-! The invariant over whole steps: a request taken, a move of another agent, and the sequencer's own step (R6, R34, R40,
R123, R137). -/

namespace Sys2Proof.Machine

section
variable {s t : State} {b : Bracket} {i : Instr}

/-! ### Taking a request keeps the invariant -/

/-- What the agents still have in mind takes no part in the invariant. -/
theorem inv_env (s : State) (e : List EnvMove) : Inv { s with env := e } ↔ Inv s := Iff.rfl

/-- What the invariant says before INIT (R27, R30). -/
theorem Inv.of_uninit (h : Inv s) (hs : s.seqState = .uninit) :
    traceBracket s.cfg s.par .undriven s.trace = some .undriven ∧ s.cs = .undriven ∧ s.faultCode = none := by
  obtain ⟨-, b, htr, hcs, hcontrol, -⟩ := h
  simp only [controlOk, hs, Bool.and_eq_true, decide_eq_true_eq, Option.isNone_iff_eq_none] at hcontrol
  obtain ⟨⟨⟨rfl, -⟩, -⟩, hnone⟩ := hcontrol
  exact ⟨htr, hcs.symm, hnone⟩

/-- What it says between requests (R27, R30, R44). -/
theorem Inv.of_idle (h : Inv s) (hs : s.seqState = .idle) :
    traceBracket s.cfg s.par .undriven s.trace = some .closed ∧ s.cs = .high ∧ cfgOk s.cfg = true ∧ s.faultCode = none
      ∧ (s.cfg.shared = true ∨ s.transport = some s.cfg.bus) := by
  obtain ⟨-, b, htr, hcs, hcontrol, htransport⟩ := h
  simp only [controlOk, hs, Bool.and_eq_true, decide_eq_true_eq, Option.isNone_iff_eq_none] at hcontrol
  obtain ⟨⟨⟨⟨rfl, hok⟩, -⟩, -⟩, hnone⟩ := hcontrol
  simp only [transportOk, hs, Bool.or_eq_true, beq_iff_eq] at htransport
  exact ⟨htr, hcs.symm, hok, hnone, htransport⟩

/-- On an exclusive bus the transport is this device's whenever chip-select is low (R44, R92, R127). -/
theorem Inv.transport_of_low (h : Inv s) (hsh : s.cfg.shared = false) (hc : s.cs = .low) :
    s.transport = some s.cfg.bus := by
  cases hs : s.seqState with
  | uninit =>
    obtain ⟨-, hcs, -⟩ := h.of_uninit hs
    cases hc.symm.trans hcs
  | idle =>
    obtain ⟨-, hcs, -⟩ := h.of_idle hs
    cases hc.symm.trans hcs
  | busy =>
    obtain ⟨b, i, ops, -, hr⟩ := running_of_inv h hs
    rcases hr.transport with htr | htr | htr
    · cases hsh.symm.trans htr
    · exact absurd (hr.cs.trans hc) (hr.notLow (eq_init_of_apply_mem hr.own htr))
    · exact htr
  | faulted =>
    obtain ⟨-, b, -, -, -, htr⟩ := h
    simpa [transportOk, hs, hsh, hc] using htr

/-- A fault saves only its code: the trace is as bracketed, and the transport as set up, as before (R123, R127). -/
theorem Inv.raiseFault (h : Inv s) (c : FaultCode) : Inv (s.raiseFault c) := by
  have hlow := h.transport_of_low
  obtain ⟨hwf, b, htr, hcs, -, -⟩ := h
  refine ⟨hwf, b, traceBracket_snoc htr rfl, hcs, rfl, ?_⟩
  simp only [transportOk, State.raiseFault_seqState, State.raiseFault_cfg, State.raiseFault_cs, State.raiseFault_transport,
    Bool.or_eq_true, bne_iff_ne, beq_iff_eq]
  cases hsh : s.cfg.shared with
  | true => exact .inl rfl
  | false => exact .inr (or_iff_not_imp_left.2 fun hc => hlow hsh (not_not.1 hc))

/-- A request's pseudocode begins and ends between frames; INIT's begins before chip-select is driven too (R89, R92). -/
theorem pcBracket_requestOps (c : Cfg) (p : Params) (hf : i.isFrame = false) (hop : ∀ op, i ≠ .reservedOp op) :
    pcBracket c p .closed (requestOps i) = true := by
  cases i with
  | reservedOp op => exact absurd rfl (hop op)
  | init | identify | validate | readStatus | readConfig | writeStatus | waitWrite | writeEnable | sectorErase | blockErase
  | chipErase | resetDevice | deepPowerDown | wake | readData | writeData => rfl
  | _ => cases hf

/-- A request reads only what its own pseudocode has written (R12, R25). -/
theorem definesFirst_requestOps (f : Var → Bool) (i : Instr) : definesFirst f (requestOps i) = true := by
  cases i <;> simp [requestOps, waitOps, wrenOps, eraseOps, dataOps, definesFirst, needs, gives, drops]

/-- A request's pseudocode is its own (R46, R90). -/
theorem ownOps_requestOps (s : State) (hf : i.isFrame = false) (hop : ∀ op, i ≠ .reservedOp op)
    (hrange : rangeFits i = true) : ownOps s i (requestOps i) = true := by
  cases i with
  | reservedOp op => exact absurd rfl (hop op)
  | readData a n buf | writeData a n buf =>
    refine (ownOps_data rfl rfl).2 ⟨(rangeOk_iff.1 hrange).2, ?_⟩
    simp [requestOps, dataOps, rangeOps]
  | init | identify | validate | readStatus | readConfig | writeStatus | waitWrite | writeEnable | sectorErase | blockErase
  | chipErase | resetDevice | deepPowerDown | wake => rfl
  | _ => cases hf

/-- What passes the checks of R126 before it starts. -/
structure Accepted (s : State) (i : Instr) : Prop where
  notReserved : ∀ op, i ≠ .reservedOp op
  state : s.seqState = .idle ∨ (s.seqState = .uninit ∧ i = .init)
  cfg : i = .init → cfgOk s.cfg = true
  range : rangeFits i = true

/-- An accepted request runs well (R27, R126). -/
theorem Inv.startRequest (h : Inv s) (hf : i.isFrame = false) (ha : Accepted s i) :
    Inv (s.startRequest i (requestOps i)) := by
  obtain ⟨hop, hstate, hcfg, hrange⟩ := ha
  have hwf : s.mem.wf = true := h.1
  have hdef := definesFirst_requestOps (live (s.startRequest i (requestOps i))) i
  have hown := ownOps_requestOps (s.startRequest i (requestOps i)) hf hop hrange
  rcases hstate with hs | ⟨hs, rfl⟩
  · obtain ⟨htr, hcs, hok, hnone, htransport⟩ := h.of_idle hs
    exact Running.inv (s := s.startRequest i (requestOps i)) ⟨rfl, rfl, hnone, hwf, htr, hcs.symm, hok,
      pcBracket_requestOps _ _ hf hop, hdef, hown, fun _ => nofun, htransport.imp_right .inr⟩
  · obtain ⟨htr, hcs, hnone⟩ := h.of_uninit hs
    exact Running.inv (s := s.startRequest .init (requestOps .init)) ⟨rfl, rfl, hnone, hwf, htr, hcs.symm, hcfg rfl,
      rfl, hdef, hown, fun _ => nofun, .inr (.inl (by simp [requestOps]))⟩

/-- Outside `FAULTED` a request raises a fault, or passes its checks and starts (R123, R126). -/
theorem exec_request_cases (hf : i.isFrame = false) (hs : s.seqState ≠ .faulted) :
    (∃ c, exec i s = .next (s.raiseFault c))
      ∨ (exec i s = .next (s.startRequest i (requestOps i)) ∧ Accepted s i) := by
  cases hseq : s.seqState with
  | faulted => exact absurd hseq hs
  | busy => exact .inl ⟨_, exec_request_of_busy hf hseq⟩
  | uninit =>
    rcases exec_request_eq hf s with ⟨-, h⟩ | ⟨rfl, h⟩ | ⟨-, h⟩
    · rw [h, acceptAny_of_waiting (.inl hseq)]
      exact .inl ⟨_, rfl⟩
    · rw [h, acceptAny_of_waiting (.inl hseq)]
      split
      · exact .inr ⟨rfl, nofun, .inr ⟨hseq, rfl⟩, fun _ => ‹_›, rfl⟩
      · exact .inl ⟨_, rfl⟩
    · rw [h, acceptIdle, hseq]
      exact .inl ⟨_, rfl⟩
  | idle =>
    rcases exec_request_eq hf s with ⟨-, h⟩ | ⟨rfl, h⟩ | ⟨⟨hi, hop⟩, h⟩
    · rw [h, acceptAny_of_waiting (.inr hseq)]
      exact .inl ⟨_, rfl⟩
    · rw [h, acceptAny_of_waiting (.inr hseq)]
      split
      · exact .inr ⟨rfl, nofun, .inl hseq, fun _ => ‹_›, rfl⟩
      · exact .inl ⟨_, rfl⟩
    · rw [h, acceptIdle_of_idle hseq]
      split
      · exact .inr ⟨rfl, hop, .inl hseq, fun h => absurd h hi, ‹_›⟩
      · exact .inl ⟨_, rfl⟩

/-- A request keeps the invariant and, outside `FAULTED`, goes on. -/
theorem Inv.takesRequest (h : Inv s) (hs : s.seqState ≠ .faulted) (r : Record) :
    ∃ t, takeRequest r s = .next t ∧ Inv t := by
  have hrec : Inv (s.record (.req r)) := by
    obtain ⟨hwf, b, htr, hcs, hcontrol, htransport⟩ := h
    exact ⟨hwf, b, traceBracket_snoc htr rfl, hcs, hcontrol, htransport⟩
  have hf := decodeRequest_isFrame r
  rcases exec_request_cases hf (s := s.record (.req r)) hs with ⟨c, hx⟩ | ⟨hx, ha⟩
  · exact ⟨_, hx, hrec.raiseFault c⟩
  · exact ⟨_, hx, hrec.startRequest hf ha⟩

/-! ### Every step keeps the invariant -/

/-- Outside `FAULTED` a step is the sequencer's own, the taking of a request, or the move of another agent (R6, R40, R137): each
with what it asks for. -/
theorem step_cases (hs : s.seqState ≠ .faulted) :
    (∃ e, step s = seqStep { s with env := e })
      ∨ (∃ r rest, (s.env = .request r :: rest ∨ s.env = .requestWhenFree r :: rest)
          ∧ step s = takeRequest r { s with env := rest })
      ∨ (∃ a v rest, s.env = .store a v :: rest ∧ s.seqState ≠ .busy
          ∧ step s = .next { s with env := rest, mem := s.mem.write a.toNat v })
      ∨ (∃ x rest, s.env = .otherDevice x :: rest ∧ s.cfg.shared = true ∧ s.cs ≠ .low
          ∧ step s = .next { s with env := rest, transport := some x })
      ∨ ∃ x rest, s.env = .otherDevice x :: rest ∧ step s = .next { s with env := rest } := by
  have hown : (∃ e, seqStep s = seqStep { s with env := e }) := ⟨s.env, rfl⟩
  rw [step_eq_agentStep hs]
  unfold agentStep
  split
  · exact .inl hown
  · exact .inl ⟨_, rfl⟩
  · rename_i r rest he
    exact .inr (.inl ⟨r, rest, .inl he, rfl⟩)
  · rename_i r rest he
    split
    · exact .inl hown
    · exact .inr (.inl ⟨r, rest, .inr he, rfl⟩)
  · rename_i a v rest he
    split
    · exact .inl hown
    · exact .inr (.inr (.inl ⟨a, v, rest, he, ‹_›, rfl⟩))
  · rename_i x rest he
    split
    · split
      · exact .inl hown
      · rename_i hsh htx
        exact .inr (.inr (.inr (.inl ⟨x, rest, he, hsh, fun hc => htx (by rw [inTransaction, hc]), rfl⟩)))
    · exact .inr (.inr (.inr (.inr ⟨x, rest, he, rfl⟩)))

theorem not_faulted_of_step (h : step s = .next t) : s.seqState ≠ .faulted := fun hf => by
  rw [step_of_faulted hf] at h
  cases h

/-- Another device's settings on a shared bus break nothing (R137). -/
theorem Inv.otherDevice (h : Inv s) (hsh : s.cfg.shared = true) (x : BusSettings) (e : List EnvMove) :
    Inv { s with env := e, transport := some x } := by
  obtain ⟨hwf, b, htr, hcs, hcontrol, -⟩ := h
  exact ⟨hwf, b, htr, hcs, hcontrol, by simp [transportOk, hsh]⟩

/-- Nor does a byte the Host writes inside its buffer space (R40, R46). -/
theorem Inv.store (h : Inv s) (a : Word) (v : Byte) (e : List EnvMove) :
    Inv { s with env := e, mem := s.mem.write a.toNat v } := by
  obtain ⟨hwf, b, htr, hcs, hcontrol, htransport⟩ := h
  exact ⟨Memory.wf_write hwf a.isLt, b, htr, hcs, hcontrol, htransport⟩

/-- The invariant outside `FAULTED` is kept by whatever the step is. -/
theorem Inv.of_step (h : Inv s) (hs : step s = .next t) : Inv t := by
  have hf := not_faulted_of_step hs
  rcases step_cases hf with ⟨e, hx⟩ | ⟨r, e, -, hx⟩ | ⟨a, v, e, -, -, hx⟩ | ⟨x, e, -, hsh, -, hx⟩ | ⟨x, e, -, hx⟩
  · exact Inv.of_seqStep (s := { s with env := e }) h (hx.symm.trans hs)
  · obtain ⟨u, hu, hinv⟩ := Inv.takesRequest (s := { s with env := e }) h hf r
    exact Host.Outcome.next.inj ((hx.trans hu).symm.trans hs) ▸ hinv
  · exact Host.Outcome.next.inj (hx.symm.trans hs) ▸ h.store a v e
  · exact Host.Outcome.next.inj (hx.symm.trans hs) ▸ h.otherDevice hsh x e
  · exact Host.Outcome.next.inj (hx.symm.trans hs) ▸ h

end

/-- Settles O21: a step is the sequencer's own, a request taken or another agent's move (`step_cases`), and each keeps the
invariant. -/
theorem stepKeepsInv : Obligations.StepKeepsInv := fun _ _ h hs => h.of_step hs

end Sys2Proof.Machine
end

section
/-! From the invariant every step goes on (R25, R130), and what a step changes of the transport and of the host buffer (R44,
R46, R90, R122). -/

namespace Sys2Proof.Machine


/-! ### From the invariant every step goes on -/

section
variable {s t : State} {b : Bracket} {i : Instr} {rest : List Micro}

/-- The value of a response whose registers and temporaries are there (R26). -/
theorem responseValue_of_live {k : RespKind} (h : ∀ v ∈ needs (.prim (.respond k)), live s v = true) :
    ∃ v, responseValue k s = .ok v := by
  have hreg {r : Reg} (hr : .reg r ∈ needs (.prim (.respond k))) : ∃ v, s.readReg r = .ok v :=
    (State.readReg_of_live (h _ hr)).imp fun _ => And.right
  have hloc {l : Local} (hl : .loc l ∈ needs (.prim (.respond k))) : ∃ v, s.readLocal l = .ok v :=
    (State.readLocal_of_live (h _ hl)).imp fun _ => And.right
  cases k with
  | nothing => exact ⟨_, rfl⟩
  | ident | valid =>
    obtain ⟨r1, h1⟩ := hloc (l := .r1) (by simp [needs])
    obtain ⟨r2, h2⟩ := hloc (l := .r2) (by simp [needs])
    obtain ⟨r3, h3⟩ := hloc (l := .r3) (by simp [needs])
    simp [responseValue, h1, h2, h3]
  | status =>
    obtain ⟨v, hv⟩ := hreg (r := .s) (by simp [needs])
    simp [responseValue, hv]
  | config =>
    obtain ⟨v, hv⟩ := hloc (l := .c) (by simp [needs])
    simp [responseValue, hv]

/-- A primitive of a running request can be performed: chip-select is at its level, what it reads is there, and what it stores
lies below 2^32 (R25, R46, R89). -/
theorem Running.prim_goesOn {p : Prim} (h : Running s b i (.prim p :: rest)) : ∃ t, PrimStep s rest p t := by
  have hread := definesFirst_head h.defines
  have hreg {r : Reg} (hr : .reg r ∈ needs (.prim p)) : ∃ v, s.readReg r = .ok v :=
    (State.readReg_of_live (hread _ hr)).imp fun _ => And.right
  have hlow (hb : b = .opened ∨ b = .sending) : s.cs = .low := by
    rw [← h.cs]
    rcases hb with rfl | rfl <;> rfl
  cases p with
  | applyIfExclusive =>
    cases hsh : s.cfg.shared with
    | true => exact ⟨_, .applyShared hsh⟩
    | false => exact ⟨_, .applyOwn hsh⟩
  | delay d => exact ⟨_, .delay d⟩
  | csAssert =>
    obtain ⟨_, hb, -⟩ := h.leads nofun
    exact ⟨_, .csAssert (h.cs ▸ (Option.ite_none_right_eq_some.1 hb).1.2 ▸ rfl)⟩
  | csDeassert => exact ⟨_, .csDeassert⟩
  | xfer x rx =>
    refine ⟨_, .xfer x rx (hlow ?_)⟩
    obtain ⟨_, hb, -⟩ := h.leads nofun
    cases x <;> simp only [microBracket] at hb <;> split_ifs at hb <;> simp [*]
  | dataIn d n =>
    cases n with
    | zero => exact ⟨_, .dataInEnd d⟩
    | succ k => exact ⟨_, .dataIn d k (hlow (.inr (h.bracket_eq nofun fun _ => rfl)))⟩
  | storeIn d n =>
    obtain ⟨x, -, hx⟩ := State.readLocal_of_live (hread (.loc .r) (by simp [needs]))
    obtain ⟨dir, buf, len, hdir, hbuf, -⟩ := h.data rfl nofun
    obtain ⟨hend, hrange⟩ := (ownOps_data hdir hbuf).1 h.own
    simp only [rangeOps, Bool.and_eq_true, decide_eq_true_eq] at hrange
    exact ⟨_, .storeIn d n x hx (by omega)⟩
  | dropLocal l => exact ⟨_, .dropLocal l⟩
  | dataOut d n =>
    cases n with
    | zero => exact ⟨_, .dataOutEnd d⟩
    | succ k =>
      obtain ⟨dir, buf, len, hdir, hbuf, -⟩ := h.data rfl nofun
      obtain ⟨hend, hrange⟩ := (ownOps_data hdir hbuf).1 h.own
      simp only [rangeOps, Bool.and_eq_true, decide_eq_true_eq] at hrange
      exact ⟨_, .dataOut d k (by omega) (hlow (.inr (h.bracket_eq nofun fun _ => rfl)))⟩
  | setReg r v => exact ⟨_, .setReg r v⟩
  | waitBegin w => exact ⟨_, .waitBegin w⟩
  | readStart => exact ⟨_, .readStart⟩
  | pollTest =>
    obtain ⟨v, hv⟩ := hreg (r := .s) (by simp [needs])
    cases hw : wip v with
    | false => exact ⟨_, .pollIdle v hv hw⟩
    | true => exact ⟨_, .pollBusy v hv hw⟩
  | pollClock =>
    obtain ⟨start, hs⟩ := hreg (r := .start) (by simp [needs])
    obtain ⟨x, hx⟩ := hreg (r := .t) (by simp [needs])
    by_cases hle : x ≤ elapsed (s.clockDraw 0) start
    · exact ⟨_, .clockPast start x hs hx hle⟩
    · exact ⟨_, .clockBefore start x hs hx hle⟩
  | pollPause =>
    obtain ⟨x, hx⟩ := hreg (r := .t) (by simp [needs])
    exact ⟨_, .pollPause x hx⟩
  | nextChunk =>
    obtain ⟨a, ha⟩ := hreg (r := .addr) (by simp [needs])
    obtain ⟨rem, hr⟩ := hreg (r := .rem) (by simp [needs])
    exact ⟨_, .nextChunk a rem ha hr (pageSize_ok h.cfg)⟩
  | advance =>
    obtain ⟨a, ha⟩ := hreg (r := .addr) (by simp [needs])
    obtain ⟨cur, hcur⟩ := hreg (r := .cur) (by simp [needs])
    obtain ⟨rem, hr⟩ := hreg (r := .rem) (by simp [needs])
    obtain ⟨c, hc⟩ := hreg (r := .chunk) (by simp [needs])
    exact ⟨_, .advance a cur rem c ha hcur hr hc⟩
  | chunkLoop d =>
    obtain ⟨rem, hr⟩ := hreg (r := .rem) (by simp [needs])
    by_cases h0 : rem = 0
    · exact ⟨_, .loopEnd d (h0 ▸ hr)⟩
    · exact ⟨_, .loopTurn d rem hr h0⟩
  | respond k =>
    obtain ⟨v, hv⟩ := responseValue_of_live hread
    obtain rfl : b = .closed := of_decide_eq_true h.bracket
    exact ⟨_, .respond k v h.cs.symm hv⟩

/-- A frame of a running request opens: its operands are there, its mode is well formed, and its data lie in the buffer range
(R20, R25, R46, R89). -/
theorem Running.frame_goesOn {c : FrameCall} (h : Running s b i (.frame c :: rest)) :
    ∃ f t, frameAt c (s.setPc rest) = .ok f ∧ exec f (s.setPc rest) = .next t := by
  have hread := definesFirst_head h.defines
  have hreg {r : Reg} (hr : .reg r ∈ needs (.frame c)) : ∃ v, s.readReg r = .ok v :=
    (State.readReg_of_live (hread _ hr)).imp fun _ => And.right
  obtain ⟨rfl, -, -⟩ := h.frame_closed
  have hhigh : s.cs = .high := h.cs.symm
  have hplain {f : Instr} (hp : plainFrame f = true) : ∃ t, exec f (s.setPc rest) = .next t :=
    ⟨_, (exec_plainFrame hp _ 0).trans (openFrame_opens h.busy hhigh 0 f rest)⟩
  have hdata {f : Instr} {d : Nat} (hf : f.isFrame = true) (hp : plainFrame f = false)
      (hd : chunkBuffer s (chunkOperand f) = .ok d) : ∃ t, exec f (s.setPc rest) = .next t := by
    rw [exec_dataFrame hf hp, chunkBuffer_setPc, hd]
    exact ⟨_, openFrame_opens h.busy hhigh d f rest⟩
  have hchunk (hc : c = .readChunk ∨ c = .programChunk) :
      ∃ a n d, s.holds .addr a ∧ s.holds .chunk n ∧ chunkBuffer s n = .ok d := by
    obtain ⟨a, ha⟩ := hreg (r := .addr) (by rcases hc with rfl | rfl <;> simp [needs])
    obtain ⟨n, hn⟩ := hreg (r := .chunk) (by rcases hc with rfl | rfl <;> simp [needs])
    obtain ⟨cur, hcur⟩ := hreg (r := .cur) (by rcases hc with rfl | rfl <;> simp [needs])
    obtain ⟨dir, buf, len, hdir, hbuf, -⟩ := h.data (by rcases hc with rfl | rfl <;> rfl) nofun
    obtain ⟨hend, hrange⟩ := (ownOps_data hdir hbuf).1 h.own
    have hvcur : (rangeRegs s).cur = cur := value_of_readReg hcur
    have hvn : (rangeRegs s).chunk = n := value_of_readReg hn
    have hlen : cur.toNat + n.toNat ≤ len.toNat := by
      rcases hc with rfl | rfl <;> simp only [rangeOps, Bool.and_eq_true, decide_eq_true_eq, hvcur, hvn] at hrange <;>
        exact hrange.1.2
    exact ⟨a, n, _, State.holds_of_readReg ha, State.holds_of_readReg hn,
      chunkBuffer_eq h.current hbuf (State.holds_of_readReg hcur) hlen (by omega)⟩
  cases c with
  | fixed f =>
    obtain ⟨_, hb, -⟩ := h.leads nofun
    obtain ⟨t, ht⟩ := hplain (Option.ite_none_right_eq_some.1 hb).1.2
    exact ⟨f, t, rfl, ht⟩
  | erase k a =>
    obtain ⟨f, hf, -⟩ := addrBytes_header_erase s.cfg h.cfg k a 0
    obtain ⟨t, ht⟩ := hplain (plainFrame_of_eraseFrame hf).1
    exact ⟨f, t, by simp only [frameAt, State.setPc_cfg, hf], ht⟩
  | readChunk =>
    obtain ⟨a, n, d, ha, hn, hd⟩ := hchunk (.inl rfl)
    obtain ⟨f, hf, -⟩ := addrBytes_header_read s.cfg h.cfg a n 0
    refine ⟨f, ?_⟩
    obtain ⟨t, ht⟩ : ∃ t, exec f (s.setPc rest) = .next t := by
      rcases readFrame_eq_some hf with rfl | rfl <;> exact hdata rfl rfl hd
    exact ⟨t, frameAt_readChunk rest ha hn hf, ht⟩
  | programChunk =>
    obtain ⟨a, n, d, ha, hn, hd⟩ := hchunk (.inr rfl)
    obtain ⟨f, hf, -⟩ := addrBytes_header_program s.cfg h.cfg a n 0
    refine ⟨f, ?_⟩
    obtain ⟨t, ht⟩ : ∃ t, exec f (s.setPc rest) = .next t := by
      rcases programFrame_eq_some hf with rfl | rfl <;> exact hdata rfl rfl hd
    exact ⟨t, frameAt_programChunk rest ha hn hf, ht⟩

/-- Outside `FAULTED` the sequencer's own step goes on (R130). -/
theorem Inv.seqStep_goesOn (h : Inv s) (hs : s.seqState ≠ .faulted) : ∃ t, seqStep s = .next t := by
  cases hseq : s.seqState with
  | uninit => exact ⟨s, seqStep_of_waiting (.inl hseq)⟩
  | idle => exact ⟨s, seqStep_of_waiting (.inr hseq)⟩
  | faulted => exact absurd hseq hs
  | busy =>
    obtain ⟨b, i, ops, hpc, hr⟩ := running_of_inv h hseq
    rw [← State.setPc_of_pc hpc]
    cases ops with
    | nil => cases hr.bracket
    | cons m rest =>
      cases m with
      | prim p =>
        obtain ⟨t, ht⟩ := hr.prim_goesOn
        exact ⟨t, (seqStep_prim hseq p rest).trans ht.execPrim⟩
      | frame c =>
        obtain ⟨f, t, hf, hx⟩ := hr.frame_goesOn
        rw [seqStep_frame hseq]
        exact ⟨t, withValue_eq_next.2 ⟨f, hf, hx⟩⟩

end

/-- Settles O22: whatever `step_cases` says the step is, it goes on. -/
theorem invStepGoesOn : Obligations.InvStepGoesOn := by
  intro s h hs
  rcases step_cases hs with ⟨e, hx⟩ | ⟨r, e, -, hx⟩ | ⟨a, v, e, -, -, hx⟩ | ⟨x, e, -, -, -, hx⟩ | ⟨x, e, -, hx⟩
  · obtain ⟨t, ht⟩ := Inv.seqStep_goesOn (s := { s with env := e }) h hs
    exact ⟨t, hx.trans ht⟩
  · obtain ⟨t, ht, -⟩ := Inv.takesRequest (s := { s with env := e }) h hs r
    exact ⟨t, hx.trans ht⟩
  · exact ⟨_, hx⟩
  · exact ⟨_, hx⟩
  · exact ⟨_, hx⟩

/-! ### What a step changes of the transport and of the host buffer -/

section
variable {s t : State} {b : Bracket} {i : Instr} {p : Prim} {rest : List Micro}

/-- Of the primitives only INIT's `ApplyBus` changes the transport (R90). -/
theorem PrimStep.transport (h : PrimStep s rest p t) :
    t.transport = s.transport ∨ (p = .applyIfExclusive ∧ t = s.applyBus.setPc rest) := by
  cases h with
  | applyOwn => exact .inr ⟨rfl, rfl⟩
  | _ => exact .inl (by simp [Code.advance])

/-- Of the primitives only `MemWrite` changes the host buffer (R122). -/
theorem PrimStep.mem (h : PrimStep s rest p t) :
    t.mem = s.mem ∨ ∃ d n v, p = .storeIn d n ∧ t.mem = s.mem.write d v := by
  cases h with
  | storeIn d n v => exact .inr ⟨d, n, v, rfl, rfl⟩
  | _ => exact .inl (by simp [Code.advance])

theorem openedFrame_mem (s : State) (d : Nat) (i : Instr) (rest : List Micro) : (openedFrame s d i rest).mem = s.mem := by
  unfold openedFrame
  split <;> rfl

/-- Opening a frame changes the transport by `ApplyBus` alone (R87). -/
theorem openedFrame_transport (s : State) (d : Nat) (i : Instr) (rest : List Micro) :
    (openedFrame s d i rest).transport = s.transport
      ∨ ((openedFrame s d i rest).transport = some s.cfg.bus
          ∧ (openedFrame s d i rest).trace = s.trace ++ [.apply s.cfg.bus]) := by
  unfold openedFrame
  split
  · exact .inr ⟨rfl, rfl⟩
  · exact .inl rfl

/-- A request taken changes neither (R126, R127). -/
theorem takeRequest_keeps {r : Record} (hs : s.seqState ≠ .faulted) (h : takeRequest r s = .next t) :
    t.transport = s.transport ∧ t.mem = s.mem := by
  rcases exec_request_cases (decodeRequest_isFrame r) (s := s.record (.req r)) hs with ⟨c, hx⟩ | ⟨hx, -⟩
  · exact Host.Outcome.next.inj (hx.symm.trans h) ▸ ⟨rfl, rfl⟩
  · exact Host.Outcome.next.inj (hx.symm.trans h) ▸ ⟨rfl, rfl⟩

/-- The sequencer changes the transport only to its own settings, between two frames (R87, R90). -/
theorem Inv.seqStep_transport (h : Inv s) (hs : seqStep s = .next t) :
    t.transport = s.transport
      ∨ (s.cs ≠ .low ∧ t.transport = some s.cfg.bus ∧ t.trace = s.trace ++ [.apply s.cfg.bus]) := by
  rcases busy_or_eq_of_seqStep hs with hb | rfl
  · obtain ⟨b, i, rest, ⟨p, hr, hp⟩ | ⟨c, f, hr, hf, hx⟩⟩ := h.busyStep hb hs
    · refine hp.transport.imp_right ?_
      rintro ⟨rfl, rfl⟩
      obtain rfl := hr.bracket_eq nofun fun _ => rfl
      exact ⟨by rw [← hr.cs]; exact nofun, rfl, rfl⟩
    · obtain ⟨hc, d, -, rfl⟩ := openedFrame_of_exec (hr.isFrame hf) hx
      exact (openedFrame_transport s d f rest).imp_right fun hb => ⟨by rw [hc]; exact nofun, hb⟩
  · exact .inl rfl

/-- The sequencer writes a byte of the host buffer only inside the range of a READ_DATA (R46, R122). -/
theorem Inv.seqStep_mem (h : Inv s) (hs : seqStep s = .next t) :
    t.mem = s.mem ∨ ∃ a n buf d v, s.seqState = .busy ∧ s.current = some (.readData a n buf)
      ∧ buf.toNat ≤ d ∧ d < buf.toNat + n.toNat ∧ t.mem = s.mem.write d v := by
  rcases busy_or_eq_of_seqStep hs with hb | rfl
  · obtain ⟨b, i, rest, ⟨p, hr, hp⟩ | ⟨c, f, hr, hf, hx⟩⟩ := h.busyStep hb hs
    · refine hp.mem.imp_right ?_
      rintro ⟨d, n, v, rfl, hmem⟩
      obtain ⟨dir, buf, len, hdir, hbuf, -⟩ := hr.data rfl nofun
      obtain ⟨-, hrange⟩ := (ownOps_data hdir hbuf).1 hr.own
      simp only [rangeOps, Bool.and_eq_true, decide_eq_true_eq] at hrange
      obtain ⟨⟨⟨rfl, hlo⟩, hhi⟩, -⟩ := hrange
      cases i with
      | readData a n' buf' =>
        cases hbuf
        exact ⟨a, len, buf, d, v, hb, hr.current, hlo, by omega, hmem⟩
      | _ => cases hdir
    · obtain ⟨-, d, -, rfl⟩ := openedFrame_of_exec (hr.isFrame hf) hx
      exact .inl (openedFrame_mem s d f rest)
  · exact .inl rfl

end

/-- Settles O55: the first clause is `Inv.transport_of_low`; of the steps of `step_cases` only the sequencer's own and another
device's move change the transport. -/
theorem transportIsOwnWhileClocking : Obligations.TransportIsOwnWhileClocking := by
  refine ⟨fun s h hsh hc => h.transport_of_low hsh hc, fun s t h hs hne => ?_⟩
  have hf := not_faulted_of_step hs
  rcases step_cases hf with ⟨e, hx⟩ | ⟨r, e, -, hx⟩ | ⟨a, v, e, -, -, hx⟩ | ⟨x, e, he, hsh, hc, hx⟩ | ⟨x, e, -, hx⟩
  · obtain ⟨hc, hown⟩ := (Inv.seqStep_transport (s := { s with env := e }) h (hx.symm.trans hs)).resolve_left hne
    exact ⟨hc, .inl hown⟩
  · exact absurd (takeRequest_keeps (s := { s with env := e }) hf (hx.symm.trans hs)).1 hne
  · exact absurd (Host.Outcome.next.inj (hx.symm.trans hs) ▸ rfl) hne
  · exact ⟨hc, .inr ⟨x, e, he, hsh, (Host.Outcome.next.inj (hx.symm.trans hs)).symm⟩⟩
  · exact absurd (Host.Outcome.next.inj (hx.symm.trans hs) ▸ rfl) hne

/-- Settles O59: of the steps of `step_cases` only the sequencer's own `MemWrite` and the Host's store write a byte. -/
theorem hostBufferChangesOnlyInRange : Obligations.HostBufferChangesOnlyInRange := by
  intro s t x h hs hne
  have hf := not_faulted_of_step hs
  have hsame (hm : t.mem = s.mem) : False := hne (by rw [hm])
  rcases step_cases hf with ⟨e, hx⟩ | ⟨r, e, -, hx⟩ | ⟨a, v, e, he, hb, hx⟩ | ⟨x, e, -, -, -, hx⟩ | ⟨x, e, -, hx⟩
  · obtain ⟨a, n, buf, d, v, hb, hcur, hlo, hhi, hmem⟩ :=
      (Inv.seqStep_mem (s := { s with env := e }) h (hx.symm.trans hs)).resolve_left hsame
    obtain rfl : x = d := by
      by_contra hxd
      exact hne (by rw [hmem, Memory.read_write_other hxd])
    exact .inl ⟨a, n, buf, hb, hcur, hlo, hhi⟩
  · exact (hsame (takeRequest_keeps (s := { s with env := e }) hf (hx.symm.trans hs)).2).elim
  · refine .inr ⟨a, v, e, hb, he, ?_⟩
    by_contra hxa
    obtain rfl := Host.Outcome.next.inj (hx.symm.trans hs)
    exact hne (Memory.read_write_other hxa)
  · exact (hsame (Host.Outcome.next.inj (hx.symm.trans hs) ▸ rfl)).elim
  · exact (hsame (Host.Outcome.next.inj (hx.symm.trans hs) ▸ rfl)).elim

end Sys2Proof.Machine
end

section
/-! What a request leaves unchanged at every step from its acceptance to its response, whatever the state it is accepted in
(R17, R24, R90, R122). -/

namespace Sys2Proof.Machine

/-- From `s` to `u` nothing has changed that request `i` leaves alone: the configuration, the fault code, the Host's moves, the
transport of an exclusive bus unless it is INIT, every register its rule does not name, and every byte of the host buffer
outside READ_DATA's range. -/
structure KeepsRest (i : Instr) (s u : State) : Prop where
  cfg : u.cfg = s.cfg
  par : u.par = s.par
  faultCode : u.faultCode = s.faultCode
  env : u.env = s.env
  transport : s.cfg.shared = false → i ≠ .init → u.transport = s.transport
  regs : ∀ r, r ∉ writtenBy i → (u.regs.get r).value = (s.regs.get r).value
  mem : ∀ x, (∀ a n buf, i = .readData a n buf → x < buf.toNat ∨ buf.toNat + n.toNat ≤ x) →
    u.mem.read x = s.mem.read x

/-- What may stand at `pc` while request `i` runs: only registers its rule names are written, only INIT applies the settings
of an exclusive bus, and only READ_DATA stores, inside its own range. -/
def allowed (i : Instr) : Micro → Prop
  | .frame (.fixed f) => plainFrame f = true ∧ (f = .spiReadStatus → .s ∈ writtenBy i)
  | .frame .readChunk => dataDir i = some .read
  | .prim .applyIfExclusive => i = .init
  | .prim (.xfer _ rx) => rx = .status → .s ∈ writtenBy i
  | .prim (.dataIn d n) => ∃ a len buf, i = .readData a len buf ∧ buf.toNat ≤ d ∧ d + n ≤ buf.toNat + len.toNat
  | .prim (.storeIn d n) => ∃ a len buf, i = .readData a len buf ∧ buf.toNat ≤ d ∧ d + 1 + n ≤ buf.toNat + len.toNat
  | .prim (.setReg r _) => r ∈ writtenBy i
  | .prim (.waitBegin _) => .t ∈ writtenBy i
  | .prim .readStart => .start ∈ writtenBy i
  | .prim .pollTest | .prim .pollClock | .prim .pollPause => .s ∈ writtenBy i
  | .prim .nextChunk => .chunk ∈ writtenBy i
  | .prim .advance => .addr ∈ writtenBy i ∧ .cur ∈ writtenBy i ∧ .rem ∈ writtenBy i
  | .prim (.chunkLoop d) => dataDir i = some d
  | .frame (.erase _ _) | .frame .programChunk | .prim (.delay _) | .prim .csAssert | .prim .csDeassert
  | .prim (.dropLocal _) | .prim (.dataOut _ _) | .prim (.respond _) => True

namespace KeepsRest
variable {i : Instr} {s t u : State}

theorem refl (i : Instr) (s : State) : KeepsRest i s s :=
  ⟨rfl, rfl, rfl, rfl, fun _ _ => rfl, fun _ _ => rfl, fun _ _ => rfl⟩

theorem trans (h : KeepsRest i s t) (h' : KeepsRest i t u) : KeepsRest i s u where
  cfg := h'.cfg.trans h.cfg
  par := h'.par.trans h.par
  faultCode := h'.faultCode.trans h.faultCode
  env := h'.env.trans h.env
  transport hsh hi := (h'.transport (h.cfg ▸ hsh) hi).trans (h.transport hsh hi)
  regs r hr := (h'.regs r hr).trans (h.regs r hr)
  mem x hx := (h'.mem x hx).trans (h.mem x hx)

theorem setPc (h : KeepsRest i s u) (ops : List Micro) : KeepsRest i s (u.setPc ops) :=
  ⟨h.cfg, h.par, h.faultCode, h.env, h.transport, h.regs, h.mem⟩

/-- Registers and host buffer as they were. -/
theorem of_did {evs : List Event} {j k : Nat} (hd : Did s u evs j k) (hk : KeepsControl s u) (hr : u.regs = s.regs)
    (hm : u.mem = s.mem) : KeepsRest i s u :=
  ⟨hd.cfg, hd.par, hk.faultCode, hk.env, fun _ _ => hk.transport, fun _ _ => by rw [hr], fun _ _ => by rw [hm]⟩

theorem writeReg {r : Reg} (hr : r ∈ writtenBy i) (s : State) (v : Word) : KeepsRest i s (s.writeReg r v) where
  cfg := rfl
  par := rfl
  faultCode := rfl
  env := rfl
  transport _ _ := rfl
  regs q hq := by rw [State.writeReg_regs, RegFile.get_put_other _ _ (show q ≠ r from fun e => hq (e ▸ hr))]
  mem _ _ := rfl

theorem xferTo {rx : RxDest} (hrx : rx = .status → .s ∈ writtenBy i) (s : State) (x : TxByte) :
    KeepsRest i s (s.xferTo x rx) := by
  cases rx with
  | discard | keep => exact of_did (Did.xferTo s x _) (.xferTo s x _) rfl rfl
  | status => exact (of_did (Did.exchange s x) (.exchange s x) rfl rfl).trans (writeReg (hrx rfl) _ _)

/-- READ_DATA stores inside its own range (R46, R122). -/
theorem storeByte {a len buf : Word} {d : Nat} (hi : i = .readData a len buf) (hlo : buf.toNat ≤ d)
    (hhi : d < buf.toNat + len.toNat) (s : State) (v : Byte) : KeepsRest i s (s.storeByte d v) where
  cfg := rfl
  par := rfl
  faultCode := rfl
  env := rfl
  transport _ _ := rfl
  regs _ _ := rfl
  mem x hx := Memory.read_write_other (by have := hx a len buf hi; omega)

theorem openedFrame (i : Instr) (s : State) (d : Nat) (f : Instr) (rest : List Micro) :
    KeepsRest i s (openedFrame s d f rest) := by
  cases hsh : s.cfg.shared with
  | true =>
    rw [openedFrame_shared hsh]
    exact ⟨rfl, rfl, rfl, rfl, fun h => absurd (hsh.symm.trans h) (by decide), fun _ _ => rfl, fun _ _ => rfl⟩
  | false =>
    rw [openedFrame_exclusive hsh]
    exact (of_did (.lowerCs s) (.lowerCs s) rfl rfl).setPc _

/-- An allowed primitive changes nothing else. -/
theorem primStep {p : Prim} {rest : List Micro} (hp : allowed i (.prim p)) (hs : PrimStep s rest p t) :
    KeepsRest i s t := by
  have same : KeepsRest i s s := refl i s
  cases hs with
  | applyShared | dataInEnd | dataOutEnd | pollIdle | pollBusy | loopEnd | loopTurn => exact same.setPc _
  | applyOwn hsh =>
    exact ⟨rfl, rfl, rfl, rfl, fun _ hi => absurd hp hi, fun _ _ => rfl, fun _ _ => rfl⟩
  | delay d => exact (of_did (Did.delayUs s _) (.delayUs s _) (by simp) (by simp)).setPc _
  | csAssert => exact (of_did (.lowerCs s) (.lowerCs s) rfl rfl).setPc _
  | csDeassert => exact (of_did (Did.endTx s) (.raiseCs s) rfl rfl).setPc _
  | xfer x rx => exact (xferTo hp s x).setPc _
  | dataIn => exact (xferTo (rx := .keep .r) nofun s _).setPc _
  | dataOut => exact (xferTo (rx := .discard) nofun s _).setPc _
  | storeIn d n v =>
    obtain ⟨a, len, buf, hi, hlo, hhi⟩ := hp
    exact (storeByte hi hlo (by omega) s v).setPc _
  | dropLocal l => exact (of_did (Did.dropLocal s l) (.dropLocal s l) rfl rfl).setPc _
  | setReg | waitBegin | nextChunk => exact (writeReg hp s _).setPc _
  | readStart => exact ((of_did (Did.readClock s) (.readClock s) rfl rfl).trans (writeReg hp _ _)).setPc _
  | clockPast | clockBefore => exact (of_did (Did.readClock s) (.readClock s) rfl rfl).setPc _
  | pollPause => exact (of_did (Did.record s _) (.record s _) rfl rfl).setPc _
  | advance =>
    obtain ⟨ha, hcur, hrem⟩ := hp
    exact (((writeReg ha s _).trans (writeReg hcur _ _)).trans (writeReg hrem _ _)).setPc _
  | respond => exact ⟨rfl, rfl, rfl, rfl, fun _ _ => rfl, fun _ _ => rfl, fun _ _ => rfl⟩

end KeepsRest

/-! ### What is left of a request stays allowed -/

section
variable {s t u : State} {i : Instr} {m : Micro} {rest : List Micro}

theorem allowed_requestOps (hf : i.isFrame = false) : ∀ m ∈ requestOps i, allowed i m := by
  cases i with
  | init | identify | validate | readStatus | readConfig | writeStatus | waitWrite | writeEnable | sectorErase | blockErase
  | chipErase | resetDevice | deepPowerDown | wake | readData | writeData | reservedOp =>
    simp [requestOps, waitOps, wrenOps, eraseOps, dataOps, allowed, plainFrame, Instr.isFrame, writtenBy, dataDir]
  | _ => cases hf

theorem allowed_chunkBody {d : DataDir} (hd : dataDir i = some d) : ∀ m ∈ chunkBody d, allowed i m := by
  cases i with
  | readData | writeData =>
    cases hd
    simp [chunkBody, waitOps, wrenOps, allowed, plainFrame, Instr.isFrame, writtenBy, dataDir]
  | _ => cases hd

/-- After an allowed primitive the request has responded, or is still running with allowed positions before the rest. -/
theorem PrimStep.allowed {p : Prim} (hs : PrimStep s rest p t) (hp : allowed i (.prim p)) :
    t.seqState = .idle ∨ (t.seqState = s.seqState ∧ t.current = s.current
      ∧ ∃ l, t.pc = some (l ++ rest) ∧ ∀ m ∈ l, Machine.allowed i m) := by
  cases hs with
  | respond => exact .inl rfl
  | dataIn d k =>
    obtain ⟨a, len, buf, hi, hlo, hhi⟩ := hp
    exact .inr ⟨by simp, by simp, [.prim (.storeIn d k)], by simp, by simpa using ⟨a, len, buf, hi, hlo, by omega⟩⟩
  | storeIn d n =>
    obtain ⟨a, len, buf, hi, hlo, hhi⟩ := hp
    exact .inr ⟨rfl, rfl, [.prim (.dataIn (d + 1) n)], rfl, by simpa using ⟨a, len, buf, hi, by omega, by omega⟩⟩
  | dataOut d k => exact .inr ⟨by simp, by simp, [.prim (.dataOut (d + 1) k)], by simp, by simp [Machine.allowed]⟩
  | pollBusy => exact .inr ⟨rfl, rfl, [.prim .pollClock], rfl, List.forall_mem_singleton.2 hp⟩
  | clockBefore => exact .inr ⟨rfl, rfl, [.prim .pollPause], rfl, List.forall_mem_singleton.2 hp⟩
  | pollPause =>
    refine .inr ⟨rfl, rfl, [.frame (.fixed .spiReadStatus), .prim .pollTest], rfl, ?_⟩
    simpa [Machine.allowed, plainFrame, Instr.isFrame] using hp
  | loopTurn d => exact .inr ⟨rfl, rfl, chunkBody d, rfl, allowed_chunkBody hp⟩
  | _ => exact .inr ⟨by simp [Code.advance], by simp [Code.advance], [], by simp [Code.advance], nofun⟩

/-- What an allowed place of the pseudocode sends: a frame, a status read only where `S` may be written, a read frame only in
READ_DATA. -/
theorem frame_of_allowed {c : FrameCall} {f : Instr} (hc : allowed i (.frame c)) (hf : frameAt c s = .ok f) :
    f.isFrame = true ∧ (f = .spiReadStatus → .s ∈ writtenBy i)
      ∧ (plainFrame f = true ∨ dataDir i = some .read ∨ (∃ a n, f = .spiProgram3 a n) ∨ ∃ a n, f = .spiProgram4 a n) := by
  cases c with
  | fixed g =>
    obtain rfl : g = f := Except.ok.inj hf
    exact ⟨(Bool.and_eq_true_iff.1 hc.1).1, hc.2, .inl hc.1⟩
  | erase k a =>
    obtain ⟨hp, hne⟩ := frameAt_erase_eq_ok hf
    exact ⟨(Bool.and_eq_true_iff.1 hp).1, fun h => absurd h hne, .inl hp⟩
  | readChunk => obtain ⟨a, n, rfl | rfl⟩ := frameAt_readChunk_eq_ok hf <;> exact ⟨rfl, nofun, .inr (.inl hc)⟩
  | programChunk =>
    obtain ⟨a, n, rfl | rfl⟩ := frameAt_programChunk_eq_ok hf
    · exact ⟨rfl, nofun, .inr (.inr (.inl ⟨_, _, rfl⟩))⟩
    · exact ⟨rfl, nofun, .inr (.inr (.inr ⟨_, _, rfl⟩))⟩

/-- The exchanges of such a frame are allowed, its data inside the range of the running request. -/
theorem allowed_exchangeOps {c : FrameCall} {f : Instr} {d : Nat} {ws : Byte} (hc : allowed i (.frame c))
    (hf : frameAt c (s.setPc rest) = .ok f) (hcur : s.current = some i)
    (hd : plainFrame f = true ∨ chunkBuffer s (chunkOperand f) = .ok d) :
    ∀ m ∈ exchangeOps ws d f, allowed i m := by
  obtain ⟨-, hstatus, hread⟩ := frame_of_allowed hc hf
  intro m hm
  rcases mem_exchangeOps hm with ⟨x, rx, rfl, hrx⟩ | ⟨rfl, hr⟩ | ⟨rfl, -⟩
  · exact fun h => hstatus (hrx h)
  · have hnot : plainFrame f = false ∧ dataDir i = some .read := by
      rcases hr with ⟨a, n, rfl⟩ | ⟨a, n, rfl⟩ <;> exact ⟨rfl, by simpa [plainFrame] using hread⟩
    have hd := hd.resolve_left (by simp [hnot.1])
    cases i with
    | readData a len buf =>
      obtain ⟨hlo, hhi⟩ := chunkBuffer_range hcur rfl hd
      exact ⟨a, len, buf, rfl, hlo, hhi⟩
    | _ => cases hnot.2
  · trivial

/-! ### From acceptance to response -/

/-- Request `i`, accepted in `s`, has come to `u`: it has changed nothing it leaves alone, and has responded or runs on with
allowed positions left. -/
def Midway (i : Instr) (s u : State) : Prop :=
  KeepsRest i s u ∧ (u.seqState = .idle
    ∨ (u.seqState = .busy ∧ u.current = some i ∧ ∃ ops, u.pc = some ops ∧ ∀ m ∈ ops, allowed i m))

theorem Midway.seqStep (h : Midway i s t) (hs : seqStep t = .next u) : Midway i s u := by
  obtain ⟨hk, hidle | ⟨hb, hcur, ops, hpc, hops⟩⟩ := h
  · rw [seqStep_of_waiting (.inr hidle)] at hs
    exact Host.Outcome.next.inj hs ▸ ⟨hk, .inl hidle⟩
  rw [← State.setPc_of_pc hpc] at hs
  cases ops with
  | nil => simp [Machine.seqStep, hb] at hs
  | cons m rest =>
    obtain ⟨hm, hrest⟩ := List.forall_mem_cons.1 hops
    have hlist {l : List Micro} (hl : ∀ m ∈ l, allowed i m) : ∀ m ∈ l ++ rest, allowed i m :=
      List.forall_mem_append.2 ⟨hl, hrest⟩
    cases m with
    | prim p =>
      have hstep := primStep_of_execPrim ((seqStep_prim hb p rest).symm.trans hs)
      refine ⟨hk.trans (.primStep hm hstep), (hstep.allowed hm).imp_right ?_⟩
      rintro ⟨hb', hcur', l, hpc', hl⟩
      exact ⟨hb'.trans hb, hcur'.trans hcur, _, hpc', hlist hl⟩
    | frame c =>
      rw [seqStep_frame hb] at hs
      obtain ⟨f, hf, hx⟩ := withValue_eq_next.1 hs
      obtain ⟨-, d, hd, rfl⟩ := openedFrame_of_exec (frame_of_allowed hm hf).1 hx
      refine ⟨hk.trans (.openedFrame i t d f rest), .inr ?_⟩
      have hbody : ∀ m ∈ exchangeOps t.par.cmdWriteStatus d f ++ [.prim .csDeassert], allowed i m :=
        List.forall_mem_append.2 ⟨allowed_exchangeOps hm hf hcur hd, List.forall_mem_singleton.2 trivial⟩
      cases hsh : t.cfg.shared with
      | true =>
        rw [openedFrame_shared hsh]
        exact ⟨hb, hcur, _, rfl, List.forall_mem_cons.2 ⟨trivial, List.forall_mem_cons.2 ⟨trivial, hlist hbody⟩⟩⟩
      | false =>
        rw [openedFrame_exclusive hsh]
        exact ⟨hb, hcur, _, rfl, hlist hbody⟩

theorem Midway.reaches (h : Midway i s t) (hr : Reaches t u) : Midway i s u := by
  obtain ⟨k, hk⟩ := hr
  induction k generalizing t with
  | zero => exact Host.Outcome.next.inj hk ▸ h
  | succ k ih =>
    unfold seqRun at hk
    split at hk
    · exact ih (h.seqStep ‹_›) hk
    · cases hk
    · cases hk

/-- From `FAULTED` the sequencer gets nowhere (R123). -/
theorem eq_of_reaches_faulted (hs : s.seqState = .faulted) (hr : Reaches s t) : t = s := by
  obtain ⟨k, hk⟩ := hr
  cases k with
  | zero => exact (Host.Outcome.next.inj hk).symm
  | succ k => simp [seqRun, seqStep, hs] at hk

end

/-- Settles O43: an accepted request starts with allowed positions, and every step keeps what it leaves alone
(`Midway.seqStep`). -/
theorem requestLeavesTheRest : Obligations.RequestLeavesTheRest := by
  intro i s t u hf hx hr hu
  have hs : s.seqState ≠ .faulted := fun hs => by
    rw [exec_request_of_faulted hf hs] at hx
    cases hx
  have hmid : Midway i s u := by
    rcases exec_request_cases hf hs with ⟨c, hc⟩ | ⟨hc, -⟩
    · obtain rfl := Host.Outcome.next.inj (hc.symm.trans hx)
      exact absurd (by rw [eq_of_reaches_faulted rfl hr]; rfl) hu
    · obtain rfl := Host.Outcome.next.inj (hc.symm.trans hx)
      have hstart : KeepsRest i s (s.startRequest i (requestOps i)) :=
        ⟨rfl, rfl, rfl, rfl, fun _ _ => rfl, fun r _ => by simp, fun _ _ => rfl⟩
      exact Midway.reaches (t := s.startRequest i (requestOps i)) ⟨hstart, .inr ⟨rfl, rfl, _, rfl, allowed_requestOps hf⟩⟩ hr
  obtain ⟨hk, -⟩ := hmid
  refine ⟨hk.cfg, hk.par, hk.faultCode, hk.env, hk.transport, hk.regs, fun hi x => hk.mem x ?_, ?_⟩
  · rintro a n buf rfl
    exact absurd rfl (hi a n buf)
  · rintro a n buf rfl x hx
    refine hk.mem x ?_
    rintro _ _ _ ⟨⟩
    exact hx

end Sys2Proof.Machine
end

section
/-! The chunks of a range (R113, R114), and the events, bytes and waits of its chunks as seen from a later state. -/

namespace Sys2Proof.Machine

open Code

/-! ### The chunks of a range -/

theorem chunkList_succ {p rem : Word} (hr : rem ≠ 0) (k : Nat) (a : Word) :
    chunkList p (k + 1) a rem = (a, chunkLength p a rem)
      :: chunkList p k (a + chunkLength p a rem) (rem - chunkLength p a rem) := if_neg hr

theorem chunkList_zero (p : Word) (k : Nat) (a : Word) : chunkList p k a 0 = [] := by
  cases k <;> rfl

/-- The next chunk leaves fewer bytes, so `k` more chunks are enough. -/
theorem sub_chunkLength_le {p a rem : Word} {k : Nat} (hp : p ≠ 0) (hr : rem ≠ 0) (hk : rem.toNat ≤ k + 1) :
    (rem - chunkLength p a rem).toNat ≤ k := by
  have hpos := chunkLength_pos (a := a) hp hr
  rw [BitVec.toNat_sub_of_le (chunkLength_le p a rem)]
  omega

/-- The chunks of a range have its length together (R114 (c)). -/
theorem chunkList_sum {p : Word} (hp : p ≠ 0) {k : Nat} {a rem : Word} (hk : rem.toNat ≤ k) :
    ((chunkList p k a rem).map fun q => q.2.toNat).sum = rem.toNat := by
  induction k generalizing a rem with
  | zero =>
    obtain rfl : rem = 0 := BitVec.eq_of_toNat_eq (Nat.le_zero.1 hk)
    rfl
  | succ k ih =>
    by_cases hr : rem = 0
    · subst hr
      rw [chunkList_zero]
      rfl
    · have hle := chunkLength_le p a rem
      rw [chunkList_succ hr, List.map_cons, List.sum_cons, ih (sub_chunkLength_le hp hr hk),
        BitVec.toNat_sub_of_le hle]
      exact Nat.add_sub_cancel' hle

theorem length_readBytesOf (s : State) (k : Nat) (l : List (Word × Word)) :
    (readBytesOf s k l).length = (l.map fun q => q.2.toNat).sum := by
  induction l generalizing k with
  | nil => rfl
  | cons q l ih => simp [readBytesOf, ih]

theorem length_addressed (c : Cfg) (b : Byte) (a : Word) : (b :: addrBytes c a).length = headLen c := by
  unfold addrBytes headLen
  split <;> rfl

/-! ### The same chunks, seen from a later state -/

namespace Did
section
variable {s t : State} {e : List Event} {j i : Nat} (h : Did s t e j i)
include h

theorem readFrameEvents (k : Nat) (a : Word) (d n : Nat) :
    readFrameEvents t k a d n = readFrameEvents s (j + k) a d n := by
  simp only [Machine.readFrameEvents, h.cfg, h.chip, h.dataEvents, Nat.add_assoc]

theorem readEvents (k d : Nat) (l : List (Word × Word)) : readEvents t k d l = readEvents s (j + k) d l := by
  induction l generalizing k d with
  | nil => rfl
  | cons q l ih => simp only [Machine.readEvents, h.readFrameEvents, h.cfg, ih, Nat.add_assoc]

theorem readBytesOf (k : Nat) (l : List (Word × Word)) : readBytesOf t k l = readBytesOf s (j + k) l := by
  induction l generalizing k with
  | nil => rfl
  | cons q l ih => simp only [Machine.readBytesOf, h.chip, h.cfg, ih, Nat.add_assoc]

theorem programWaits (k l n : Nat) (p q : Span) : programWaits t k l n p q = programWaits s (j + k) (i + l) n p q := by
  simp only [Machine.programWaits, h.spanOk, h.waitTimeout, h.cfg, Nat.add_assoc]

theorem writeWaits (k l : Nat) (cs : List (Word × Word)) (ws : List (Span × Span)) :
    writeWaits t k l cs ws = writeWaits s (j + k) (i + l) cs ws := by
  induction cs generalizing k l ws with
  | nil => cases ws <;> rfl
  | cons c cs ih =>
    cases ws with
    | nil => rfl
    | cons w ws => simp only [Machine.writeWaits, h.programWaits, h.cfg, ih, Nat.add_assoc]

theorem lastWait (k l : Nat) (cs : List (Word × Word)) (ws : List (Span × Span)) :
    lastWait t k l cs ws = lastWait s (j + k) (i + l) cs ws := by
  induction cs generalizing k l ws with
  | nil => cases ws <;> rfl
  | cons c cs ih =>
    cases ws with
    | nil => rfl
    | cons w ws => simp only [Machine.lastWait, h.chip, h.clock, h.cfg, ih, Nat.add_assoc]

theorem programEvents (hm : t.mem = s.mem) (k l : Nat) (a : Word) (d n : Nat) (p q : Span) :
    programEvents t k l a d n p q = programEvents s (j + k) (i + l) a d n p q := by
  simp only [Machine.programEvents, h.spanEvents, h.waitTimeout, h.wrenEvents, h.sendEvents, h.cfg, hm, Nat.add_assoc]

theorem writeEvents (hm : t.mem = s.mem) (k l d : Nat) (cs : List (Word × Word)) (ws : List (Span × Span)) :
    writeEvents t k l d cs ws = writeEvents s (j + k) (i + l) d cs ws := by
  induction cs generalizing k l d ws with
  | nil => cases ws <;> rfl
  | cons c cs ih =>
    cases ws with
    | nil => rfl
    | cons w ws => simp only [Machine.writeEvents, h.programEvents hm, h.cfg, ih, Nat.add_assoc]

end

theorem advance (a rem cur c : Word) (s : State) : Did s (advance a rem cur c s) [] 0 0 :=
  (writeReg s .addr _).trans ((writeReg _ .cur _).trans (writeReg _ .rem _))

theorem beginRange (a n : Word) (s : State) : Did s (beginRange a n s) [] 0 0 :=
  (writeReg s .addr _).trans ((writeReg _ .rem _).trans (writeReg _ .cur _))

theorem startRequest (s : State) (i : Instr) (ops : List Micro) : Did s (s.startRequest i ops) [] 0 0 :=
  ⟨by simp, by simp, by simp, rfl, rfl⟩

end Did

end Sys2Proof.Machine
end

section
/-! The chunk loops of READ_DATA and WRITE_DATA, run to their ends whatever the chip and the clock give: what they record,
store and leave in the working registers (R115 to R118). -/

namespace Sys2Proof.Machine

open Code

/-! ### A chunk loop, from one head to its end -/

/-- From the loop head `s` to `u` the chunks `l` of the range `(a, rem)` were moved, recording `evs` (R115, R117). -/
structure RangeRun (s u : State) (q : Instr) (buf len a rem cur : Word) (evs : List Event) (l : List (Word × Word)) :
    Prop where
  did : ∃ j i, Did s u evs j i
  atEnd : AtLoop u q buf len (a + rem) 0 (cur + rem)
  chunk : u.regs.chunk.value = (l.getLast?.map Prod.snd).or s.regs.chunk.value

section
variable {s t u : State} {q : Instr} {buf len a rem cur : Word} {evs e : List Event} {l : List (Word × Word)}

theorem RangeRun.refl (h : AtLoop s q buf len a 0 cur) : RangeRun s s q buf len a 0 cur [] [] where
  did := ⟨0, 0, Did.refl s⟩
  atEnd := by
    have hsum (x : Word) : x + 0 = x := BitVec.add_zero x
    rwa [hsum, hsum]
  chunk := rfl

/-- One chunk of `c` bytes, then the others. -/
theorem RangeRun.cons {c : Word} {j i : Nat} (hd : Did s t e j i) (hc : t.regs.chunk.value = some c)
    (h : RangeRun t u q buf len (a + c) (rem - c) (cur + c) evs l) :
    RangeRun s u q buf len a rem cur (e ++ evs) ((a, c) :: l) where
  did := by
    obtain ⟨j', i', hd'⟩ := h.did
    exact ⟨_, _, hd.trans hd'⟩
  atEnd := by
    have hsum (x : Word) : x + c + (rem - c) = x + rem := by
      rw [BitVec.add_assoc, BitVec.add_comm c, BitVec.sub_add_cancel]
    have hend := h.atEnd
    rwa [hsum, hsum] at hend
  chunk := by
    rw [h.chunk, hc, List.getLast?_cons]
    cases l.getLast? <;> rfl

/-- Where the next chunk stands in the host buffer. -/
theorem AtLoop.add_chunk (h : AtLoop s q buf len a rem cur) :
    buf.toNat + (cur + chunkLength s.cfg.pageSize a rem).toNat
      = buf.toNat + cur.toNat + (chunkLength s.cfg.pageSize a rem).toNat := by
  have hle := chunkLength_le s.cfg.pageSize a rem
  have htotal := h.total
  rw [BitVec.toNat_add_of_lt (by omega), Nat.add_assoc]

/-! ### The bytes READ_DATA stores -/

/-- Bytes stored behind those already there. -/
theorem storedByte_append {m m' : Memory} {d : Nat} {bs : List Byte} (h : ∀ x, m'.read x = storedByte m d bs x)
    (bs' : List Byte) (x : Nat) : storedByte m' (d + bs.length) bs' x = storedByte m d (bs ++ bs') x := by
  have hm := h x
  unfold storedByte at hm ⊢
  rw [List.length_append]
  by_cases hlo : d ≤ x ∧ x < d + bs.length
  · rw [if_neg (by omega), if_pos (by omega), hm, if_pos hlo, List.getD_append _ _ _ _ (by omega)]
  · rw [hm, if_neg hlo]
    by_cases hhi : d + bs.length ≤ x ∧ x < d + bs.length + bs'.length
    · rw [if_pos hhi, if_pos (by omega), List.getD_append_right _ _ _ _ (by omega), Nat.sub_sub]
    · rw [if_neg hhi, if_neg (by omega)]

/-- What READ_DATA leaves in the host buffer when it has received `bs` for the addresses from `d` on (R116). -/
structure Stored (s u : State) (d : Nat) (bs : List Byte) : Prop where
  read : ∀ x, u.mem.read x = storedByte s.mem d bs x
  wf : u.mem.wf = true

theorem Stored.refl (h : s.mem.wf = true) (d : Nat) : Stored s s d [] where
  read x := (storedByte_nil _ _ x).symm
  wf := h

theorem Stored.append {d : Nat} {bs bs' : List Byte} (h : Stored s t d bs) (h' : Stored t u (d + bs.length) bs') :
    Stored s u d (bs ++ bs') where
  read x := (h'.read x).trans (storedByte_append h.read bs' x)
  wf := h'.wf

theorem readBytes_wf {n d : Nat} {s : State} (h : s.mem.wf = true) (hd : d + n ≤ 2 ^ 32) :
    (readBytes n d s).mem.wf = true := by
  induction n generalizing d s with
  | zero => exact h
  | succ n ih =>
    refine ih ?_ (by omega)
    rw [State.storeByte_mem, State.xferTo_mem]
    exact Memory.wf_write h (by omega)

/-- A read frame stores the bytes it receives after its header (R116). -/
theorem Stored.readChunk {n d : Nat} (bs : List Byte) (h : s.mem.wf = true) (hd : d + n ≤ 2 ^ 32) :
    Stored s (readChunk bs d n s) d ((List.range n).map fun k => s.chipDraw (bs.length + k)) := by
  have hwf : (xferOut bs (beginTx s)).mem.wf = true := by rwa [xferOut_mem, beginTx_mem]
  refine ⟨fun x => ?_, readBytes_wf hwf hd⟩
  have hread := readBytes_mem_read hwf hd x
  simp only [xferOut_mem, beginTx_mem, xferOut_chipDraw, beginTx_chipDraw] at hread
  exact hread

/-! ### READ_DATA's loop -/

/-- One chunk of READ_DATA: its frame, its bytes in the host buffer, and the next loop head (R115, R116). -/
theorem readTurn_runs (rest : List Micro) (h : AtLoop s q buf len a rem cur) (hr : rem ≠ 0) (hwf : s.mem.wf = true) :
    let c := chunkLength s.cfg.pageSize a rem
    ∃ t, Reaches (s.setPc (.prim (.chunkLoop .read) :: rest)) (t.setPc (.prim (.chunkLoop .read) :: rest))
      ∧ AtLoop t q buf len (a + c) (rem - c) (cur + c)
      ∧ Did s t (readFrameEvents s 0 a (buf.toNat + cur.toNat) c.toNat) (headLen s.cfg + c.toNat) 0
      ∧ t.regs.chunk.value = some c
      ∧ Stored s t (buf.toNat + cur.toNat) ((List.range c.toNat).map fun k => s.chipDraw (headLen s.cfg + k)) := by
  intro c
  obtain ⟨hrun, hnext⟩ := readTurn_reaches rest h hr
  obtain ⟨-, hin⟩ := chunk_in_buffer h (KeepsRange.refl s)
  have hw := Did.writeReg s .chunk c
  have hread := Did.readChunk (cmdRead s.cfg :: addrBytes s.cfg a) (buf.toNat + cur.toNat) c.toNat (s.writeReg .chunk c)
  have hstored : Stored (s.writeReg .chunk c) _ _ _ :=
    Stored.readChunk (n := c.toNat) (cmdRead s.cfg :: addrBytes s.cfg a) (State.writeReg_mem s .chunk c ▸ hwf) hin
  obtain ⟨-, -, -, -, -, hregs⟩ :=
    readChunk_rest (cmdRead s.cfg :: addrBytes s.cfg a) (buf.toNat + cur.toNat) c.toNat (s.writeReg .chunk c)
  have hmem (w : State) : (advance a rem cur c (w.dropLocal .r)).mem = w.mem := rfl
  rw [length_addressed] at hstored hread
  refine ⟨_, hrun, hnext, ?_, ?_, fun x => ?_, ?_⟩
  · refine (hw.trans (hread.trans ((Did.dropLocal _ .r).trans (Did.advance a rem cur c _)))).cast ?_ (by omega) rfl
    simp only [readFrameEvents, length_addressed, hw.dataEvents, hw.chip, hw.cfg, Nat.zero_add, List.nil_append,
      List.append_nil]
  · have hchunk : (s.writeReg .chunk c).regs.chunk.value = some c := rfl
    rwa [← hregs] at hchunk
  · rw [hmem, hstored.read, State.writeReg_mem]
    simp only [State.writeReg_chipDraw]
  · rw [hmem]
    exact hstored.wf

/-- READ_DATA's loop runs to its end, whatever it receives (R115, R116). -/
theorem readRange_runs {k : Nat} (rest : List Micro) (h : AtLoop s q buf len a rem cur) (hk : rem.toNat ≤ k)
    (hwf : s.mem.wf = true) :
    ∃ u, Reaches (s.setPc (.prim (.chunkLoop .read) :: rest)) (u.setPc rest)
      ∧ RangeRun s u q buf len a rem cur
          (readEvents s 0 (buf.toNat + cur.toNat) (chunkList s.cfg.pageSize k a rem)) (chunkList s.cfg.pageSize k a rem)
      ∧ Stored s u (buf.toNat + cur.toNat) (readBytesOf s 0 (chunkList s.cfg.pageSize k a rem)) := by
  induction k generalizing s a rem cur with
  | zero =>
    obtain rfl : rem = 0 := BitVec.eq_of_toNat_eq (Nat.le_zero.1 hk)
    exact ⟨s, chunkLoop_exit .read rest h rfl, .refl h, .refl hwf _⟩
  | succ k ih =>
    by_cases hr : rem = 0
    · subst hr
      exact ⟨s, chunkLoop_exit .read rest h rfl, .refl h, .refl hwf _⟩
    · have hk' := sub_chunkLength_le (a := a) (pageSize_ne_zero h.ok) hr hk
      have hd := h.add_chunk
      rw [chunkList_succ hr]
      obtain ⟨t, hrun, hnext, hdid, hchunk, hstored⟩ := readTurn_runs rest h hr hwf
      generalize chunkLength s.cfg.pageSize a rem = c at *
      obtain ⟨u, hrun', hrange, hstored'⟩ := ih hnext hk' hstored.wf
      rw [hdid.readEvents, hdid.cfg, hd] at hrange
      rw [hdid.readBytesOf, hdid.cfg, hd] at hstored'
      refine ⟨u, hrun.trans hrun', ?_, ?_⟩
      · simpa [readEvents] using hrange.cons hdid hchunk
      · have happ := hstored.append (bs' := readBytesOf s (headLen s.cfg + c.toNat)
          (chunkList s.cfg.pageSize k (a + c) (rem - c))) (by simpa using hstored')
        simpa [readBytesOf] using happ

end

section
variable {s t u : State} {q : Instr} {buf len a rem cur : Word}

/-! ### WRITE_DATA's loop -/

/-- A wait that goes the way `p`, with everything it leaves and leaves alone (R102). -/
theorem wait_runs {p : Span} {w : Timeout} (hb : s.seqState = .busy) (hc : s.cs = .high)
    (h : p.ok s (waitTimeout s w) 0 0 = true) :
    ∃ u, wait (p.polls + 1) w s = some u ∧ u.seqState = .busy ∧ u.cs = .high ∧ KeepsRange s u
      ∧ Did s u (p.events s (waitTimeout s w) 0 0) p.bytes p.clocks ∧ p.left s u (waitTimeout s w) 0 0 := by
  obtain ⟨u, hu, hd, hs⟩ := wait_of_span h
  obtain ⟨-, hk, hb', hc', ht, hstart⟩ := wait_reaches [] hb hc hu
  refine ⟨u, hu, hb', hc', hk, hd, ?_, ?_, ?_⟩
  · exact congrArg RegCell.value ht
  · exact congrArg RegCell.value hstart
  · rw [hs, Nat.zero_add]

/-- `ProgramChunk` when its two waits go the ways `p` and `q` (R118). -/
theorem programChunk_runs {p q : Span} {c : Word} (d : Nat) (hb : s.seqState = .busy) (hc : s.cs = .high)
    (h : programWaits s 0 0 c.toNat p q = true) :
    ∃ fuel u, programChunk fuel a c d s = some u ∧ KeepsRange s u
      ∧ Did s u (programEvents s 0 0 a d c.toNat p q) (p.bytes + 1 + headLen s.cfg + c.toNat + q.bytes)
          (p.clocks + q.clocks)
      ∧ q.left s u (waitTimeout s .program) (p.bytes + 1 + headLen s.cfg + c.toNat) p.clocks := by
  simp only [programWaits, Nat.zero_add, Bool.and_eq_true] at h
  obtain ⟨hp, hq⟩ := h
  obtain ⟨s1, hs1, hb1, hc1, hk1, hd1, -⟩ := wait_runs hb hc hp
  obtain ⟨-, hk2, hb2, hc2⟩ := wren_reaches [] hb1 hc1
  have hd2 := hd1.trans (Did.wren s1)
  have hk3 := (hk1.trans hk2).trans (KeepsRange.programFrame (cmdProg s.cfg :: addrBytes s.cfg a) d c.toNat (wren s1))
  have hd3 := hd2.trans (Did.programFrame (cmdProg s.cfg :: addrBytes s.cfg a) d c.toNat (wren s1))
  have hb3 := (programFrame_seqState (cmdProg s.cfg :: addrBytes s.cfg a) d c.toNat (wren s1)).trans hb2
  rw [length_addressed, ← Nat.add_assoc] at hd3
  obtain ⟨s2, hs2, -, -, hk4, hd4, hleft⟩ := wait_runs (p := q) (w := .program) hb3 rfl
    (by rw [hd3.spanOk, hd3.waitTimeout]; simpa using hq)
  rw [hd3.waitTimeout] at hleft hd4
  refine ⟨max (p.polls + 1) (q.polls + 1), s2, ?_, hk3.trans hk4, (hd3.trans hd4).cast ?_ (by omega) (by omega), ?_⟩
  · exact Option.bind_eq_some_iff.2
      ⟨s1, wait_mono hs1 (Nat.le_max_left _ _), wait_mono hs2 (Nat.le_max_right _ _)⟩
  · rw [hd3.spanEvents, hd2.sendEvents, hd1.wrenEvents, (hk1.trans hk2).mem]
    simp [programEvents, Nat.add_assoc]
  · have hleft' := hd3.spanLeft hleft
    simpa [Nat.add_assoc] using hleft'

/-- What WRITE_DATA leaves when `last` was its last wait: the registers of that wait, and the host buffer as it was
(R102, R118). -/
structure Programmed (s u : State) (last : Option (Word × Byte)) : Prop where
  mem : u.mem = s.mem
  t : u.regs.t.value = (last.map fun _ => waitTimeout s .program).or s.regs.t.value
  start : u.regs.start.value = (last.map Prod.fst).or s.regs.start.value
  s : u.regs.s.value = (last.map fun l => l.2.setWidth 32).or s.regs.s.value

theorem Programmed.refl (s : State) : Programmed s s none := ⟨rfl, rfl, rfl, rfl⟩

theorem Programmed.trans {last last' : Option (Word × Byte)} (hcfg : t.cfg = s.cfg) (h : Programmed s t last)
    (h' : Programmed t u last') : Programmed s u (last'.or last) where
  mem := h'.mem.trans h.mem
  t := by
    have hw : waitTimeout t .program = waitTimeout s .program := by rw [waitTimeout, waitTimeout, hcfg]
    rw [h'.t, h.t, hw, Option.map_or, Option.or_assoc]
  start := by rw [h'.start, h.start, Option.map_or, Option.or_assoc]
  s := by rw [h'.s, h.s, Option.map_or, Option.or_assoc]

/-- One chunk of WRITE_DATA: its waits, its write-enable, its frame, and the next loop head (R117, R118). -/
theorem writeTurn_runs {v w : Span} (rest : List Micro) (h : AtLoop s q buf len a rem cur) (hr : rem ≠ 0)
    (hw : programWaits s 0 0 (chunkLength s.cfg.pageSize a rem).toNat v w = true) :
    let c := chunkLength s.cfg.pageSize a rem
    let k := v.bytes + 1 + headLen s.cfg + c.toNat
    ∃ t, Reaches (s.setPc (.prim (.chunkLoop .write) :: rest)) (t.setPc (.prim (.chunkLoop .write) :: rest))
      ∧ AtLoop t q buf len (a + c) (rem - c) (cur + c)
      ∧ Did s t (programEvents s 0 0 a (buf.toNat + cur.toNat) c.toNat v w) (k + w.bytes) (v.clocks + w.clocks)
      ∧ t.regs.chunk.value = some c
      ∧ Programmed s t (some (s.clockDraw v.clocks, s.chipDraw (k + 2 * w.polls + 1))) := by
  intro c k
  have hd := Did.writeReg s .chunk c
  have hwaits : programWaits (s.writeReg .chunk c) 0 0 c.toNat v w = true := by rwa [hd.programWaits]
  obtain ⟨fuel, t, ht, hk, hdid, hleft⟩ :=
    programChunk_runs (a := a) (buf.toNat + cur.toNat) (s := s.writeReg .chunk c) h.busy h.cs hwaits
  obtain ⟨hrun, hnext⟩ := writeTurn_reaches rest h hr ht
  obtain ⟨hleft_t, hleft_start, hleft_s⟩ := hd.spanLeft hleft
  refine ⟨_, hrun, hnext, (hd.trans (hdid.trans (Did.advance a rem cur c t))).cast ?_ ?_ (by omega), ?_, ?_⟩
  · rw [hd.programEvents rfl]
    simp
  · rw [State.writeReg_cfg]
    omega
  · exact congrArg RegCell.value hk.chunk
  · rw [Nat.zero_add] at hleft_start hleft_s
    exact ⟨hk.mem, hleft_t, hleft_start, hleft_s⟩

/-- WRITE_DATA's loop runs to its end, whichever way its waits go (R117, R118). -/
theorem writeRange_runs {k : Nat} {waits : List (Span × Span)} (rest : List Micro) (h : AtLoop s q buf len a rem cur)
    (hk : rem.toNat ≤ k) (hw : writeWaits s 0 0 (chunkList s.cfg.pageSize k a rem) waits = true) :
    ∃ u, Reaches (s.setPc (.prim (.chunkLoop .write) :: rest)) (u.setPc rest)
      ∧ RangeRun s u q buf len a rem cur
          (writeEvents s 0 0 (buf.toNat + cur.toNat) (chunkList s.cfg.pageSize k a rem) waits)
          (chunkList s.cfg.pageSize k a rem)
      ∧ Programmed s u (lastWait s 0 0 (chunkList s.cfg.pageSize k a rem) waits) := by
  induction k generalizing s a rem cur waits with
  | zero =>
    obtain rfl : rem = 0 := BitVec.eq_of_toNat_eq (Nat.le_zero.1 hk)
    exact ⟨s, chunkLoop_exit .write rest h rfl, .refl h, .refl s⟩
  | succ k ih =>
    by_cases hr : rem = 0
    · subst hr
      exact ⟨s, chunkLoop_exit .write rest h rfl, .refl h, .refl s⟩
    · have hk' := sub_chunkLength_le (a := a) (pageSize_ne_zero h.ok) hr hk
      have hd := h.add_chunk
      rw [chunkList_succ hr] at hw ⊢
      cases waits with
      | nil => cases hw
      | cons vw waits =>
        obtain ⟨v, w⟩ := vw
        obtain ⟨hvw, hw⟩ := Bool.and_eq_true_iff.1 hw
        obtain ⟨t, hrun, hnext, hdid, hchunk, hprog⟩ := writeTurn_runs rest h hr hvw
        generalize chunkLength s.cfg.pageSize a rem = c at *
        have hwaits : writeWaits t 0 0 (chunkList t.cfg.pageSize k (a + c) (rem - c)) waits = true := by
          rw [hdid.writeWaits, hdid.cfg]
          simpa using hw
        obtain ⟨u, hrun', hrange, hprog'⟩ := ih hnext hk' hwaits
        rw [hdid.writeEvents hprog.mem, hdid.cfg, hd] at hrange
        rw [hdid.lastWait, hdid.cfg] at hprog'
        refine ⟨u, hrun.trans hrun', ?_, ?_⟩
        · simpa [writeEvents] using hrange.cons hdid hchunk
        · simpa [lastWait] using hprog.trans hdid.cfg hprog'

end

end Sys2Proof.Machine
end

section
/-! The data requests from acceptance to response (R50, R115 to R118, R122). -/

namespace Sys2Proof.Machine

open Code

/-! ### Data requests, from acceptance to response -/

/-- The first loop head of an accepted data request (R115, R117). -/
def rangeStart (s : State) (i : Instr) (a n : Word) : State := beginRange a n (s.startRequest i (requestOps i))

section
variable {s v : State} {i : Instr} {a n buf : Word}

theorem Did.rangeStart (s : State) (i : Instr) (a n : Word) : Did s (rangeStart s i a n) [] 0 0 :=
  (Did.startRequest s i _).trans (Did.beginRange a n _)

theorem atLoop_rangeStart (hc : s.cs = .high) (hok : cfgOk s.cfg = true) (hbuf : i.buffer = some (buf, n))
    (hr : rangeOk a n buf = true) : AtLoop (rangeStart s i a n) i buf n a n 0 :=
  atLoop_beginRange rfl hc hok rfl hbuf hr

/-- An accepted data request whose chunk loop runs from its first head to `v` runs to its response; what it leaves alone
is `requestLeavesTheRest`. -/
theorem dataRequest_completes {d : DataDir} {evs : List Event} {l : List (Word × Word)} (hs : s.seqState = .idle)
    (hf : i.isFrame = false) (ha : accepts s.cfg i = true) (hops : requestOps i = dataOps d a n)
    (hrun : Reaches ((rangeStart s i a n).setPc [.prim (.chunkLoop d), .prim (.respond .nothing)])
      (v.setPc [.prim (.respond .nothing)]))
    (h : RangeRun (rangeStart s i a n) v i buf n a n 0 evs l) :
    ∃ t, exec i s = .next t ∧ Reaches t (v.respondWith .nothing)
      ∧ Completed s (v.respondWith .nothing) evs .nothing (writtenBy i) := by
  have hx := exec_of_accepts (.inl hs) ha
  obtain ⟨j, k, hdid⟩ := h.did
  have hreach : Reaches (s.startRequest i (requestOps i)) (v.respondWith .nothing) := by
    have hbegin := beginRange_reaches [.prim (.chunkLoop d), .prim (.respond .nothing)] a n
      (s := s.startRequest i (requestOps i)) rfl
    rw [State.setPc_of_pc (congrArg some hops)] at hbegin
    exact hbegin.trans (hrun.trans (respond_reaches h.atEnd.busy h.atEnd.cs rfl))
  obtain ⟨hcfg, hpar, hfault, henv, -, hregs, -⟩ :=
    requestLeavesTheRest i s _ _ hf hx hreach (by rw [State.respondWith_seqState]; decide)
  refine ⟨_, hx, hreach, rfl, rfl, rfl, h.atEnd.cs, rfl, ?_, hfault, hregs, hcfg, hpar, henv⟩
  rw [State.respondWith_trace, ((Did.rangeStart s i a n).trans hdid).trace, List.nil_append]

/-- The working registers at the end of a range (R114, R122). -/
theorem RangeRun.registers {evs : List Event} {l : List (Word × Word)}
    (h : RangeRun (rangeStart s i a n) v i buf n a n 0 evs l) :
    v.regs.addr.value = some (a + n) ∧ v.regs.rem.value = some 0 ∧ v.regs.cur.value = some n
      ∧ v.regs.chunk.value = (l.getLast?.map Prod.snd).or s.regs.chunk.value := by
  have hsum : (0 : Word) + n = n := BitVec.zero_add n
  have hcur := congrArg RegCell.value h.atEnd.curIs
  rw [hsum] at hcur
  exact ⟨congrArg RegCell.value h.atEnd.addrIs, congrArg RegCell.value h.atEnd.remIs, hcur, h.chunk⟩

end

/-- Settles O38, by induction on the chunks (`readRange_runs`). -/
theorem readDataCompletes : Obligations.ReadDataCompletes := by
  intro s a n buf hs hc hok hwf ha hb
  have hr : rangeOk a n buf = true := rangeOk_iff.2 ⟨ha, hb⟩
  have hd := Did.rangeStart s (.readData a n buf) a n
  obtain ⟨v, hrun, hrange, hstored⟩ := readRange_runs [.prim (.respond .nothing)]
    (atLoop_rangeStart (i := .readData a n buf) hc hok rfl hr) (Nat.le_refl _) hwf
  rw [hd.readEvents, hd.cfg] at hrange
  rw [hd.readBytesOf, hd.cfg] at hstored
  obtain ⟨t, hx, hreach, hdone⟩ :=
    dataRequest_completes (i := .readData a n buf) hs rfl (Bool.and_eq_true_iff.2 ⟨hr, hok⟩) rfl hrun hrange
  obtain ⟨haddr, hrem, hcur, hchunk⟩ := hrange.registers
  refine ⟨t, _, hx, hreach, hdone, ?_, hstored.read, haddr, hrem, hcur, hchunk, hstored.wf⟩
  exact (length_readBytesOf s 0 _).trans (chunkList_sum (pageSize_ne_zero hok) (Nat.le_refl _))

/-- Settles O39, by induction on the chunks and their waits (`writeRange_runs`). -/
theorem writeDataCompletes : Obligations.WriteDataCompletes := by
  intro s a n buf waits hs hc hok ha hb hw
  have hr : rangeOk a n buf = true := rangeOk_iff.2 ⟨ha, hb⟩
  have hd := Did.rangeStart s (.writeData a n buf) a n
  obtain ⟨v, hrun, hrange, hprog⟩ := writeRange_runs (k := n.toNat) (waits := waits) [.prim (.respond .nothing)]
    (atLoop_rangeStart (i := .writeData a n buf) hc hok rfl hr) (Nat.le_refl _)
    (by rw [hd.writeWaits, hd.cfg]; exact hw)
  rw [hd.writeEvents rfl, hd.cfg] at hrange
  rw [hd.lastWait, hd.cfg] at hprog
  obtain ⟨t, hx, hreach, hdone⟩ :=
    dataRequest_completes (i := .writeData a n buf) hs rfl (Bool.and_eq_true_iff.2 ⟨hr, hok⟩) rfl hrun hrange
  obtain ⟨haddr, hrem, hcur, hchunk⟩ := hrange.registers
  exact ⟨t, _, hx, hreach, hdone, haddr, hrem, hcur, hchunk, hprog.t, hprog.start, hprog.s,
    fun x => congrArg (Memory.read · x) hprog.mem⟩

end Sys2Proof.Machine
end

section
/-! Host request records: their five fields, there and back, and what the decoder reads from them (R77 to R81). -/

namespace Sys2Proof.Machine

/-! ### The fields of a record (R77) -/

section
variable (op : Byte) (a n arg buf : Word)

@[simp] theorem opField_makeRecord : opField (makeRecord op a n arg buf) = op := extract_append_low _ op

@[simp] theorem addrField_makeRecord : addrField (makeRecord op a n arg buf) = a :=
  (extract_append_high _ op 0 32).trans (extract_append_low _ a)

@[simp] theorem lenField_makeRecord : lenField (makeRecord op a n arg buf) = n :=
  (extract_append_high _ op 32 32).trans ((extract_append_high _ a 0 32).trans (extract_append_low _ n))

@[simp] theorem argField_makeRecord : argField (makeRecord op a n arg buf) = arg :=
  (extract_append_high _ op 64 32).trans ((extract_append_high _ a 32 32).trans
    ((extract_append_high _ n 0 32).trans (extract_append_low buf arg)))

@[simp] theorem bufField_makeRecord : bufField (makeRecord op a n arg buf) = buf :=
  (extract_append_high _ op 96 32).trans ((extract_append_high _ a 64 32).trans
    ((extract_append_high _ n 32 32).trans ((extract_append_high buf arg 0 32).trans (extract_whole buf))))

end

/-- The five fields are the whole record: each starts where the one below it ends. -/
theorem makeRecord_fields (r : Record) :
    makeRecord (opField r) (addrField r) (lenField r) (argField r) (bufField r) = r := by
  unfold makeRecord opField addrField lenField argField bufField
  rw [BitVec.extractLsb'_append_extractLsb'_eq_extractLsb' (show 104 = 72 + 32 from rfl),
    BitVec.extractLsb'_append_extractLsb'_eq_extractLsb' (show 72 = 40 + 32 from rfl),
    BitVec.extractLsb'_append_extractLsb'_eq_extractLsb' (show 40 = 8 + 32 from rfl),
    BitVec.extractLsb'_append_extractLsb'_eq_extractLsb' (show 8 = 0 + 8 from rfl)]
  exact extract_whole r

/-! ### The operation a record names (R80, R81) -/

/-- A code from 0x10 on is none of the sixteen operations (R81). -/
theorem decodeRequest_of_reserved {r : Record} (h : 0x10 ≤ (opField r).toNat) :
    decodeRequest r = .reservedOp (opField r) := by
  unfold decodeRequest
  split
  case h_17 => rfl
  all_goals omega

theorem decodeRequest_makeRecord_of_reserved {op : Byte} (h : 0x10 ≤ op.toNat) (a n arg buf : Word) :
    decodeRequest (makeRecord op a n arg buf) = .reservedOp op := by
  rw [decodeRequest_of_reserved (by rwa [opField_makeRecord]), opField_makeRecord]

/-- The record written for a request is read as that request. -/
theorem decodeRequest_encodeRequest {i : Instr} {r : Record} (hwf : i.wellFormed = true)
    (hr : encodeRequest i = some r) : decodeRequest r = i := by
  cases i with
  | reservedOp op =>
    obtain rfl := Option.some.inj hr
    exact decodeRequest_makeRecord_of_reserved (of_decide_eq_true hwf) ..
  | init | identify | validate | readStatus | readConfig | writeStatus | waitWrite | writeEnable | sectorErase | blockErase
  | chipErase | resetDevice | deepPowerDown | wake | readData | writeData =>
    obtain rfl := Option.some.inj hr
    simp [decodeRequest, BitVec.extractLsb'_setWidth_of_le]
  | _ => cases hr

/-- Settles O2: the fields are where `makeRecord` puts them, and `decodeRequest` reads nothing else. -/
theorem requestRecordMeaning : Obligations.RequestRecordMeaning := by
  refine ⟨fun op a n arg buf => ⟨?_, ?_, ?_, ?_, ?_⟩, fun r => (makeRecord_fields r).symm, fun a n arg buf => ?_⟩
  · exact opField_makeRecord ..
  · exact addrField_makeRecord ..
  · exact lenField_makeRecord ..
  · exact argField_makeRecord ..
  · exact bufField_makeRecord ..
  refine ⟨?_, ?_, ?_, ?_, ?_, ?_, ?_, ?_, ?_, ?_, ?_, ?_, ?_, ?_, ?_, ?_,
    fun _ hop => decodeRequest_makeRecord_of_reserved hop a n arg buf⟩
  all_goals simp [decodeRequest]

/-- Settles O18: a reserved code spells no operation (`decodeRequest_of_reserved`), and its only effect is the fault. -/
theorem reservedCodeFaults : Obligations.ReservedCodeFaults := by
  intro r s hop hs
  have hdecode := decodeRequest_of_reserved hop
  refine ⟨hdecode, ?_⟩
  rw [hdecode]
  exact acceptAny_of_waiting hs fun s => s.raiseFault .undefinedOp

end Sys2Proof.Machine
end

section
/-! SPI frames: which byte sequences spell a frame, and that the decoder reads exactly those (R65 to R70). -/

namespace Sys2Proof.Machine

/-! ### The formats of R67, each read exactly -/

section
variable {c : Byte} {rest : List Byte} {i : Instr}

theorem frameOf_eq_ok_iff {k : Nat} {j : Instr} : frameOf c k rest j = .ok i ↔ rest.length = k ∧ j = i := by
  unfold frameOf
  split <;> simp [*]

theorem frameA3_eq_ok_iff {f : Addr24 → Instr} : frameA3 c rest f = .ok i ↔ ∃ a, rest = addrBytes3 a ∧ f a = i := by
  constructor
  · intro h
    unfold frameA3 at h
    split at h
    · exact ⟨_, (addrBytes3_join _ _ _).symm, Except.ok.inj h⟩
    · cases h
  · rintro ⟨a, rfl, rfl⟩
    exact congrArg (fun x => Except.ok (f x)) (join_addrBytes3 a)

theorem frameA4_eq_ok_iff {f : Word → Instr} : frameA4 c rest f = .ok i ↔ ∃ a, rest = addrBytes4 a ∧ f a = i := by
  constructor
  · intro h
    unfold frameA4 at h
    split at h
    · exact ⟨_, (addrBytes4_join _ _ _ _).symm, Except.ok.inj h⟩
    · cases h
  · rintro ⟨a, rfl, rfl⟩
    exact congrArg (fun x => Except.ok (f x)) (join_addrBytes4 a)

theorem frameData_eq_ok_iff {f : Word → Instr} :
    frameData c rest f = .ok i ↔ ∃ n : Word, rest.length = n.toNat ∧ 1 ≤ n.toNat ∧ f n = i := by
  unfold frameData
  constructor
  · intro h
    split at h
    · next hlen =>
      have hn : rest.length = (BitVec.ofNat 32 rest.length).toNat := (Nat.mod_eq_of_lt hlen.2).symm
      exact ⟨_, hn, hn ▸ hlen.1, Except.ok.inj h⟩
    · cases h
  · rintro ⟨n, hlen, hn, rfl⟩
    rw [hlen, if_pos ⟨hn, n.isLt⟩, BitVec.ofNat_toNat, BitVec.setWidth_eq]

theorem frameD3_eq_ok_iff {f : Addr24 → Word → Instr} : frameD3 c rest f = .ok i ↔
    ∃ a n data, rest = addrBytes3 a ++ data ∧ data.length = n.toNat ∧ 1 ≤ n.toNat ∧ f a n = i := by
  constructor
  · intro h
    unfold frameD3 at h
    split at h
    · next x y z data =>
      obtain ⟨n, hn⟩ := frameData_eq_ok_iff.1 h
      exact ⟨_, n, data, congrArg (· ++ data) (addrBytes3_join x y z).symm, hn⟩
    · cases h
  · rintro ⟨a, n, data, rfl, hn⟩
    refine Eq.trans ?_ (frameData_eq_ok_iff (c := c).2 ⟨n, hn⟩)
    exact congrArg (fun x => frameData c data (f x)) (join_addrBytes3 a)

theorem frameD4_eq_ok_iff {f : Word → Word → Instr} : frameD4 c rest f = .ok i ↔
    ∃ a n data, rest = addrBytes4 a ++ data ∧ data.length = n.toNat ∧ 1 ≤ n.toNat ∧ f a n = i := by
  constructor
  · intro h
    unfold frameD4 at h
    split at h
    · next x y z w data =>
      obtain ⟨n, hn⟩ := frameData_eq_ok_iff.1 h
      exact ⟨_, n, data, congrArg (· ++ data) (addrBytes4_join x y z w).symm, hn⟩
    · cases h
  · rintro ⟨a, n, data, rfl, hn⟩
    refine Eq.trans ?_ (frameData_eq_ok_iff (c := c).2 ⟨n, hn⟩)
    exact congrArg (fun x => frameData c data (f x)) (join_addrBytes4 a)

end

/-! ### The byte sequences that spell a frame -/

/-- A well-formed frame as a byte sequence: its header, then as many bytes as its payload has positions (R67, R68). -/
structure Spells (ws : Byte) (i : Instr) (bytes : List Byte) : Prop where
  isFrame : i.isFrame = true
  wellFormed : i.wellFormed = true
  wire : ∃ data, bytes = frameHeader ws i ++ data ∧ data.length = (framePayload i).length

/-- The sequencer decides no position of the payload (R67). -/
theorem onWire_of_mem_framePayload {i : Instr} {x : Slot} (h : x ∈ framePayload i) (fill : Nat → Byte) (k : Nat) :
    x.onWire fill k = fill k := by
  cases i with
  | spiIdentify | spiReadStatus | spiReadConfig =>
    obtain rfl : x = .dc := by simpa [framePayload] using h
    rfl
  | spiRead3 | spiRead4 =>
    obtain rfl := List.eq_of_mem_replicate h
    rfl
  | spiProgram3 | spiProgram4 =>
    obtain ⟨j, -, rfl⟩ := List.mem_map.1 h
    rfl
  | _ => cases h

/-- A frame on the wire: its header, then whatever the wire carries. -/
theorem onWire_encodeFrame (ws : Byte) (i : Instr) (fill : Nat → Byte) :
    (encodeFrame ws i).mapIdx (Slot.onWire fill)
      = frameHeader ws i ++ (framePayload i).mapIdx fun k _ => fill (k + (frameHeader ws i).length) := by
  rw [encodeFrame, List.mapIdx_append, List.length_map]
  congr 1
  · exact List.ext_getElem (by simp) (by simp [Slot.onWire])
  · refine List.ext_getElem (by simp) fun k hk _ => ?_
    simp [onWire_of_mem_framePayload (List.getElem_mem _)]

theorem spells_onWire {ws : Byte} {i : Instr} (hf : i.isFrame = true) (hwf : i.wellFormed = true)
    (fill : Nat → Byte) : Spells ws i ((encodeFrame ws i).mapIdx (Slot.onWire fill)) :=
  ⟨hf, hwf, _, onWire_encodeFrame ws i fill, List.length_mapIdx⟩

/-- A byte sequence that spells a frame is the frame's encoding, the undecided positions filled from the sequence itself. -/
theorem Spells.eq_onWire {ws : Byte} {i : Instr} {bytes : List Byte} (h : Spells ws i bytes) :
    bytes = (encodeFrame ws i).mapIdx (Slot.onWire fun k => bytes.getD k 0) := by
  obtain ⟨-, -, data, rfl, hlen⟩ := h
  rw [onWire_encodeFrame]
  congr 1
  refine List.ext_getElem (by simpa using hlen) fun k hk _ => ?_
  simp [List.getElem?_append_right, hk]

/-! ### The decoder reads exactly these -/

/-- Whatever is read from the bytes is spelled by them. -/
def ReadsSpelled (ws : Byte) (bytes : List Byte) (e : Except DecodeError Instr) : Prop :=
  ∀ i, e = .ok i → Spells ws i bytes

namespace ReadsSpelled

section
variable {ws c x : Byte} {bytes rest : List Byte}

theorem error (e : DecodeError) : ReadsSpelled ws bytes (.error e) := nofun

theorem ite {e e' : Except DecodeError Instr} (he : c = x → ReadsSpelled ws bytes e) (he' : ReadsSpelled ws bytes e') :
    ReadsSpelled ws bytes (if c = x then e else e') := by
  split
  · exact he ‹_›
  · exact he'

theorem frameOf {k : Nat} {j : Instr} (hj : ∀ data, data.length = k → Spells ws j (x :: data)) (hc : c = x) :
    ReadsSpelled ws (c :: rest) (frameOf c k rest j) := by
  intro i h
  obtain ⟨hlen, rfl⟩ := frameOf_eq_ok_iff.1 h
  exact hc ▸ hj rest hlen

theorem frameA3 {f : Addr24 → Instr} (hf : ∀ a, Spells ws (f a) (x :: addrBytes3 a)) (hc : c = x) :
    ReadsSpelled ws (c :: rest) (frameA3 c rest f) := by
  intro i h
  obtain ⟨a, rfl, rfl⟩ := frameA3_eq_ok_iff.1 h
  exact hc ▸ hf a

theorem frameA4 {f : Word → Instr} (hf : ∀ a, Spells ws (f a) (x :: addrBytes4 a)) (hc : c = x) :
    ReadsSpelled ws (c :: rest) (frameA4 c rest f) := by
  intro i h
  obtain ⟨a, rfl, rfl⟩ := frameA4_eq_ok_iff.1 h
  exact hc ▸ hf a

theorem frameD3 {f : Addr24 → Word → Instr} (hf : ∀ a (n : Word) data, data.length = n.toNat → 1 ≤ n.toNat →
    Spells ws (f a n) (x :: (addrBytes3 a ++ data))) (hc : c = x) : ReadsSpelled ws (c :: rest) (frameD3 c rest f) := by
  intro i h
  obtain ⟨a, n, data, rfl, hlen, hn, rfl⟩ := frameD3_eq_ok_iff.1 h
  exact hc ▸ hf a n data hlen hn

theorem frameD4 {f : Word → Word → Instr} (hf : ∀ a (n : Word) data, data.length = n.toNat → 1 ≤ n.toNat →
    Spells ws (f a n) (x :: (addrBytes4 a ++ data))) (hc : c = x) : ReadsSpelled ws (c :: rest) (frameD4 c rest f) := by
  intro i h
  obtain ⟨a, n, data, rfl, hlen, hn, rfl⟩ := frameD4_eq_ok_iff.1 h
  exact hc ▸ hf a n data hlen hn

end

/-- The commands of R69 in `decodeFrame`'s order. -/
theorem decodeFrame (ws : Byte) (bytes : List Byte) : ReadsSpelled ws bytes (decodeFrame ws bytes) := by
  cases bytes with
  | nil => exact error _
  | cons c rest =>
    iterate 3 refine ite (frameOf fun data hlen => ⟨rfl, rfl, data, rfl, hlen⟩) ?_
    iterate 2
      refine ite (frameD3 fun _ _ data hlen hn => ⟨rfl, decide_eq_true hn, data, rfl, by simpa [framePayload]⟩) ?_
      refine ite (frameD4 fun _ _ data hlen hn => ⟨rfl, decide_eq_true hn, data, rfl, by simpa [framePayload]⟩) ?_
    iterate 2
      refine ite (frameA3 fun _ => ⟨rfl, rfl, [], rfl, rfl⟩) ?_
      refine ite (frameA4 fun _ => ⟨rfl, rfl, [], rfl, rfl⟩) ?_
    iterate 6 refine ite (frameOf fun data hlen => ⟨rfl, rfl, data, rfl, hlen⟩) ?_
    refine ite (fun hc => ?_) (error _)
    split
    · rintro _ ⟨⟩
      exact hc ▸ ⟨rfl, rfl, [], rfl, rfl⟩
    · exact error _

end ReadsSpelled

/-- What a byte sequence spells is what the decoder reads, `CMD_WRITE_STATUS` being no other command's byte. The `c` of an
address format only names its error, so any byte does there. -/
theorem decodeFrame_of_spells {ws : Byte} {bytes : List Byte} {i : Instr} (hws : ws ∉ fixedCommands)
    (h : Spells ws i bytes) : decodeFrame ws bytes = .ok i := by
  obtain ⟨hf, hwf, data, rfl, hlen⟩ := h
  cases i with
  | spiIdentify | spiReadStatus | spiReadConfig | spiChipErase | spiWriteEnable | spiResetEnable | spiReset | spiPowerDown
  | spiReleasePowerDown => exact frameOf_eq_ok_iff.2 ⟨hlen, rfl⟩
  | spiSectorErase3 a | spiBlockErase3 a =>
    obtain rfl := List.length_eq_zero_iff.1 hlen
    exact (frameA3_eq_ok_iff (c := 0)).2 ⟨a, rfl, rfl⟩
  | spiSectorErase4 a | spiBlockErase4 a =>
    obtain rfl := List.length_eq_zero_iff.1 hlen
    exact (frameA4_eq_ok_iff (c := 0)).2 ⟨a, rfl, rfl⟩
  | spiRead3 a n | spiProgram3 a n =>
    exact frameD3_eq_ok_iff.2 ⟨a, n, data, rfl, by simpa [framePayload] using hlen, of_decide_eq_true hwf, rfl⟩
  | spiRead4 a n | spiProgram4 a n =>
    exact frameD4_eq_ok_iff.2 ⟨a, n, data, rfl, by simpa [framePayload] using hlen, of_decide_eq_true hwf, rfl⟩
  | spiWriteStatus v =>
    obtain rfl := List.length_eq_zero_iff.1 hlen
    simp only [fixedCommands, List.mem_cons, List.not_mem_nil, not_or] at hws
    simp only [frameHeader, List.append_nil, decodeFrame, hws, if_false, if_true]
  | _ => cases hf

/-! ### The two encodings together -/

theorem isFrame_of_encodeRequest_eq_none {i : Instr} (h : encodeRequest i = none) : i.isFrame = true := by
  cases i with
  | init | identify | validate | readStatus | readConfig | writeStatus | waitWrite | writeEnable | sectorErase | blockErase
  | chipErase | resetDevice | deepPowerDown | wake | readData | writeData | reservedOp => cases h
  | _ => rfl

/-- Settles O1: a request by its record (`decodeRequest_encodeRequest`), a frame by what its encoding spells. -/
theorem decodeEncodeAgree : Obligations.DecodeEncodeAgree := by
  intro ws fill i hws hwf
  unfold encode
  split
  next r hr => exact congrArg Except.ok (decodeRequest_encodeRequest hwf hr)
  next hr => exact decodeFrame_of_spells hws (spells_onWire (isFrame_of_encodeRequest_eq_none hr) hwf fill)

/-- Settles O3: the decoder reads only what the bytes spell, and that is the frame's encoding. -/
theorem frameDecodingIsExact : Obligations.FrameDecodingIsExact := by
  intro ws bytes i h
  have hs := ReadsSpelled.decodeFrame ws bytes i h
  exact ⟨hs.isFrame, hs.wellFormed, hs.eq_onWire⟩

/-- Settles O4, by running the decoders. -/
theorem knownWordsDecode : Obligations.KnownWordsDecode := by
  unfold Obligations.KnownWordsDecode
  decide

end Sys2Proof.Machine
end

section
/-! Address fields, the variant the addressing mode selects, the command byte of every frame, and the response field (R66, R70,
R75, R84). -/

namespace Sys2Proof.Machine

/-! ### The address field (R66) -/

/-- In 3-byte mode only the low 24 bits of the address are sent. -/
theorem addrBytes_of_eq_three {c : Cfg} (h : c.addrBytes = 3) (a : Word) : addrBytes c a = addrBytes3 (low24 a) := if_pos h

theorem addrBytes_of_ne_three {c : Cfg} (h : c.addrBytes ≠ 3) (a : Word) : addrBytes c a = addrBytes4 a := if_neg h

theorem addrBytes3_low24 (a : Word) :
    addrBytes3 (low24 a) = [a.extractLsb' 16 8, a.extractLsb' 8 8, a.extractLsb' 0 8] := by
  simp [addrBytes3, low24, BitVec.extractLsb'_extractLsb'_of_le]

/-- A well-formed configuration's address field is as long as its mode says. -/
theorem length_addrBytes {c : Cfg} (h : cfgOk c = true) (a : Word) : (addrBytes c a).length = c.addrBytes := by
  rcases mode_cases h with h3 | h4
  · rw [addrBytes_of_eq_three h3, h3]
    rfl
  · rw [addrBytes_of_ne_three (by omega), h4]
    rfl

/-- Settles O5, by mode; two addresses that agree in bits 23 to 0 have the same `low24`. -/
theorem addressFieldBytes : Obligations.AddressFieldBytes := by
  intro c a
  refine ⟨fun h3 => ?_, fun h4 => addrBytes_of_ne_three h4 a, fun b h3 hlow => ?_⟩
  · rw [addrBytes_of_eq_three h3, addrBytes3_low24]
  · rw [addrBytes_of_eq_three h3, addrBytes_of_eq_three h3]
    exact congrArg addrBytes3 hlow

/-! ### The frames a mode selects (R70) -/

/-- A frame of `n` bytes after the command `b` and the address field is `1 + ADDR_BYTES + n` bytes long. -/
theorem length_encodeFrame_addressed {c : Cfg} (hok : cfgOk c = true) {ws b : Byte} {a : Word} {f : Instr}
    (hh : frameHeader ws f = b :: addrBytes c a) :
    (encodeFrame ws f).length = 1 + c.addrBytes + (framePayload f).length := by
  rw [encodeFrame, List.length_append, List.length_map, hh, List.length_cons, length_addrBytes hok, Nat.add_comm 1]

/-- An erase frame has no payload (R105, R106). -/
theorem isFrame_of_eraseFrame {c : Cfg} {k : EraseKind} {a : Word} {f : Instr} (h : eraseFrame c k a = some f) :
    f.isFrame = true ∧ framePayload f = [] := by
  unfold eraseFrame at h
  split_ifs at h <;> cases k <;> cases h <;> exact ⟨rfl, rfl⟩

/-- A read frame's payload is the chunk it receives (R116). -/
theorem isFrame_of_readFrame {c : Cfg} {a n : Word} {f : Instr} (h : readFrame c a n = some f) :
    f.isFrame = true ∧ (framePayload f).length = n.toNat := by
  rcases readFrame_eq_some h with rfl | rfl <;> exact ⟨rfl, List.length_replicate⟩

/-- A page-program frame's payload is the chunk it sends (R118). -/
theorem isFrame_of_programFrame {c : Cfg} {a n : Word} {f : Instr} (h : programFrame c a n = some f) :
    f.isFrame = true ∧ (framePayload f).length = n.toNat := by
  rcases programFrame_eq_some h with rfl | rfl <;> exact ⟨rfl, by simp [framePayload]⟩

/-- Settles O6: the header is the mode's command and address field (R70), the payload adds the data bytes. -/
theorem modeSelectsVariant : Obligations.ModeSelectsVariant := by
  intro c ws a n hok
  have herase (k : EraseKind) : ∃ f, eraseFrame c k a = some f ∧ f.isFrame = true
      ∧ frameHeader ws f = (match k with | .sector => Code.cmdSector c | .block => Code.cmdBlock c) :: addrBytes c a
      ∧ (encodeFrame ws f).length = 1 + c.addrBytes := by
    obtain ⟨f, hsome, hh, -⟩ := addrBytes_header_erase c hok k a ws
    obtain ⟨hf, hp⟩ := isFrame_of_eraseFrame hsome
    exact ⟨f, hsome, hf, hh, by rw [length_encodeFrame_addressed hok hh, hp]; rfl⟩
  refine ⟨herase .sector, herase .block, ?_, ?_⟩
  · obtain ⟨f, hsome, hh, -⟩ := addrBytes_header_read c hok a n ws
    obtain ⟨hf, hp⟩ := isFrame_of_readFrame hsome
    exact ⟨f, hsome, hf, hh, by rw [length_encodeFrame_addressed hok hh, hp]⟩
  · obtain ⟨f, hsome, hh, -⟩ := addrBytes_header_program c hok a n ws
    obtain ⟨hf, hp⟩ := isFrame_of_programFrame hsome
    exact ⟨f, hsome, hf, hh, by rw [length_encodeFrame_addressed hok hh, hp]⟩

/-! ### The first byte of a frame (R75) -/

/-- After `CS_LOW` a frame is open and nothing has been sent. -/
theorem traceStep_csLow {c : Cfg} {p : Params} {b b' : Bracket} (h : traceStep c p b .csLow = some b') : b' = .opened := by
  simp only [traceStep] at h
  split_ifs at h <;> exact (Option.some.inj h).symm

/-- The first byte of an open frame is a command of R69. -/
theorem traceStep_opened_xfer {c : Cfg} {p : Params} {t : TxByte} {r : Byte} {b' : Bracket}
    (h : traceStep c p .opened (.xfer t r) = some b') : ∃ x, t = .byte x ∧ x ∈ commandBytes p := by
  cases t with
  | byte x =>
    by_cases hx : x ∈ commandBytes p
    · exact ⟨x, rfl, hx⟩
    · simp [traceStep, hx] at h
  | dc => cases h

/-- Settles O57: the invariant brackets the trace, and a bracketed frame opens with a command. -/
theorem framesBeginWithCommands : Obligations.FramesBeginWithCommands := by
  intro s pre post b r hinv htrace
  obtain ⟨-, b', htr, -⟩ := hinv
  rw [htrace] at htr
  obtain ⟨b1, b2, -, hlow, hrest⟩ := traceBracket_split htr
  obtain rfl := traceStep_csLow hlow
  obtain ⟨b3, hxfer, -⟩ := Option.bind_eq_some_iff.1 hrest
  exact traceStep_opened_xfer hxfer

/-! ### The response field (R84) -/

/-- Settles O7: a status byte is below 2^24, so its 24-bit field is the byte itself. -/
theorem responseFieldBits : Obligations.ResponseFieldBits := by
  refine ⟨rfl, fun _ => rfl, fun _ => rfl, fun v => ?_⟩
  have hv : v.toNat < 2 ^ 24 := v.isLt.trans (by decide)
  exact (BitVec.toNat_setWidth 24 v).trans (Nat.mod_eq_of_lt hv)

end Sys2Proof.Machine
end

section
/-! INIT run to its response (R92), how a frame opens and what its opening leaves alone (R87, R94), and the rules of the bus
transaction over every trace: who applies the settings, the bracketing by chip-select, and the set-up of a shared bus
(R89, R90, R93). -/

namespace Sys2Proof.Machine

/-! ### INIT -/

/-- Settles O24: the checks of R92 let INIT start, `init_reaches` runs it, and what it leaves alone is
`requestLeavesTheRest`. -/
theorem initCompletes : Obligations.InitCompletes := by
  intro s hw hmode hpage hpow
  have hok : accepts s.cfg .init = true := by
    simpa [accepts, cfgOk, isPowerOfTwo, hmode] using And.intro hpage hpow
  have hx := exec_of_accepts (hw.symm.imp_right (⟨·, rfl⟩)) hok
  have hreach := init_reaches (s := s.startRequest .init (requestOps .init)) rfl
  obtain ⟨hcfg, hpar, hfault, henv, -, hregs, hmem, -⟩ := requestLeavesTheRest .init s _ _ rfl hx hreach nofun
  refine ⟨_, _, hx, hreach, ⟨rfl, rfl, rfl, ?_, rfl, ?_, hfault, hregs, hcfg, hpar, henv⟩, ?_, hmem nofun⟩
  all_goals cases hsh : s.cfg.shared <;> simp [hsh]

/-! ### A frame opens -/

/-- Settles O45: a plain frame opens at once, a data frame once its chunk is found in the buffer range; either way
`openFrame_opens` says how. -/
theorem frameOpens : Obligations.FrameOpens := by
  intro i s d rest hf hb hc hpc hp
  have hopens := openFrame_opens hb hc d i rest
  rw [State.setPc_of_pc hpc] at hopens
  cases hplain : plainFrame i with
  | true => rw [exec_plainFrame hplain s d, hopens]
  | false =>
    obtain ⟨hbuffer, -⟩ := chunkBuffer_of_dataPlaced hp hplain
    rw [exec_dataFrame hf hplain, hbuffer]
    exact hopens

/-- A frame pushes its exchanges before what is left at `pc`, nothing when `pc` is empty. -/
theorem exec_frame_setPc_getD {i : Instr} (hf : i.isFrame = true) (s : State) :
    exec i (s.setPc (s.pc.getD [])) = exec i s := by
  have hopen (ops : List Micro) : openFrame (s.setPc (s.pc.getD [])) ops = openFrame s ops := rfl
  cases hplain : plainFrame i with
  | true =>
    rw [exec_plainFrame hplain _ 0, exec_plainFrame hplain s 0]
    exact hopen _
  | false =>
    rw [exec_dataFrame hf hplain, exec_dataFrame hf hplain, chunkBuffer_setPc]
    exact congrArg _ (funext fun _ => hopen _)

/-- Settles O48: a frame goes on only from `BUSY` (`frameStops`) and only to `openedFrame`, which changes the trace,
chip-select, the transport and `pc`. -/
theorem frameOpeningFrame : Obligations.FrameOpeningFrame := by
  intro i s t hf hx
  have hb : s.seqState = .busy := by
    by_contra hn
    obtain ⟨-, -, -, -, hstop⟩ := frameStops i s hf
    obtain ⟨f, hfault⟩ := hstop (.inl hn)
    cases hfault.symm.trans hx
  obtain ⟨-, d, -, rfl⟩ := openedFrame_of_exec hf ((exec_frame_setPc_getD hf s).trans hx)
  unfold openedFrame
  split
  all_goals exact ⟨rfl, rfl, rfl, hb, rfl, rfl, rfl, rfl, rfl, fun _ => rfl, fun _ => rfl, fun _ => rfl⟩

/-! ### Who applies the bus settings (R90) -/

section
variable {s t : State} {p : Prim} {rest : List Micro} {new : List Event} {x : BusSettings}

/-- A primitive records one event at most, and an `APPLY` only as INIT's `ApplyBus`. -/
theorem PrimStep.records (h : PrimStep s rest p t) : t.trace = s.trace
    ∨ ∃ e, t.trace = s.trace ++ [e] ∧ ∀ x, e = .apply x → p = .applyIfExclusive ∧ x = s.cfg.bus := by
  cases h with
  | applyShared | dataInEnd | dataOutEnd | dropLocal | setReg | waitBegin | pollIdle | pollBusy | nextChunk | advance
  | loopEnd | loopTurn => exact .inl rfl
  | applyOwn => exact .inr ⟨_, rfl, fun _ hx => ⟨rfl, (Event.apply.inj hx).symm⟩⟩
  | delay d =>
    rw [State.setPc_trace, State.delayUs_trace]
    split
    · exact .inl (List.append_nil _)
    · exact .inr ⟨_, rfl, nofun⟩
  | csAssert | csDeassert | dataIn | storeIn | dataOut | readStart | clockPast | clockBefore | respond =>
    exact .inr ⟨_, rfl, nofun⟩
  | xfer x rx => exact .inr ⟨_, State.xferTo_trace s x rx, nofun⟩
  | pollPause v hv =>
    refine .inr ⟨_, rfl, fun x hx => ?_⟩
    unfold pauseEvent at hx
    split at hx <;> cases hx

/-- On an exclusive bus opening a frame records `CS_LOW` alone. -/
theorem openedFrame_trace_exclusive (h : s.cfg.shared = false) (d : Nat) (i : Instr) (rest : List Micro) :
    (openedFrame s d i rest).trace = s.trace ++ [.csLow] := by
  rw [openedFrame_exclusive h]
  rfl

/-- On an exclusive bus the sequencer's own step records an `APPLY` only as INIT's. -/
theorem Inv.seqStep_apply (h : Inv s) (hsh : s.cfg.shared = false) (hs : seqStep s = .next t)
    (htr : t.trace = s.trace ++ new) (hx : .apply x ∈ new) :
    s.seqState = .busy ∧ s.current = some .init ∧ x = s.cfg.bus := by
  rcases busy_or_eq_of_seqStep hs with hb | rfl
  · obtain ⟨b, i, rest, ⟨p, hr, hp⟩ | ⟨c, f, hr, hf, hx'⟩⟩ := h.busyStep hb hs
    · rcases hp.records with hsame | ⟨e, he, happly⟩
      · exact absurd hx (by simp [List.self_eq_append_right.1 (hsame.symm.trans htr)])
      · obtain rfl := List.append_cancel_left (he.symm.trans htr)
        obtain ⟨rfl, hbus⟩ := happly x (List.mem_singleton.1 hx).symm
        obtain ⟨rfl, -⟩ := hr.init_of_apply
        exact ⟨hb, hr.current, hbus⟩
    · obtain ⟨-, d, -, rfl⟩ := openedFrame_of_exec (hr.isFrame hf) hx'
      rw [openedFrame_trace_exclusive hsh] at htr
      obtain rfl := List.append_cancel_left htr
      simp at hx
  · simp [List.self_eq_append_right.1 htr] at hx

/-- Taking a request records its arrival and at most a fault, no `APPLY` (R34, R123). -/
theorem takeRequest_apply {r : Record} (hs : s.seqState ≠ .faulted) (h : takeRequest r s = .next t)
    (htr : t.trace = s.trace ++ new) : .apply x ∉ new := by
  rcases exec_request_cases (decodeRequest_isFrame r) (s := s.record (.req r)) hs with ⟨c, hx⟩ | ⟨hx, -⟩
  · obtain rfl := Host.Outcome.next.inj (hx.symm.trans h)
    obtain rfl : [.req r, .fault c.code] = new := List.append_cancel_left ((List.append_assoc ..).symm.trans htr)
    simp
  · obtain rfl := Host.Outcome.next.inj (hx.symm.trans h)
    obtain rfl : [.req r] = new := List.append_cancel_left htr
    simp

end

/-- Settles O54: of the steps of `step_cases` only the sequencer's own can record an `APPLY`, and on an exclusive bus that is
INIT's. -/
theorem exclusiveBusAppliesOnlyInInit : Obligations.ExclusiveBusAppliesOnlyInInit := by
  intro s t new x h hsh hs htr hx
  have hf := not_faulted_of_step hs
  have hsame {u : State} (hu : step s = .next u) (htu : u.trace = s.trace) : .apply x ∉ new := by
    obtain rfl := Host.Outcome.next.inj (hu.symm.trans hs)
    simp [List.self_eq_append_right.1 (htu.symm.trans htr)]
  rcases step_cases hf with ⟨e, hx'⟩ | ⟨r, e, -, hx'⟩ | ⟨a, v, e, -, -, hx'⟩ | ⟨y, e, -, -, -, hx'⟩ | ⟨y, e, -, hx'⟩
  · exact Inv.seqStep_apply (s := { s with env := e }) h hsh (hx'.symm.trans hs) htr hx
  · exact absurd hx (takeRequest_apply (s := { s with env := e }) hf (hx'.symm.trans hs) htr)
  · exact absurd hx (hsame hx' rfl)
  · exact absurd hx (hsame hx' rfl)
  · exact absurd hx (hsame hx' rfl)

/-! ### What a bracketed trace tells (R89, R93) -/

section
variable {c : Cfg} {p : Params} {b b' : Bracket} {e : Event} {l : List Event}

/-- What holds of the empty trace, and is kept by every event that stands where it may, holds of the whole trace at the
bracket it leads to. -/
theorem traceBracket_induction {P : Bracket → List Event → Prop} (hnil : P b [])
    (hsnoc : ∀ b1 b2 e l, P b1 l → traceStep c p b1 e = some b2 → P b2 (l ++ [e]))
    (h : traceBracket c p b l = some b') : P b' l := by
  induction l using List.reverseRecOn generalizing b' with
  | nil => exact Option.some.inj h ▸ hnil
  | append_singleton l e ih =>
    obtain ⟨b1, b2, hl, he, hend⟩ := traceBracket_split h
    exact Option.some.inj hend ▸ hsnoc b1 b2 e l (ih hl) he

/-- `CS_LOW` is recorded from `CS = HIGH`, on a shared bus once it is set up (R89, R93). -/
theorem traceStep_csLow_from (h : traceStep c p b .csLow = some b') : b = if c.shared then .settled else .closed := by
  simp only [traceStep] at h
  split at h
  all_goals
    obtain ⟨rfl, -⟩ := Option.ite_none_right_eq_some.1 h
    simp [*]

/-- Bytes are exchanged inside a frame (R89). -/
theorem traceStep_xfer {x : TxByte} {r : Byte} (h : traceStep c p b (.xfer x r) = some b') :
    (b = .opened ∨ b = .sending) ∧ b' = .sending := by
  have hsending (h : (if b = .sending then some Bracket.sending else none) = some b') :
      (b = .opened ∨ b = .sending) ∧ b' = .sending :=
    (Option.ite_none_right_eq_some.1 h).imp .inr fun h => (Option.some.inj h).symm
  cases x with
  | dc => exact hsending h
  | byte x =>
    simp only [traceStep] at h
    split at h
    · exact ⟨.inl ‹_›, (Option.some.inj (Option.ite_none_right_eq_some.1 h).2).symm⟩
    · exact hsending h

/-- Between frames the settings applied are this device's, and on a shared bus the settle delay is then due (R90, R93). -/
theorem traceStep_apply {x : BusSettings} (h : traceStep c p b (.apply x) = some b') :
    x = c.bus ∧ b = .closed ∧ b' = if c.shared then afterApply c else .closed := by
  obtain ⟨hx, h⟩ := Option.ite_none_right_eq_some.1 h
  obtain ⟨hb, h⟩ := Option.ite_none_right_eq_some.1 h
  exact ⟨hx, hb, (Option.some.inj h).symm⟩

/-- A delay is recorded between frames, or is the settle delay that is due (R93). -/
theorem traceStep_delayUs {n : Word} (h : traceStep c p b (.delayUs n) = some b') :
    (b = .closed ∧ b' = .closed) ∨ (b = .applied ∧ n = c.sharedSettleUs ∧ b' = .settled) := by
  simp only [traceStep] at h
  split at h
  · exact .inl ⟨‹_›, (Option.some.inj h).symm⟩
  · obtain ⟨hb, h⟩ := Option.ite_none_right_eq_some.1 h
    obtain ⟨hn, h⟩ := Option.ite_none_right_eq_some.1 h
    exact .inr ⟨hb, hn, (Option.some.inj h).symm⟩

/-- The settings are applied between frames (R87). -/
theorem afterApply_cs (c : Cfg) : (afterApply c).cs = .high := by
  unfold afterApply
  split <;> rfl

/-- The bracket moves with the level of chip-select (R30). -/
theorem cs_of_traceStep (h : traceStep c p b e = some b') : b'.cs = csAfter b.cs e := by
  cases e with
  | req | fault => exact Option.some.inj h ▸ rfl
  | apply x =>
    obtain ⟨-, rfl, rfl⟩ := traceStep_apply h
    split
    · exact afterApply_cs c
    · rfl
  | delayUs n => rcases traceStep_delayUs h with ⟨rfl, rfl⟩ | ⟨rfl, -, rfl⟩ <;> rfl
  | csLow => exact traceStep_csLow h ▸ rfl
  | csHigh =>
    obtain ⟨-, h⟩ := Option.ite_none_right_eq_some.1 h
    exact Option.some.inj h ▸ rfl
  | xfer x r => obtain ⟨rfl | rfl, rfl⟩ := traceStep_xfer h <;> rfl
  | clock | yield | spin | resp | memWrite =>
    obtain ⟨rfl, h⟩ := Option.ite_none_right_eq_some.1 h
    exact Option.some.inj h ▸ rfl

theorem csOf_snoc (l : List Event) (e : Event) : csOf (l ++ [e]) = csAfter (csOf l) e := by
  simp [csOf]

/-- Where a trace leads, chip-select is at the level the trace tells (R30, R89). -/
theorem cs_of_traceBracket (h : traceBracket c p .undriven l = some b) : b.cs = csOf l := by
  refine traceBracket_induction (P := fun b l => b.cs = csOf l) rfl (fun b1 b2 e l hb he => ?_) h
  rw [cs_of_traceStep he, hb, csOf_snoc]

end

/-- Settles O56: where each event stands the bracket is known, and the bracket tells the level (`cs_of_traceBracket`). -/
theorem traceIsBracketed : Obligations.TraceIsBracketed := by
  intro s pre post e h htrace
  obtain ⟨-, b, htr, hcs, -⟩ := h
  refine ⟨?_, ?_, ?_, (cs_of_traceBracket htr).symm.trans hcs⟩
  all_goals
    rw [htrace] at htr
    obtain ⟨b1, b2, hpre, he, -⟩ := traceBracket_split htr
    rw [← cs_of_traceBracket hpre]
  · rintro rfl
    rw [traceStep_csLow_from he]
    split <;> rfl
  · rintro x r rfl
    obtain ⟨rfl | rfl, -⟩ := traceStep_xfer he <;> rfl
  · rintro v rfl
    exact (Option.ite_none_right_eq_some.1 he).1 ▸ rfl

/-! ### The set-up of a shared bus (R93) -/

/-- The trace ends with an application of this device's settings and, since then, just these events of the sequencer's own. -/
def AppliedThen (c : Cfg) (l own : List Event) : Prop :=
  ∃ before between, l = before ++ .apply c.bus :: between ∧ between.filter ownEvent = own

/-- What the trace has done where the settle delay is still due, and where the bus is ready for `CS_LOW`. -/
structure SetUp (c : Cfg) (b : Bracket) (l : List Event) : Prop where
  applied : b = .applied → c.sharedSettleUs ≠ 0 ∧ AppliedThen c l []
  settled : b = .settled → AppliedThen c l (delayEvents c.sharedSettleUs)

section
variable {c : Cfg} {p : Params} {b b' : Bracket} {e : Event} {l own : List Event}

/-- One more event counts when it is the sequencer's own. -/
theorem AppliedThen.snoc (h : AppliedThen c l own) (e : Event) : AppliedThen c (l ++ [e]) (own ++ [e].filter ownEvent) := by
  obtain ⟨before, between, rfl, rfl⟩ := h
  exact ⟨before, between ++ [e], by simp, List.filter_append ..⟩

/-- A request arriving, or the fault that answers it, is no event of the sequencer's own (R31). -/
theorem SetUp.foreign (h : SetUp c b l) (he : ownEvent e = false) : SetUp c b (l ++ [e]) := by
  have hsnoc {own : List Event} (ha : AppliedThen c l own) : AppliedThen c (l ++ [e]) own := by
    simpa [he] using ha.snoc e
  exact ⟨fun hb => (h.applied hb).imp_right hsnoc, fun hb => hsnoc (h.settled hb)⟩

/-- Right after `APPLY` on a shared bus, the settle delay is due or is 0 (R93). -/
theorem setUp_afterApply (c : Cfg) (l : List Event) : SetUp c (afterApply c) (l ++ [.apply c.bus]) := by
  have happlied : AppliedThen c (l ++ [.apply c.bus]) [] := ⟨l, [], rfl, rfl⟩
  unfold afterApply
  split
  · refine ⟨nofun, fun _ => ?_⟩
    rw [delayEvents, if_pos ‹_›]
    exact happlied
  · exact ⟨fun _ => ⟨‹_›, happlied⟩, nofun⟩

/-- Every event that stands where it may keeps the set-up (R93). -/
theorem SetUp.of_traceStep (h : SetUp c b l) (he : traceStep c p b e = some b') : SetUp c b' (l ++ [e]) := by
  cases e with
  | req | fault => exact Option.some.inj he ▸ h.foreign rfl
  | apply x =>
    obtain ⟨rfl, -, rfl⟩ := traceStep_apply he
    split
    · exact setUp_afterApply c l
    · exact ⟨nofun, nofun⟩
  | delayUs n =>
    rcases traceStep_delayUs he with ⟨-, rfl⟩ | ⟨rfl, rfl, rfl⟩
    · exact ⟨nofun, nofun⟩
    · obtain ⟨h0, ha⟩ := h.applied rfl
      refine ⟨nofun, fun _ => ?_⟩
      rw [delayEvents, if_neg h0]
      exact ha.snoc _
  | csLow =>
    obtain rfl := traceStep_csLow he
    exact ⟨nofun, nofun⟩
  | xfer x r =>
    obtain ⟨-, rfl⟩ := traceStep_xfer he
    exact ⟨nofun, nofun⟩
  | csHigh | clock | yield | spin | resp | memWrite =>
    obtain ⟨-, he⟩ := Option.ite_none_right_eq_some.1 he
    obtain rfl := Option.some.inj he
    exact ⟨nofun, nofun⟩

/-- Wherever a trace leads, the bus is set up as that place asks for (R93). -/
theorem setUp_of_traceBracket (h : traceBracket c p .undriven l = some b) : SetUp c b l :=
  traceBracket_induction (P := SetUp c) (b := .undriven) ⟨nofun, nofun⟩ (fun _ _ _ _ hs he => hs.of_traceStep he) h

end

/-- Settles O58: `CS_LOW` on a shared bus stands where the bus is ready, and `SetUp` says what the trace has done there. -/
theorem sharedFramesAreSetUp : Obligations.SharedFramesAreSetUp := by
  intro s pre post h hsh htrace
  obtain ⟨-, b, htr, -⟩ := h
  rw [htrace] at htr
  obtain ⟨b1, b2, hpre, hlow, -⟩ := traceBracket_split htr
  exact (setUp_of_traceBracket hpre).settled (by rw [traceStep_csLow_from hlow, if_pos hsh])

end Sys2Proof.Machine
end

section
/-! The register requests from acceptance to response (R97 to R104): from the state its pseudocode ends in, how any accepted
request completes; then the identification, register, wait and write-enable requests one by one. -/

namespace Sys2Proof.Machine

open Code

/-! ### An accepted request completes -/

/-- The state an accepted request starts in (R27). -/
def requestStart (s : State) (i : Instr) : State := s.startRequest i (requestOps i)

theorem Did.requestStart (s : State) (i : Instr) : Did s (requestStart s i) [] 0 0 :=
  Did.startRequest s i _

section
variable {s v : State} {i : Instr} {fuel j k : Nat} {evs : List Event} {r : Response}

theorem isFrame_of_accepts {c : Cfg} (h : accepts c i = true) : i.isFrame = false := by
  cases i with
  | init | identify | validate | readStatus | readConfig | writeStatus | waitWrite | writeEnable | sectorErase | blockErase
  | chipErase | resetDevice | deepPowerDown | wake | readData | writeData => rfl
  | _ => cases h

/-- A request whose pseudocode ends in a response has completed: it has run there (`request_reaches`), and has left the rest
alone (`requestLeavesTheRest`). -/
theorem request_completes (hstate : s.seqState = .idle ∨ (s.seqState = .uninit ∧ i = .init))
    (hc : i ≠ .init → s.cs = .high) (ha : accepts s.cfg i = true)
    (h : request fuel i (requestStart s i) = some (v.respondWith r)) (hcs : v.cs = .high) (hd : Did s v evs j k) :
    ∃ t, exec i s = .next t ∧ Reaches t (v.respondWith r) ∧ Completed s (v.respondWith r) evs r (writtenBy i)
      ∧ ((∀ a n buf, i ≠ .readData a n buf) → ∀ x, v.mem.read x = s.mem.read x) := by
  have hx := exec_of_accepts hstate ha
  have hreach : Reaches (requestStart s i) (v.respondWith r) := request_reaches (s := requestStart s i) rfl rfl hc ha h
  obtain ⟨hcfg, hpar, hfault, henv, -, hregs, hmem, -⟩ :=
    requestLeavesTheRest i s _ _ (isFrame_of_accepts ha) hx hreach nofun
  refine ⟨_, hx, hreach, ⟨rfl, rfl, rfl, hcs, rfl, ?_, hfault, hregs, hcfg, hpar, henv⟩, hmem⟩
  rw [State.respondWith_trace, hd.trace]

/-- The same in `IDLE`, for a request that stores nothing. -/
theorem storelessRequest_completes (hs : s.seqState = .idle) (hc : s.cs = .high) (ha : accepts s.cfg i = true)
    (hi : ∀ a n buf, i ≠ .readData a n buf)
    (h : request fuel i (requestStart s i) = some (v.respondWith r)) (hcs : v.cs = .high) (hd : Did s v evs j k) :
    ∃ t u, exec i s = .next t ∧ Reaches t u ∧ Completed s u evs r (writtenBy i) ∧ u.regs = v.regs
      ∧ ∀ x, u.mem.read x = s.mem.read x := by
  obtain ⟨t, hx, hr, hdone, hmem⟩ := request_completes (.inl hs) (fun _ => hc) ha h hcs hd
  exact ⟨t, _, hx, hr, hdone, rfl, hmem hi⟩

/-- A request that sends one frame and responds. -/
theorem frameRequest_completes {bs : List Byte} {rx : List RxDest} (hs : s.seqState = .idle) (hc : s.cs = .high)
    (ha : accepts s.cfg i = true) (hi : ∀ a n buf, i ≠ .readData a n buf)
    (h : request 0 i (requestStart s i) = some ((frame bs rx (requestStart s i)).respondWith r)) :
    ∃ t u, exec i s = .next t ∧ Reaches t u
      ∧ Completed s u (frameEvents s 0 (bs.map .byte ++ List.replicate rx.length .dc)) r (writtenBy i)
      ∧ u.regs = (frame bs rx (requestStart s i)).regs ∧ ∀ x, u.mem.read x = s.mem.read x := by
  have hd := Did.requestStart s i
  have hframe := hd.trans (Did.frame bs rx (requestStart s i))
  rw [hd.frameEvents] at hframe
  exact storelessRequest_completes hs hc ha hi h (frame_cs bs rx _) hframe

end

/-! ### The identify value (R49, R72, R74) -/

/-- The first received byte stands on top. -/
theorem identValue_eq_append (a b c : Byte) : identValue a b c = a ++ b ++ c := by
  apply BitVec.eq_of_getLsbD_eq
  intro i hi
  simp only [identValue, BitVec.getLsbD_or, BitVec.getLsbD_shiftLeft, BitVec.getLsbD_setWidth, BitVec.getLsbD_append]
  by_cases hlow : i < 8
  · simp [hi, hlow, show i < 16 by omega]
  rw [BitVec.getLsbD_of_ge c i (by omega)]
  by_cases hmid : i < 16
  · simp [hi, hlow, hmid, show i - 8 < 8 by omega, show i - 8 < 24 by omega]
  · rw [BitVec.getLsbD_of_ge b (i - 8) (by omega)]
    simp [hi, hlow, hmid, show ¬ i - 8 < 8 by omega, show i - 16 < 24 by omega, Nat.sub_sub]

theorem identTop_identValue (a b c : Byte) : identTop (identValue a b c) = a := by
  rw [identValue_eq_append]
  exact (extract_append_high (a ++ b) c 8 8).trans ((extract_append_high a b 0 8).trans (extract_whole a))

/-! ### The requests of one frame (R97 to R100, R103) -/

/-- Settles O25: one identify frame, its three kept bytes the value (`identValue_eq_append`). -/
theorem identifyCompletes : Obligations.IdentifyCompletes := by
  intro s hs hc
  obtain ⟨t, u, hx, hr, hdone, -, hmem⟩ := frameRequest_completes hs hc (i := .identify) rfl nofun rfl
  simp only [identValue_eq_append, (Did.requestStart s .identify).chip, Nat.zero_add] at hdone
  exact ⟨t, u, hx, hr, hdone, hmem⟩

/-- Settles O26: the same frame, of which only the top byte is compared (`identTop_identValue`). -/
theorem validateCompletes : Obligations.ValidateCompletes := by
  intro s hs hc
  obtain ⟨t, u, hx, hr, hdone, -, hmem⟩ := frameRequest_completes hs hc (i := .validate) rfl nofun rfl
  have hd := Did.requestStart s .validate
  simp only [identTop_identValue, hd.chip, hd.cfg, Nat.zero_add] at hdone
  exact ⟨t, u, hx, hr, hdone, hmem⟩

/-- Settles O27: one status read, whose second byte is responded and stands in `S` (`statusRead_regs_s`). -/
theorem readStatusCompletes : Obligations.ReadStatusCompletes := by
  intro s hs hc
  obtain ⟨t, u, hx, hr, hdone, hregs, hmem⟩ := frameRequest_completes hs hc (i := .readStatus) rfl nofun rfl
  have hS := congrArg RegCell.value (statusRead_regs_s (requestStart s .readStatus))
  simp only [(Did.requestStart s .readStatus).chip, Nat.zero_add] at hdone hS
  exact ⟨t, u, hx, hr, hdone, (congrArg (RegCell.value ∘ RegFile.s) hregs).trans hS, hmem⟩

/-- Settles O28: one read-config frame, whose second byte is responded. -/
theorem readConfigCompletes : Obligations.ReadConfigCompletes := by
  intro s hs hc
  obtain ⟨t, u, hx, hr, hdone, -, hmem⟩ := frameRequest_completes hs hc (i := .readConfig) rfl nofun rfl
  simp only [(Did.requestStart s .readConfig).chip, Nat.zero_add] at hdone
  exact ⟨t, u, hx, hr, hdone, hmem⟩

/-- Settles O31: the frame and the settle delay are `WrenSeq`. -/
theorem writeEnableCompletes : Obligations.WriteEnableCompletes := by
  intro s hs hc
  have hd := Did.requestStart s .writeEnable
  have hwren := hd.trans (Did.wren _)
  obtain ⟨-, -, -, hcs⟩ := wren_reaches (s := requestStart s .writeEnable) [] rfl hc
  rw [hd.wrenEvents] at hwren
  obtain ⟨t, u, hx, hr, hdone, -, hmem⟩ := storelessRequest_completes (fuel := 0) hs hc (i := .writeEnable) rfl nofun
    rfl hcs hwren
  exact ⟨t, u, hx, hr, hdone, hmem⟩

/-! ### The requests of one wait (R101, R102) -/

/-- The first wait of an accepted request, told from the state it was accepted in. -/
theorem startedWait_runs {s : State} {p : Span} {w : Timeout} (i : Instr) (hc : s.cs = .high)
    (h : p.ok s (waitTimeout s w) 0 0 = true) :
    ∃ u, wait (p.polls + 1) w (requestStart s i) = some u ∧ u.cs = .high
      ∧ Did s u (p.events s (waitTimeout s w) 0 0) p.bytes p.clocks ∧ p.left s u (waitTimeout s w) 0 0 := by
  have hd := Did.requestStart s i
  obtain ⟨u, hu, -, hcs, -, hdid, hleft⟩ := wait_runs (s := requestStart s i) (p := p) (w := w) rfl hc
    (by rw [hd.spanOk, hd.waitTimeout]; exact h)
  rw [hd.waitTimeout] at hdid hleft
  refine ⟨u, hu, hcs, (hd.trans hdid).cast ?_ (Nat.zero_add _) (Nat.zero_add _), hd.spanLeft hleft⟩
  rw [hd.spanEvents, List.nil_append]

/-- What a wait leaves in `T`, `START` and `S` it leaves in every state with these registers. -/
theorem Span.left.congr {p : Span} {s u v : State} {T : Word} {k j : Nat} (h : p.left s u T k j) (hr : v.regs = u.regs) :
    p.left s v T k j := by
  unfold Span.left
  rw [hr]
  exact h

/-- A frame that keeps no byte leaves the registers. -/
theorem sendFrame_regs (bs : List Byte) (s : State) : (frame bs [] s).regs = s.regs := by
  simp [frame, xferIn]

/-- Settles O29: the wait goes the way `p` (`startedWait_runs`), and the frame after it leaves its registers. -/
theorem writeStatusCompletes : Obligations.WriteStatusCompletes := by
  intro s v p hs hc hp
  obtain ⟨w, hw, -, hd, hleft⟩ := startedWait_runs (.writeStatus v) hc hp
  have hframe := hd.trans (Did.frame [s.par.cmdWriteStatus, v] [] w)
  rw [hd.frameEvents] at hframe
  obtain ⟨t, u, hx, hr, hdone, hregs, hmem⟩ := storelessRequest_completes hs hc (i := .writeStatus v) rfl nofun
    (congrArg (Option.map _) hw) (frame_cs _ _ _) hframe
  exact ⟨t, u, hx, hr, hdone, hleft.congr (hregs.trans (sendFrame_regs _ _)), hmem⟩

/-- Settles O30: the wait goes the way `p` (`startedWait_runs`). -/
theorem waitWriteCompletes : Obligations.WaitWriteCompletes := by
  intro s x p hs hc hp
  obtain ⟨w, hw, hcs, hd, hleft⟩ := startedWait_runs (w := .arg x) (.waitWrite x) hc hp
  obtain ⟨t, u, hx, hr, hdone, hregs, hmem⟩ := storelessRequest_completes hs hc (i := .waitWrite x) rfl nofun
    (congrArg (Option.map _) hw) hcs hd
  obtain ⟨hT, hSTART, hS⟩ := hleft.congr hregs
  rw [Nat.zero_add] at hS
  exact ⟨t, u, hx, hr, hdone, hT, hSTART, hS, hmem⟩

end Sys2Proof.Machine
end

section
/-! How a wait ends (R104): a wait whose clock reaches its timeout goes some way, one that is still polling keeps the sequencer
busy, and so a WAIT_WRITE that has responded has gone one of the two ways. -/

namespace Sys2Proof.Machine

open Code

/-! ### A wait whose clock reaches the timeout ends (R104 (d)) -/

section
variable {s : State} {T start : Word}

/-- Polling from any draw on, one reading that reaches the timeout is enough: the first poll that finds WIP clear, or the
first reading that reaches it, ends the loop. -/
theorem exists_polls {n : Nat} (k j : Nat) (h : T ≤ elapsed (s.clockDraw (j + n)) start) :
    ∃ p : Span, pollsOn s T start k j p.polls = true ∧
      (if p.timedOut then !idleAt s (k + 2 * p.polls) && decide (T ≤ elapsed (s.clockDraw (j + p.polls)) start)
        else idleAt s (k + 2 * p.polls)) = true := by
  induction n generalizing k j with
  | zero =>
    cases hidle : idleAt s k with
    | true => exact ⟨⟨0, false⟩, rfl, hidle⟩
    | false => exact ⟨⟨0, true⟩, rfl, by simpa [hidle] using h⟩
  | succ n ih =>
    cases hidle : idleAt s k with
    | true => exact ⟨⟨0, false⟩, rfl, hidle⟩
    | false =>
      by_cases hle : T ≤ elapsed (s.clockDraw j) start
      · exact ⟨⟨0, true⟩, rfl, by simpa [hidle] using hle⟩
      · obtain ⟨p, hp, hend⟩ := ih (k + 2) (j + 1) (by rwa [Nat.add_right_comm, Nat.add_assoc])
        have hk : k + 2 + 2 * p.polls = k + 2 * (p.polls + 1) := by omega
        have hj : j + 1 + p.polls = j + (p.polls + 1) := by omega
        rw [hk, hj] at hend
        exact ⟨⟨p.polls + 1, p.timedOut⟩, by simpa [pollsOn, hidle, hp] using BitVec.not_le.1 hle, hend⟩

/-- A wait goes some way if one reading after its start reaches its timeout. -/
theorem exists_span {j n : Nat} (k : Nat) (h : T ≤ elapsed (s.clockDraw (j + 1 + n)) (s.clockDraw j)) :
    ∃ p : Span, p.ok s T k j = true := by
  obtain ⟨p, hp, hend⟩ := exists_polls k (j + 1) h
  exact ⟨p, Bool.and_eq_true_iff.2 ⟨hp, hend⟩⟩

/-- What ended a wait: its last status byte, or the last reading (R104 (a)). -/
theorem Span.ending_of_ok {p : Span} {k j : Nat} (h : p.ok s T k j = true) :
    if p.timedOut then
      wip ((s.chipDraw (k + 2 * p.polls + 1)).setWidth 32) = true
        ∧ T ≤ elapsed (s.clockDraw (j + p.clocks - 1)) (s.clockDraw j)
    else wip ((s.chipDraw (k + 2 * p.polls + 1)).setWidth 32) = false := by
  obtain ⟨polls, timedOut⟩ := p
  obtain ⟨-, hend⟩ := Bool.and_eq_true_iff.1 h
  cases timedOut with
  | true =>
    have hlast : j + Span.clocks ⟨polls, true⟩ - 1 = j + 1 + polls := by simp only [Span.clocks, if_true]; omega
    rw [hlast]
    simpa [idleAt_eq] using hend
  | false => simpa [idleAt_eq] using hend

end

/-- Settles O52: the reading gives the wait a way to go (`exists_span`), and `waitWriteCompletes` runs it. -/
theorem waitEndsWhenTheClockAllows : Obligations.WaitEndsWhenTheClockAllows := by
  intro s x k hs hc h
  obtain ⟨p, hp⟩ := exists_span (j := 0) (n := k) 0 (by rwa [Nat.zero_add, Nat.add_comm])
  obtain ⟨t, u, hx, hr, hdone, -⟩ := waitWriteCompletes s x p hs hc hp
  exact ⟨t, u, hx, hr, hdone.seqState, hdone.result, hdone.faultCode⟩

/-! ### Runs that end in `IDLE` -/

section
variable {s t u v : State} {i : Instr} {rest : List Micro}

/-- In `IDLE` the sequencer stays where it is (R142). -/
theorem seqRun_of_idle (h : s.seqState = .idle) (k : Nat) : seqRun k s = .next s := by
  induction k with
  | zero => rfl
  | succ k ih => rw [seqRun, seqStep_of_waiting (.inr h)]; exact ih

theorem seqRun_of_le {j k : Nat} (h : seqRun k s = .next u) (hu : u.seqState = .idle) (hle : k ≤ j) :
    seqRun j s = .next u := by
  obtain ⟨i, rfl⟩ := Nat.exists_eq_add_of_le hle
  rw [seqRun_add k i h, seqRun_of_idle hu]

/-- A run that ends in `IDLE` passes every state the sequencer gets to, or has ended there. -/
theorem Reaches.of_idle (hr : Reaches s u) (hu : u.seqState = .idle) (h : Reaches s t) : Reaches t u := by
  obtain ⟨k, hk⟩ := hr
  obtain ⟨j, hj⟩ := h
  exact ⟨k, (seqRun_add j k hj).symm.trans (seqRun_of_le hk hu (Nat.le_add_left k j))⟩

theorem Reaches.idle_unique (hu : Reaches s u) (hv : Reaches s v) (hu' : u.seqState = .idle) (hv' : v.seqState = .idle) :
    u = v := by
  obtain ⟨k, hk⟩ := hu.of_idle hu' hv
  rw [seqRun_of_idle hv'] at hk
  exact (Host.Outcome.next.inj hk).symm

/-- A request that ends in `IDLE` was accepted: a faulted one stays where it is (R123, R126). -/
theorem accepted_of_reaches_idle (hf : i.isFrame = false) (hx : exec i s = .next t) (hr : Reaches t u)
    (hu : u.seqState = .idle) : t = requestStart s i ∧ Accepted s i := by
  have hs : s.seqState ≠ .faulted := fun hs => by
    rw [exec_request_of_faulted hf hs] at hx
    cases hx
  rcases exec_request_cases hf hs with ⟨c, hc⟩ | ⟨hc, ha⟩ <;> obtain rfl := Host.Outcome.next.inj (hc.symm.trans hx)
  · rw [eq_of_reaches_faulted rfl hr] at hu
    cases hu
  · exact ⟨rfl, ha⟩

/-- A frame that stands before the response could be opened (R89). -/
theorem cs_high_of_reaches_idle (hb : s.seqState = .busy) (hf : i.isFrame = true)
    (hr : Reaches (s.setPc (.frame (.fixed i) :: rest)) u) (hu : u.seqState = .idle) : s.cs = .high := by
  obtain ⟨k, hk⟩ := hr
  have hk := seqRun_of_le hk hu (Nat.le_succ k)
  cases hx : exec i (s.setPc rest) with
  | next t => exact (openedFrame_of_exec hf hx).1
  | fault | refused => simp [seqRun, seqStep_frame hb, frameAt, withValue, hx] at hk

end

/-! ### A wait that is still polling (R102) -/

section
variable {s u : State} {T start : Word} {w : Timeout} {fuel : Nat} (rest : List Micro)

/-- One status read that finds WIP set before the timeout, and round the loop again. -/
theorem pollTurn_runs (hb : s.seqState = .busy) (hc : s.cs = .high) (hT : s.holds .t T) (hstart : s.holds .start start)
    (hwip : wip ((s.chipDraw 1).setWidth 32) = true) (hlt : ¬ T ≤ elapsed ((statusRead s).clockDraw 0) start) :
    ∃ m, seqStep (s.setPc (.frame (.fixed .spiReadStatus) :: .prim .pollTest :: rest)) = .next m
      ∧ Reaches m (((statusRead s).readClock.record (pauseEvent s T)).setPc
          (.frame (.fixed .spiReadStatus) :: .prim .pollTest :: rest)) := by
  obtain ⟨m, hm, hr⟩ := sendFrame_reaches (s := s) (.prim .pollTest :: rest) .spiReadStatus [.status] hb hc
  change Reaches m ((statusRead s).setPc _) at hr
  refine ⟨m, (seqStep_frame hb _ _).trans hm, hr.trans ?_⟩
  have hb1 : (statusRead s).seqState = .busy := (frame_seqState _ _ s).trans hb
  have hS := (statusRead_holds_s s).readReg
  have hT1 := (statusRead_holds hT (by decide)).readReg
  have hstart1 := (statusRead_holds hstart (by decide)).readReg
  have hpar : (statusRead s).par = s.par := (Did.statusRead s).par
  generalize statusRead s = s1 at *
  have hevent : pauseEvent s1.readClock T = pauseEvent s T := by rw [pauseEvent, State.readClock_par, hpar, pauseEvent]
  have htest := (PrimStep.pollBusy (rest := rest) _ hS hwip).execPrim
  have hclock := (PrimStep.clockBefore (rest := rest) _ _ hstart1 hT1 hlt).execPrim
  have hpause := (PrimStep.pollPause (s := s1.readClock) (rest := rest) T hT1).execPrim
  rw [hevent] at hpause
  exact Reaches.prim hb1 htest (Reaches.prim hb1 hclock (Reaches.prim (s := s1.readClock) hb1 hpause (Reaches.refl _)))

/-- While the loop is polling the sequencer is busy: for as many steps as there were status reads, at least. -/
theorem busy_of_pollLoop_none (hb : s.seqState = .busy) (hc : s.cs = .high) (hT : s.holds .t T)
    (hstart : s.holds .start start) (h : pollLoop T start fuel s = none) :
    ∃ j v, fuel ≤ j ∧ seqRun j (s.setPc (.frame (.fixed .spiReadStatus) :: .prim .pollTest :: rest)) = .next v
      ∧ v.seqState = .busy := by
  induction fuel generalizing s with
  | zero => exact ⟨0, _, Nat.le_refl 0, rfl, hb⟩
  | succ fuel ih =>
    rw [pollLoop] at h
    split at h
    · cases h
    · rename_i hwip
      split at h
      · cases h
      · rename_i hlt
        obtain ⟨m, hm, i, hi⟩ := pollTurn_runs rest hb hc hT hstart (by simpa using hwip) hlt
        have hb1 : (statusRead s).seqState = .busy := (frame_seqState _ _ s).trans hb
        have hc1 : (statusRead s).cs = .high := rfl
        have hT1 := statusRead_holds hT (by decide)
        have hstart1 := statusRead_holds hstart (by decide)
        generalize statusRead s = s1 at *
        obtain ⟨j, v, hle, hj, hv⟩ := ih (s := s1.readClock.record (pauseEvent s T)) hb1 hc1 hT1 hstart1 h
        refine ⟨i + j + 1, v, by omega, ?_, hv⟩
        rw [seqRun, hm]
        exact (seqRun_add i j hi).trans hj

/-- Up to its first status read a wait has written `T` and `START`, and the rest of it is its loop. -/
theorem waitHead_reaches (w : Timeout) (hb : s.seqState = .busy) :
    ∃ v, Reaches (s.setPc (waitOps w ++ rest)) (v.setPc (.frame (.fixed .spiReadStatus) :: .prim .pollTest :: rest))
      ∧ v.seqState = .busy ∧ v.cs = s.cs ∧ v.holds .t (waitTimeout s w) ∧ v.holds .start (s.clockDraw 0)
      ∧ ∀ fuel, wait fuel w s = pollLoop (waitTimeout s w) (s.clockDraw 0) fuel v :=
  ⟨(s.writeReg .t (waitTimeout s w)).readClock.writeReg .start (s.clockDraw 0),
    Reaches.prim hb rfl (Reaches.prim (s := s.writeReg .t (waitTimeout s w)) hb rfl (Reaches.refl _)),
    hb, rfl, rfl, rfl, fun _ => rfl⟩

/-- A request that has responded was let through its wait: chip-select was high, and the wait returned. -/
theorem wait_of_reaches_idle (hb : s.seqState = .busy) (hr : Reaches (s.setPc (waitOps w ++ rest)) u)
    (hu : u.seqState = .idle) : s.cs = .high ∧ ∃ fuel v, wait fuel w s = some v := by
  obtain ⟨v, hv, hbv, hcv, hT, hstart, hwait⟩ := waitHead_reaches rest w hb
  have hloop := hr.of_idle hu hv
  have hc := cs_high_of_reaches_idle hbv rfl hloop hu
  refine ⟨hcv.symm.trans hc, ?_⟩
  obtain ⟨k, hk⟩ := hloop
  cases hp : pollLoop (waitTimeout s w) (s.clockDraw 0) k v with
  | some t => exact ⟨k, t, (hwait k).trans hp⟩
  | none =>
    obtain ⟨j, t, hle, hj, ht⟩ := busy_of_pollLoop_none rest hbv hc hT hstart hp
    obtain rfl := Host.Outcome.next.inj ((seqRun_of_le hk hu hle).symm.trans hj)
    cases hu.symm.trans ht

end

/-- Settles O51: its wait returned (`wait_of_reaches_idle`), so it went some way (`span_of_wait`); `waitWriteCompletes` says
where that way ends, and the sequencer comes to one `IDLE` only. -/
theorem waitReturnsInTwoWays : Obligations.WaitReturnsInTwoWays := by
  intro x s t u hx hr hu
  obtain ⟨rfl, ha⟩ := accepted_of_reaches_idle rfl hx hr hu
  have hs : s.seqState = .idle := ha.state.resolve_right nofun
  obtain ⟨hc, fuel, w, hw⟩ :=
    wait_of_reaches_idle (s := requestStart s (.waitWrite x)) (w := .arg x) [.prim (.respond .nothing)] rfl hr hu
  obtain ⟨p, -, hp⟩ := span_of_wait hw
  have hd := Did.requestStart s (.waitWrite x)
  rw [hd.spanOk, hd.waitTimeout] at hp
  obtain ⟨t', u', hx', hr', hdone, hT, hSTART, hS, -⟩ := waitWriteCompletes s x p hs hc hp
  obtain rfl := Host.Outcome.next.inj (hx.symm.trans hx')
  obtain rfl := hr.idle_unique hr' hu hdone.seqState
  have hend := Span.ending_of_ok hp
  simp only [Nat.zero_add] at hend
  exact ⟨p, hp, hdone.trace, ⟨hT, hSTART, by rwa [Nat.zero_add]⟩, hend⟩

end Sys2Proof.Machine
end

section
/-! Every accepted request completes when the clock is fair (R104 (d), R130, R134): the erase, reset and power requests and
READ_DATA from acceptance to response, and then all sixteen. -/

namespace Sys2Proof.Machine

open Code

/-! ### Under a fair clock every wait goes some way -/

section
variable {s : State}

theorem exists_span_of_fairClock {T : Word} (h : fairClock s T) (k j : Nat) : ∃ p : Span, p.ok s T k j = true := by
  obtain ⟨l, hl, hT⟩ := h j
  obtain ⟨n, rfl⟩ := Nat.exists_eq_add_of_le (Nat.succ_le_of_lt hl)
  exact exists_span k hT

theorem exists_eraseWaits {w : Timeout} (bs : List Byte) (hprior : fairClock s (waitTimeout s (.arg 0)))
    (hw : fairClock s (waitTimeout s w)) : ∃ p q, eraseWaits s bs w p q = true := by
  obtain ⟨p, hp⟩ := exists_span_of_fairClock hprior 0 0
  obtain ⟨q, hq⟩ := exists_span_of_fairClock hw (p.bytes + 1 + bs.length) p.clocks
  exact ⟨p, q, Bool.and_eq_true_iff.2 ⟨hp, hq⟩⟩

theorem exists_writeWaits (hprior : fairClock s (waitTimeout s (.arg 0))) (hprog : fairClock s (waitTimeout s .program))
    (k j : Nat) (l : List (Word × Word)) : ∃ waits, writeWaits s k j l waits = true := by
  induction l generalizing k j with
  | nil => exact ⟨[], rfl⟩
  | cons c l ih =>
    obtain ⟨p, hp⟩ := exists_span_of_fairClock hprior k j
    obtain ⟨q, hq⟩ := exists_span_of_fairClock hprog (k + p.bytes + 1 + headLen s.cfg + c.2.toNat) (j + p.clocks)
    obtain ⟨waits, hwaits⟩ := ih (k + p.bytes + 1 + headLen s.cfg + c.2.toNat + q.bytes) (j + p.clocks + q.clocks)
    exact ⟨(p, q) :: waits, Bool.and_eq_true_iff.2 ⟨Bool.and_eq_true_iff.2 ⟨hp, hq⟩, hwaits⟩⟩

end

/-! ### Frames that receive nothing -/

theorem Did.sendFrame (bs : List Byte) (s : State) : Did s (Code.frame bs [] s) (Machine.sendEvents s 0 bs) bs.length 0 :=
  (Did.frame bs [] s).cast (by rw [List.length_nil, List.replicate_zero, List.append_nil, Machine.sendEvents]) rfl rfl

/-- A frame and the delay behind it. -/
theorem Did.sendDelay (bs : List Byte) (n : Word) (s : State) :
    Did s ((Code.frame bs [] s).delayUs n) (Machine.sendEvents s 0 bs ++ delayEvents n) bs.length 0 :=
  (Did.sendFrame bs s).trans (Did.delayUs _ n)

/-! ### The erase requests (R105 to R108) -/

section
variable {s : State} {i : Instr} {bs : List Byte} {w : Timeout} {p q : Span}

/-- The one shape of the three erases, when its two waits go the ways `p` and `q`. -/
theorem erase_runs (hb : s.seqState = .busy) (hc : s.cs = .high) (h : eraseWaits s bs w p q = true) :
    ∃ fuel u, erase fuel bs w s = some (u.respondWith .nothing) ∧ u.cs = .high
      ∧ Did s u (eraseEvents s bs w p q) (p.bytes + 1 + bs.length + q.bytes) (p.clocks + q.clocks)
      ∧ q.left s u (waitTimeout s w) (p.bytes + 1 + bs.length) p.clocks := by
  obtain ⟨hp, hq⟩ := Bool.and_eq_true_iff.1 h
  obtain ⟨s1, hs1, hb1, hc1, -, hd1, -⟩ := wait_runs hb hc hp
  obtain ⟨-, -, hb2, -⟩ := wren_reaches [] hb1 hc1
  have hd2 := hd1.trans (Did.wren s1)
  have hd3 := hd2.trans (Did.sendFrame bs (wren s1))
  obtain ⟨s2, hs2, -, hc4, -, hd4, hleft⟩ := wait_runs (s := frame bs [] (wren s1)) (p := q) (w := w)
    ((frame_seqState _ _ _).trans hb2) (frame_cs _ _ _) (by rw [hd3.spanOk, hd3.waitTimeout]; simpa using hq)
  rw [hd3.waitTimeout] at hd4 hleft
  refine ⟨max (p.polls + 1) (q.polls + 1), s2, ?_, hc4, (hd3.trans hd4).cast ?_ rfl (by omega), hd3.spanLeft hleft⟩
  · exact Option.map_eq_some_iff.2 ⟨s2, Option.bind_eq_some_iff.2
      ⟨s1, wait_mono hs1 (Nat.le_max_left _ _), wait_mono hs2 (Nat.le_max_right _ _)⟩, rfl⟩
  · rw [hd3.spanEvents, hd2.sendEvents, hd1.wrenEvents]
    simp [eraseEvents]

/-- An erase request from acceptance to response: `bs` is its erase frame, `w` its trailing wait. -/
theorem erase_completes (hs : s.seqState = .idle) (hc : s.cs = .high) (ha : accepts s.cfg i = true)
    (hi : ∀ a n buf, i ≠ .readData a n buf)
    (hreq : ∀ fuel, request fuel i (requestStart s i) = erase fuel bs w (requestStart s i))
    (h : eraseWaits s bs w p q = true) :
    ∃ t u, exec i s = .next t ∧ Reaches t u ∧ Completed s u (eraseEvents s bs w p q) .nothing (writtenBy i)
      ∧ q.left s u (waitTimeout s w) (p.bytes + 1 + bs.length) p.clocks ∧ ∀ x, u.mem.read x = s.mem.read x := by
  have hd := Did.requestStart s i
  have hwaits : eraseWaits (requestStart s i) bs w p q = true := by
    simpa only [eraseWaits, hd.spanOk, hd.waitTimeout, Nat.zero_add] using h
  obtain ⟨fuel, v, hv, hcs, hdid, hleft⟩ := erase_runs (s := requestStart s i) rfl hc hwaits
  have hevents : eraseEvents (requestStart s i) bs w p q = eraseEvents s bs w p q := by
    simp only [eraseEvents, hd.spanEvents, hd.wrenEvents, hd.sendEvents, hd.waitTimeout, Nat.zero_add]
  rw [hevents] at hdid
  obtain ⟨t, u, hx, hr, hdone, hregs, hmem⟩ :=
    storelessRequest_completes hs hc ha hi ((hreq fuel).trans hv) hcs (hd.trans hdid)
  have hleft' := (hd.spanLeft hleft).congr hregs
  rw [hd.waitTimeout, Nat.zero_add, Nat.zero_add] at hleft'
  exact ⟨t, u, hx, hr, hdone, hleft', hmem⟩

end

/-! ### The reset and power requests (R109 to R111) -/

section
variable {s : State} {p : Span}

/-- RESET_DEVICE: its wait goes the way `p`, and its two frames leave the registers of the wait. -/
theorem resetDevice_completes (hs : s.seqState = .idle) (hc : s.cs = .high)
    (hp : p.ok s (waitTimeout s (.arg 0)) 0 0 = true) :
    ∃ t u, exec .resetDevice s = .next t ∧ Reaches t u
      ∧ Completed s u (p.events s (waitTimeout s (.arg 0)) 0 0
          ++ ((sendEvents s p.bytes [0x66] ++ delayEvents s.par.resetSettleUs)
            ++ (sendEvents s (p.bytes + 1) [0x99] ++ delayEvents s.par.resetSettleUs))) .nothing [.t, .start, .s]
      ∧ p.left s u (waitTimeout s (.arg 0)) 0 0 ∧ ∀ x, u.mem.read x = s.mem.read x := by
  obtain ⟨w, hw, -, hd, hleft⟩ := startedWait_runs .resetDevice hc hp
  have hd1 := Did.sendDelay [0x66] s.par.resetSettleUs w
  have hd2 := hd1.trans (Did.sendDelay [0x99] s.par.resetSettleUs _)
  rw [hd1.sendEvents, hd.sendEvents, hd.sendEvents] at hd2
  obtain ⟨t, u, hx, hr, hdone, hregs, hmem⟩ := storelessRequest_completes hs hc (i := .resetDevice) rfl nofun
    (congrArg (Option.map _) hw) (by rw [State.delayUs_cs, frame_cs]) (hd.trans hd2)
  refine ⟨t, u, hx, hr, hdone, hleft.congr (hregs.trans ?_), hmem⟩
  rw [State.delayUs_regs, sendFrame_regs, State.delayUs_regs, sendFrame_regs]

/-- DEEP_POWER_DOWN and WAKE: one frame and a delay. -/
theorem sendDelay_completes {i : Instr} {bs : List Byte} {n : Word} (hs : s.seqState = .idle) (hc : s.cs = .high)
    (ha : accepts s.cfg i = true) (hi : ∀ a n buf, i ≠ .readData a n buf)
    (hreq : request 0 i (requestStart s i) = some (((frame bs [] (requestStart s i)).delayUs n).respondWith .nothing)) :
    ∃ t u, exec i s = .next t ∧ Reaches t u
      ∧ Completed s u (sendEvents s 0 bs ++ delayEvents n) .nothing (writtenBy i)
      ∧ ∀ x, u.mem.read x = s.mem.read x := by
  have hd := Did.requestStart s i
  have hsend := hd.trans (Did.sendDelay bs n (requestStart s i))
  rw [hd.sendEvents] at hsend
  obtain ⟨t, u, hx, hr, hdone, -, hmem⟩ := storelessRequest_completes hs hc ha hi hreq
    (by rw [State.delayUs_cs, frame_cs]) hsend
  exact ⟨t, u, hx, hr, hdone, hmem⟩

end

/-! ### READ_DATA, whatever the host buffer (R115) -/

theorem did_readLoop {buf a rem cur : Word} {k : Nat} {s u : State} (h : readLoop buf k a rem cur s = some u) :
    ∃ evs j, Did s u evs j 0 := by
  induction k generalizing s a rem cur with
  | zero =>
    rw [readLoop] at h
    obtain ⟨-, hs⟩ := Option.ite_none_right_eq_some.1 h
    obtain rfl := Option.some.inj hs
    exact ⟨_, _, Did.refl s⟩
  | succ k ih =>
    rw [readLoop] at h
    split at h
    · obtain rfl := Option.some.inj h
      exact ⟨_, _, Did.refl s⟩
    · obtain ⟨evs, j, hrest⟩ := ih h
      exact ⟨_, _, ((Did.writeReg s .chunk _).trans (Did.readChunk _ _ _ _)).trans
        (((Did.dropLocal _ .r).trans (Did.advance _ _ _ _ _)).trans hrest)⟩

/-- READ_DATA ends within as many chunks as there are bytes (`readLoop_ends`). -/
theorem readData_completes {s : State} {a n buf : Word} (hs : s.seqState = .idle) (hc : s.cs = .high)
    (ha : accepts s.cfg (.readData a n buf) = true) :
    ∃ t u evs, exec (.readData a n buf) s = .next t ∧ Reaches t u
      ∧ Completed s u evs .nothing [.addr, .rem, .cur, .chunk] := by
  obtain ⟨hrange, hok⟩ := Bool.and_eq_true_iff.1 ha
  have hloop := atLoop_rangeStart (s := s) (i := .readData a n buf) hc hok rfl hrange
  obtain ⟨v, hv⟩ := readLoop_ends (s := rangeStart s (.readData a n buf) a n) (buf := buf) (a := a) (cur := 0)
    (pageSize_ne_zero hok) (Nat.le_refl n.toNat)
  obtain ⟨-, -, hcs⟩ := readLoop_reaches [] hloop hv
  obtain ⟨evs, j, hd⟩ := did_readLoop hv
  obtain ⟨t, hx, hr, hdone, -⟩ := request_completes (fuel := 0) (.inl hs) (fun _ => hc) ha
    (congrArg (Option.map fun u : State => u.respondWith .nothing) hv) hcs ((Did.rangeStart s _ a n).trans hd)
  exact ⟨t, _, _, hx, hr, hdone⟩

/-! ### All sixteen requests -/

/-- Request `i`, taken in `s`, runs to some response. -/
def RunsToResponse (i : Instr) (s : State) : Prop :=
  ∃ t u evs v written, exec i s = .next t ∧ Reaches t u ∧ Completed s u evs v written

section
variable {i : Instr} {s : State}

theorem RunsToResponse.of_completes {evs : List Event} {v : Response} {written : List Reg} {P : State → Prop}
    (h : ∃ t u, exec i s = .next t ∧ Reaches t u ∧ Completed s u evs v written ∧ P u) : RunsToResponse i s := by
  obtain ⟨t, u, hx, hr, hdone, -⟩ := h
  exact ⟨t, u, evs, v, written, hx, hr, hdone⟩

/-- An erase whose two waits come to an end. -/
theorem RunsToResponse.erase {bs : List Byte} {w : Timeout} (hs : s.seqState = .idle) (hc : s.cs = .high)
    (ha : accepts s.cfg i = true) (hi : ∀ a n buf, i ≠ .readData a n buf)
    (hreq : ∀ fuel, request fuel i (requestStart s i) = Code.erase fuel bs w (requestStart s i))
    (hfair : ∀ x ∈ [.arg 0, w], fairClock s (waitTimeout s x)) : RunsToResponse i s := by
  obtain ⟨hprior, hw⟩ := List.forall_mem_cons.1 hfair
  obtain ⟨p, q, h⟩ := exists_eraseWaits bs hprior (hw w (List.mem_singleton_self w))
  exact .of_completes (erase_completes hs hc ha hi hreq h)

/-- An accepted request runs to its response when every timeout it waits for comes (R104 (d), R130): its waits go some way
(`exists_span_of_fairClock`), and whichever way that is, it completes. -/
theorem runsToResponse_of_fairClock (hstate : s.seqState = .idle ∨ (s.seqState = .uninit ∧ i = .init))
    (hcs : i ≠ .init → s.cs = .high) (ha : accepts s.cfg i = true)
    (hfair : ∀ w ∈ waitsOf i, fairClock s (waitTimeout s w)) : RunsToResponse i s := by
  have hs (h : i ≠ .init) : s.seqState = .idle := hstate.resolve_right fun h' => h h'.2
  cases i with
  | init =>
    have hpow : s.cfg.pageSize &&& (s.cfg.pageSize - 1) = 0 := by
      have hp := pageSize_ok ha
      simp only [isPowerOfTwo, Bool.and_eq_true, beq_iff_eq] at hp
      exact hp.2
    exact .of_completes
      (initCompletes s (hstate.symm.imp_left And.left) (mode_cases ha) (pageSize_ne_zero ha) hpow)
  | identify => exact .of_completes (identifyCompletes s (hs nofun) (hcs nofun))
  | validate => exact .of_completes (validateCompletes s (hs nofun) (hcs nofun))
  | readStatus => exact .of_completes (readStatusCompletes s (hs nofun) (hcs nofun))
  | readConfig => exact .of_completes (readConfigCompletes s (hs nofun) (hcs nofun))
  | writeEnable => exact .of_completes (writeEnableCompletes s (hs nofun) (hcs nofun))
  | writeStatus v =>
    obtain ⟨p, hp⟩ := exists_span_of_fairClock (hfair _ (List.mem_singleton_self _)) 0 0
    exact .of_completes (writeStatusCompletes s v p (hs nofun) (hcs nofun) hp)
  | waitWrite x =>
    obtain ⟨p, hp⟩ := exists_span_of_fairClock (hfair _ (List.mem_singleton_self _)) 0 0
    exact .of_completes (waitWriteCompletes s x p (hs nofun) (hcs nofun) hp)
  | sectorErase | blockErase | chipErase => exact .erase (hs nofun) (hcs nofun) ha nofun (fun _ => rfl) hfair
  | resetDevice =>
    obtain ⟨p, hp⟩ := exists_span_of_fairClock (hfair _ (List.mem_singleton_self _)) 0 0
    exact .of_completes (resetDevice_completes (hs nofun) (hcs nofun) hp)
  | deepPowerDown | wake => exact .of_completes (sendDelay_completes (hs nofun) (hcs nofun) ha nofun rfl)
  | readData a n buf =>
    obtain ⟨t, u, evs, hx, hr, hdone⟩ := readData_completes (hs nofun) (hcs nofun) ha
    exact ⟨t, u, evs, _, _, hx, hr, hdone⟩
  | writeData a n buf =>
    obtain ⟨hrange, hok⟩ := Bool.and_eq_true_iff.1 ha
    obtain ⟨haddr, hbuf⟩ := rangeOk_iff.1 hrange
    obtain ⟨hprior, hprog⟩ := List.forall_mem_cons.1 hfair
    obtain ⟨waits, hw⟩ :=
      exists_writeWaits hprior (hprog _ (List.mem_singleton_self _)) 0 0 (chunksOf s.cfg.pageSize a n)
    exact .of_completes (writeDataCompletes s a n buf waits (hs nofun) (hcs nofun) hok haddr hbuf hw)
  | _ => cases ha

end

/-- Settles O42: `runsToResponse_of_fairClock` gives the completed run, and no fault was raised on the way. -/
theorem acceptedRequestEnds : Obligations.AcceptedRequestEnds := by
  intro i s hstate hcs ha hfault hfair
  obtain ⟨t, u, evs, v, _, hx, hr, hdone⟩ := runsToResponse_of_fairClock hstate hcs ha hfair
  exact ⟨t, u, v, evs, hx, hr, hdone.seqState, hdone.cs, hdone.pc, hdone.faultCode.trans hfault, hdone.result, hdone.trace⟩

end Sys2Proof.Machine
end

section
/-! The three erase requests (R105 to R108): `erase_completes` for the erase frame of each, and, for the two frames that carry
an address, their length in either mode. -/

namespace Sys2Proof.Machine

open Code

/-- An erase whose frame is the command `c` and the address: its trailing wait begins after the prior wait's bytes, the
write-enable, the command and the `addrBytes` bytes of the address. -/
theorem addressedErase_completes {s : State} {i : Instr} {c : Byte} {a : Word} {w : Timeout} {p q : Span}
    (hs : s.seqState = .idle) (hc : s.cs = .high) (hok : cfgOk s.cfg = true) (ha : accepts s.cfg i = true)
    (hi : ∀ a n buf, i ≠ .readData a n buf)
    (hreq : ∀ fuel, request fuel i (requestStart s i) = erase fuel (c :: addrBytes s.cfg a) w (requestStart s i))
    (h : eraseWaits s (c :: addrBytes s.cfg a) w p q = true) :
    ∃ t u, exec i s = .next t ∧ Reaches t u
      ∧ Completed s u (eraseEvents s (c :: addrBytes s.cfg a) w p q) .nothing (writtenBy i)
      ∧ q.left s u (waitTimeout s w) (p.bytes + 2 + s.cfg.addrBytes) p.clocks ∧ ∀ x, u.mem.read x = s.mem.read x := by
  have hlen : p.bytes + 1 + (c :: addrBytes s.cfg a).length = p.bytes + 2 + s.cfg.addrBytes := by
    rw [List.length_cons, length_addrBytes hok]
    omega
  rw [← hlen]
  exact erase_completes hs hc ha hi hreq h

/-- Settles O32: an erase with an address, whose command and timeout are the sector's (`addressedErase_completes`). -/
theorem sectorEraseCompletes : Obligations.SectorEraseCompletes := by
  intro s a p q hs hc hok hwaits
  exact addressedErase_completes (i := .sectorErase a) hs hc hok hok nofun (fun _ => rfl) hwaits

/-- Settles O33: an erase with an address, whose command is the block's and whose timeout is the one of block and chip
(`addressedErase_completes`). -/
theorem blockEraseCompletes : Obligations.BlockEraseCompletes := by
  intro s a p q hs hc hok hwaits
  exact addressedErase_completes (i := .blockErase a) hs hc hok hok nofun (fun _ => rfl) hwaits

/-- Settles O34: its erase frame is the command alone, so the trailing wait begins one byte after the write-enable
(`erase_completes`). -/
theorem chipEraseCompletes : Obligations.ChipEraseCompletes := by
  intro s p q hs hc hwaits
  exact erase_completes (i := .chipErase) hs hc rfl nofun (fun _ => rfl) hwaits

end Sys2Proof.Machine
end

section
/-! The reset and power requests (R109 to R111): RESET_DEVICE from `resetDevice_completes`, the two power requests from
`sendDelay_completes`, which takes the command and the delay of each. -/

namespace Sys2Proof.Machine

/-- Settles O35: the wait goes the way `p`, and the two commands with their delays follow it (`resetDevice_completes`). -/
theorem resetDeviceCompletes : Obligations.ResetDeviceCompletes := by
  intro s p hs hc hp
  simpa only [List.append_assoc] using resetDevice_completes hs hc hp

/-- Settles O36: the power-down command and `DPD_SETTLE_US` (`sendDelay_completes`). -/
theorem deepPowerDownCompletes : Obligations.DeepPowerDownCompletes := by
  intro s hs hc
  exact sendDelay_completes (i := .deepPowerDown) hs hc rfl nofun rfl

/-- Settles O37: the release command and `TRES_US` (`sendDelay_completes`). -/
theorem wakeCompletes : Obligations.WakeCompletes := by
  intro s hs hc
  exact sendDelay_completes (i := .wake) hs hc rfl nofun rfl

end Sys2Proof.Machine
end

section
/-! The paged requests' own arithmetic (R113, R114, R119, R120): the range check, the range of no bytes, `NextChunk`, and the
chunks of a range. -/

namespace Sys2Proof.Machine

open Code

/-! ### The range check (R120) -/

/-- In `IDLE` a data request starts if its ranges fit, and raises `FAULT_RANGE` if not (R120, R126). -/
theorem exec_data_of_idle {i : Instr} {d : DataDir} {s : State} (hd : dataDir i = some d) (hs : s.seqState = .idle) :
    exec i s = .next (if rangeFits i then s.startRequest i (requestOps i) else s.raiseFault .range) := by
  cases i with
  | readData a n buf | writeData a n buf =>
    exact acceptIdle_of_idle hs fun s => if rangeOk a n buf then s.startRequest _ _ else s.raiseFault .range
  | _ => cases hd

/-- The two outcomes of the range check, told apart as R120 tells them. -/
theorem exec_data_of_range {i : Instr} {d : DataDir} {s : State} {a n buf : Word} (hd : dataDir i = some d)
    (hfits : rangeFits i = rangeOk a n buf) (hs : s.seqState = .idle) :
    ((2 ^ 32 < a.toNat + n.toNat ∨ 2 ^ 32 < buf.toNat + n.toNat) → exec i s = .next (faultState s 0x05))
      ∧ (a.toNat + n.toNat ≤ 2 ^ 32 → buf.toNat + n.toNat ≤ 2 ^ 32 →
        exec i s = .next (s.startRequest i (requestOps i))) := by
  rw [exec_data_of_idle hd hs, hfits]
  refine ⟨fun h => ?_, fun ha hb => ?_⟩
  · rw [if_neg (by rw [rangeOk_iff]; omega)]
    rfl
  · rw [if_pos (rangeOk_iff.2 ⟨ha, hb⟩)]

/-- Settles O16: the check and its outcome are the same for both requests (`exec_data_of_range`), and an accepted one has
recorded nothing. -/
theorem rangeCheckIsExact : Obligations.RangeCheckIsExact := by
  intro s a n buf hs
  obtain ⟨hreadFaults, hreadStarts⟩ := exec_data_of_range (i := .readData a n buf) rfl rfl hs
  obtain ⟨hwriteFaults, hwriteStarts⟩ := exec_data_of_range (i := .writeData a n buf) rfl rfl hs
  exact ⟨fun h => ⟨hreadFaults h, hwriteFaults h⟩,
    fun ha hb => ⟨⟨_, hreadStarts ha hb, rfl, rfl⟩, ⟨_, hwriteStarts ha hb, rfl, rfl⟩⟩⟩

/-! ### The range of no bytes (R119) -/

/-- Three register writes, the head of the chunk loop, which finds `REM` 0, and the response: whatever the page size. -/
theorem dataOps_zero_reaches {s : State} (d : DataDir) (a : Word) (hb : s.seqState = .busy) (hc : s.cs = .high) :
    Reaches (s.setPc (dataOps d a 0)) ((beginRange a 0 s).respondWith .nothing) := by
  have hrem : (beginRange a 0 s).holds .rem 0 :=
    State.holds_writeReg_other (State.holds_writeReg_same _ _ _) (by decide)
  have hhead : execPrim (.chunkLoop d) ((beginRange a 0 s).setPc [.prim (.respond .nothing)])
      = .next ((beginRange a 0 s).setPc [.prim (.respond .nothing)]) := by
    simp only [execPrim, doChunkLoop, State.readReg_setPc, hrem.readReg, withValue, if_true]
  have hresp : Reaches ((beginRange a 0 s).setPc [.prim (.respond .nothing)])
      ((beginRange a 0 s).respondWith .nothing) := respond_reaches hb hc rfl
  exact (beginRange_reaches _ a 0 hb).trans (Reaches.prim hb hhead hresp)

/-- A data request of no bytes passes the range check and runs to its response, having written `ADDR`, `REM` and `CUR`
alone. -/
theorem zeroLength_completes {i : Instr} {d : DataDir} {s : State} {a buf : Word} (hd : dataDir i = some d)
    (hfits : rangeFits i = rangeOk a 0 buf) (hops : requestOps i = dataOps d a 0) (hs : s.seqState = .idle)
    (hc : s.cs = .high) :
    ∃ t u, exec i s = .next t ∧ Reaches t u ∧ Completed s u [] .nothing [.addr, .rem, .cur]
      ∧ ∀ x, u.mem.read x = s.mem.read x := by
  have hx : exec i s = .next (s.startRequest i (dataOps d a 0)) :=
    hops ▸ (exec_data_of_range hd hfits hs).2 a.isLt.le buf.isLt.le
  refine ⟨_, _, hx, dataOps_zero_reaches (s := s.startRequest i (dataOps d a 0)) d a rfl hc, ?_, fun _ => rfl⟩
  refine ⟨rfl, rfl, rfl, hc, rfl, ?_, rfl, fun r hr => ?_, rfl, rfl, rfl⟩
  · rw [State.respondWith_trace, List.append_nil]
    rfl
  · obtain ⟨haddr, hrem, hcur⟩ : r ≠ .addr ∧ r ≠ .rem ∧ r ≠ .cur := by simpa using hr
    simp [beginRange, RegFile.get_put_other, haddr, hrem, hcur]

/-- Settles O40: neither request gets past the head of its chunk loop (`zeroLength_completes`). -/
theorem zeroLengthCompletes : Obligations.ZeroLengthCompletes := fun _ a buf hs hc =>
  ⟨zeroLength_completes (i := .readData a 0 buf) rfl rfl rfl hs hc,
    zeroLength_completes (i := .writeData a 0 buf) rfl rfl rfl hs hc⟩

/-! ### `NextChunk` (R113) -/

theorem toNat_pos_of_ne_zero {x : Word} (h : x ≠ 0) : 0 < x.toNat :=
  Nat.pos_of_ne_zero fun h0 => h (BitVec.eq_of_toNat_eq h0)

/-- On 32 bits the chunk's length is the one R113 computes exactly. -/
theorem chunkLength_toNat {p : Word} (hp : p ≠ 0) (a rem : Word) :
    (chunkLength p a rem).toNat = min (p.toNat - a.toNat % p.toNat) rem.toNat := by
  have hmod : (a % p).toNat < p.toNat := by
    rw [BitVec.toNat_umod]
    exact Nat.mod_lt _ (toNat_pos_of_ne_zero hp)
  have hroom : (p - a % p).toNat = p.toNat - a.toNat % p.toNat := by
    rw [BitVec.toNat_sub_of_le hmod.le, BitVec.toNat_umod]
  simp only [chunkLength, BitVec.le_def, apply_ite BitVec.toNat, hroom]
  exact Nat.min_def.symm

/-- Settles O49: the step is the primitive at `pc`, and the `CHUNK` it writes is R113's (`chunkLength_toNat`). -/
theorem nextChunkLength : Obligations.NextChunkLength := by
  intro s rest a rem hb hq hpc ha hrem hp
  have hp0 : s.cfg.pageSize ≠ 0 := fun h => absurd (h ▸ hp) (by decide)
  have hstep := PrimStep.nextChunk (s := s) (rest := rest) a rem (State.holds.readReg ha) (State.holds.readReg hrem) hp
  refine ⟨_, chunkLength_toNat hp0 a rem, ?_⟩
  rw [step_eq_seqStep hb hq, ← State.setPc_of_pc hpc, seqStep_prim hb, hstep.execPrim]
  rfl

/-! ### Pages -/

/-- A chunk that does not pass the end of its first byte's page ends in that page. -/
theorem page_of_last {p x c : Nat} (hc : 0 < c) (hle : c ≤ p - x % p) : (x + c - 1) / p = x / p := by
  have hx := Nat.div_add_mod x p
  rw [show x + c - 1 = (x % p + c - 1) + p * (x / p) by omega, Nat.add_mul_div_left _ _ (by omega),
    Nat.div_eq_of_lt (by omega), Nat.zero_add]

/-- Where a page ends the next one begins. -/
theorem page_end {p : Nat} (hp : 0 < p) (x : Nat) : x + (p - x % p) = p * (x / p + 1) := by
  have hx := Nat.div_add_mod x p
  have hmod := Nat.mod_lt x hp
  rw [Nat.mul_add_one]
  omega

/-! ### The chunks of a range (R114) -/

section
variable {p a rem : Word} {k : Nat}

/-- Every chunk is as long as R113 says from its own address on. -/
theorem chunkLength_of_mem {q : Word × Word} (h : q ∈ chunkList p k a rem) :
    ∃ r, r ≠ 0 ∧ q.2 = chunkLength p q.1 r := by
  induction k generalizing a rem with
  | zero => cases h
  | succ k ih =>
    by_cases hr : rem = 0
    · rw [hr, chunkList_zero] at h
      cases h
    · rw [chunkList_succ hr] at h
      obtain rfl | h := List.mem_cons.1 h
      · exact ⟨rem, hr, rfl⟩
      · exact ih h

theorem fst_of_getElem?_zero {x c : Word} (h : (chunkList p k a rem)[0]? = some (x, c)) : x = a := by
  cases k with
  | zero => cases h
  | succ k =>
    by_cases hr : rem = 0
    · rw [hr, chunkList_zero] at h
      cases h
    · rw [chunkList_succ hr] at h
      cases h
      rfl

section
variable (hp : p ≠ 0)
include hp

/-- The first chunk and the rest of the range: the chunk is all of it, or ends with its page and leaves a range that begins
where it ends (R113). -/
theorem chunkList_cases (hr : 0 < rem.toNat) (hk : rem.toNat ≤ k + 1) (ha : a.toNat + rem.toNat ≤ 2 ^ 32) :
    (chunkList p (k + 1) a rem = [(a, rem)] ∧ rem.toNat ≤ p.toNat - a.toNat % p.toNat)
      ∨ ∃ a' c rem', chunkList p (k + 1) a rem = (a, c) :: chunkList p k a' rem' ∧ 0 < rem'.toNat ∧ rem'.toNat ≤ k
        ∧ c.toNat = p.toNat - a.toNat % p.toNat ∧ a'.toNat = a.toNat + c.toNat
        ∧ c.toNat + rem'.toNat = rem.toNat := by
  have hr0 : rem ≠ 0 := fun h => absurd (h ▸ hr) (by decide)
  have hlen := chunkLength_toNat hp a rem
  have hle := chunkLength_le p a rem
  have hk' := sub_chunkLength_le (a := a) hp hr0 hk
  rw [chunkList_succ hr0]
  generalize chunkLength p a rem = c at *
  by_cases hc : c = rem
  · subst hc
    refine .inl ⟨?_, by omega⟩
    rw [BitVec.sub_self]
    exact congrArg _ (chunkList_zero p k _)
  · have hlt : c.toNat < rem.toNat := lt_of_le_of_ne hle fun h => hc (BitVec.eq_of_toNat_eq h)
    have hrest : (rem - c).toNat = rem.toNat - c.toNat := BitVec.toNat_sub_of_le hle
    exact .inr ⟨a + c, c, rem - c, rfl, by omega, hk', by omega, BitVec.toNat_add_of_lt (by omega), by omega⟩

/-- A chunk with another behind it reaches to the end of its page, where the other begins (R114). -/
theorem chunkList_consecutive (hk : rem.toNat ≤ k) (ha : a.toNat + rem.toNat ≤ 2 ^ 32) {i : Nat} {x c x' c' : Word}
    (h : (chunkList p k a rem)[i]? = some (x, c)) (h' : (chunkList p k a rem)[i + 1]? = some (x', c')) :
    c.toNat = p.toNat - x.toNat % p.toNat ∧ x'.toNat = x.toNat + c.toNat := by
  induction k generalizing a rem i with
  | zero => cases h
  | succ k ih =>
    by_cases hr : rem = 0
    · rw [hr, chunkList_zero] at h
      cases h
    obtain ⟨hl, -⟩ | ⟨a', c₀, rem', hl, -, hk', hc, ha', hsum⟩ := chunkList_cases hp (toNat_pos_of_ne_zero hr) hk ha
    · rw [hl] at h'
      cases h'
    · rw [hl] at h h'
      cases i with
      | zero =>
        cases h
        obtain rfl := fst_of_getElem?_zero h'
        exact ⟨hc, ha'⟩
      | succ i => exact ih hk' (by omega) h h'

/-- Every chunk but the first begins a page (R114). -/
theorem chunkList_page_start (hk : rem.toNat ≤ k) (ha : a.toNat + rem.toNat ≤ 2 ^ 32) {i : Nat} {x c : Word}
    (h : (chunkList p k a rem)[i + 1]? = some (x, c)) : x.toNat % p.toNat = 0 := by
  obtain ⟨hlt, -⟩ := List.getElem?_eq_some_iff.1 h
  obtain ⟨hc, hx⟩ := chunkList_consecutive hp hk ha (List.getElem?_eq_getElem (Nat.lt_of_succ_lt hlt)) h
  rw [hx, hc, page_end (toNat_pos_of_ne_zero hp), Nat.mul_mod_right]

/-- As many chunks as pages are touched (R114). -/
theorem length_chunkList (hr : 0 < rem.toNat) (hk : rem.toNat ≤ k) (ha : a.toNat + rem.toNat ≤ 2 ^ 32) :
    (chunkList p k a rem).length = (a.toNat + rem.toNat - 1) / p.toNat - a.toNat / p.toNat + 1 := by
  have hp0 := toNat_pos_of_ne_zero hp
  induction k generalizing a rem with
  | zero => omega
  | succ k ih =>
    obtain ⟨hl, hpage⟩ | ⟨a', c, rem', hl, hr', hk', hc, ha', hsum⟩ := chunkList_cases hp hr hk ha
    · rw [hl, page_of_last hr hpage, Nat.sub_self]
      rfl
    · have hnext : a'.toNat / p.toNat = a.toNat / p.toNat + 1 := by
        rw [ha', hc, page_end hp0, Nat.mul_div_cancel_left _ hp0]
      have hmono : a'.toNat / p.toNat ≤ (a'.toNat + rem'.toNat - 1) / p.toNat := Nat.div_le_div_right (by omega)
      rw [hl, List.length_cons, ih hr' hk' (by omega), show a.toNat + rem.toNat = a'.toNat + rem'.toNat by omega]
      omega

end

end

/-- Settles O50: the first chunk and every chunk's length by R113, what is between two chunks by `chunkList_consecutive`, the
sum and the number by induction on the chunks (`chunkList_sum`, `length_chunkList`). -/
theorem chunksCoverTheRange : Obligations.ChunksCoverTheRange := by
  intro p a n hp hn ha
  obtain ⟨k, hk⟩ := Nat.exists_eq_add_one.2 (toNat_pos_of_ne_zero hn)
  have hhead : (chunksOf p a n).head? = some (a, chunkLength p a n) := by
    rw [chunksOf, hk, chunkList_succ hn, List.head?_cons]
  refine ⟨⟨by rw [hhead]; rfl, fun i x c x' c' h h' => ?_⟩, chunkList_sum hp le_rfl, fun q hq => ?_, ?_,
    length_chunkList hp (toNat_pos_of_ne_zero hn) le_rfl ha⟩
  · obtain ⟨hc, hx'⟩ := chunkList_consecutive hp le_rfl ha h h'
    refine ⟨hx', chunkList_page_start hp le_rfl ha h', fun hi => BitVec.eq_of_toNat_eq ?_⟩
    obtain ⟨j, rfl⟩ := Nat.exists_eq_add_one.2 hi
    rw [hc, chunkList_page_start hp le_rfl ha h, Nat.sub_zero]
  · obtain ⟨r, hr, hq⟩ := chunkLength_of_mem hq
    have hpos := chunkLength_pos (a := q.1) hp hr
    have hlen := chunkLength_toNat hp q.1 r
    rw [← hq] at hpos hlen
    exact ⟨hpos, by omega, (page_of_last hpos (by omega)).symm⟩
  · rw [hhead, ← chunkLength_toNat hp]
    rfl

end Sys2Proof.Machine
end

section
/-! Faults (R123 to R130): the checks a request meets, in their order, what taking a request leaves alone, and that only a
request raises a fault. -/

namespace Sys2Proof.Machine

section
variable {s t : State} {i : Instr}

/-! ### The checks of a request (R126) -/

/-- The configuration checks as R20 and R92 state them. -/
theorem cfgOk_iff {c : Cfg} :
    cfgOk c = true ↔ (c.addrBytes = 3 ∨ c.addrBytes = 4) ∧ c.pageSize ≠ 0 ∧ c.pageSize &&& (c.pageSize - 1) = 0 := by
  simp only [cfgOk, isPowerOfTwo, Bool.and_eq_true, Bool.or_eq_true, beq_iff_eq, bne_iff_ne, ne_eq]

/-- A reserved code faults in either state that takes requests (R81). -/
theorem exec_reservedOp_of_waiting (hs : s.seqState = .uninit ∨ s.seqState = .idle) (op : Byte) :
    exec (.reservedOp op) s = .next (s.raiseFault .undefinedOp) :=
  acceptAny_of_waiting hs fun s => s.raiseFault .undefinedOp

/-- Before INIT every other request faults (R126). -/
theorem exec_request_of_uninit (hf : i.isFrame = false) (hs : s.seqState = .uninit) (hi : i ≠ .init)
    (hop : ∀ op, i ≠ .reservedOp op) : exec i s = .next (s.raiseFault .notInit) := by
  rcases exec_request_eq hf s with ⟨⟨op, h⟩, -⟩ | ⟨h, -⟩ | ⟨-, hx⟩
  · exact absurd h (hop op)
  · exact absurd h hi
  · rw [hx, acceptIdle, hs]

/-- INIT on a malformed configuration faults (R20, R92). -/
theorem exec_init_of_malformed (hs : s.seqState = .uninit ∨ s.seqState = .idle) (hcfg : cfgOk s.cfg ≠ true) :
    exec .init s = .next (s.raiseFault .config) :=
  (acceptAny_of_waiting hs fun s => if cfgOk s.cfg then s.startRequest _ _ else s.raiseFault .config).trans
    (congrArg _ (if_neg hcfg))

end

/-- Settles O11: `exec` in each state, check by check; `faultState` is what `raiseFault` makes of the state. -/
theorem requestCheckPriority : Obligations.RequestCheckPriority := by
  intro i s hf
  refine ⟨exec_request_of_faulted hf, exec_request_of_busy hf, ?_, exec_request_of_uninit hf, ?_, ?_⟩
  · rintro hs op rfl
    exact exec_reservedOp_of_waiting hs op
  · rintro hs rfl hbad
    exact exec_init_of_malformed hs (mt cfgOk_iff.1 hbad)
  · rintro hs a n buf (rfl | rfl) hrange
    · exact (exec_data_of_range (i := .readData a n buf) rfl rfl hs).1 hrange
    · exact (exec_data_of_range (i := .writeData a n buf) rfl rfl hs).1 hrange

/-- Settles O13: `step_of_faulted`, and `exec_request_of_faulted` for a request. -/
theorem faultedHasNoStep : Obligations.FaultedHasNoStep :=
  fun _ hs => ⟨step_of_faulted hs, fun _ hf => exec_request_of_faulted hf hs⟩

/-! ### What taking a request leaves alone (R126, R127) -/

/-- Settles O44: a request taken raises a fault or starts (`exec_request_cases`), and neither touches more than its own fields;
a register that `startRequest` marks as not written keeps its value. -/
theorem requestTakingFrame : Obligations.RequestTakingFrame := by
  intro i s t hf hx
  have hs : s.seqState ≠ .faulted := fun hs => by
    rw [exec_request_of_faulted hf hs] at hx
    cases hx
  rcases exec_request_cases hf hs with ⟨c, hc⟩ | ⟨hc, -⟩
  · obtain rfl := Host.Outcome.next.inj (hc.symm.trans hx)
    exact ⟨.inr ⟨c.code, rfl, rfl⟩, rfl, rfl, fun _ => rfl, rfl, rfl, rfl, rfl, fun _ => rfl, fun _ => rfl, fun _ => rfl⟩
  · obtain rfl := Host.Outcome.next.inj (hc.symm.trans hx)
    exact ⟨.inl rfl, rfl, rfl, fun r => by simp, rfl, rfl, rfl, rfl, fun _ => rfl,
      fun _ => rfl, fun _ => rfl⟩

/-! ### Only a request raises a fault (R127, R130) -/

section
variable {s t : State} {p : Prim} {rest : List Micro}

/-- A primitive leaves the sequencer in its state, or responds (R35). -/
theorem PrimStep.seqState (h : PrimStep s rest p t) : t.seqState = s.seqState ∨ t.seqState = .idle := by
  cases h with
  | respond => exact .inr rfl
  | _ => exact .inl (by simp [Code.advance])

theorem openedFrame_seqState (s : State) (d : Nat) (i : Instr) (rest : List Micro) :
    (openedFrame s d i rest).seqState = s.seqState := by
  unfold openedFrame
  split <;> rfl

/-- The sequencer's own step never faults (R130). -/
theorem Inv.not_faulted_of_seqStep (h : Inv s) (hf : s.seqState ≠ .faulted) (hs : seqStep s = .next t) :
    t.seqState ≠ .faulted := by
  rcases busy_or_eq_of_seqStep hs with hb | rfl
  · obtain ⟨b, i, rest, ⟨p, -, hp⟩ | ⟨c, f, hr, hc, hx⟩⟩ := h.busyStep hb hs
    · rcases hp.seqState with ht | ht
      · rwa [ht]
      · simp [ht]
    · obtain ⟨-, d, -, rfl⟩ := openedFrame_of_exec (hr.isFrame hc) hx
      rwa [openedFrame_seqState]
  · exact hf

/-- Outside `FAULTED` no fault code stands (R29, R123). -/
theorem Inv.faultCode_eq_none (h : Inv s) (hf : s.seqState ≠ .faulted) : s.faultCode = none := by
  cases hs : s.seqState with
  | uninit =>
    obtain ⟨-, -, hnone⟩ := h.of_uninit hs
    exact hnone
  | idle =>
    obtain ⟨-, -, -, hnone, -⟩ := h.of_idle hs
    exact hnone
  | busy =>
    obtain ⟨b, i, ops, -, hr⟩ := running_of_inv h hs
    exact hr.noFault
  | faulted => exact absurd hs hf

/-- A request that is taken and faults has been recorded, and its fault raised: nothing else (R34, R123, R127). -/
theorem takeRequest_faulted {r : Record} (hs : s.seqState ≠ .faulted) (hx : takeRequest r s = .next t)
    (ht : t.seqState = .faulted) : ∃ c, t = (s.record (.req r)).raiseFault c := by
  rcases exec_request_cases (decodeRequest_isFrame r) (s := s.record (.req r)) hs with ⟨c, hc⟩ | ⟨hc, -⟩
  · exact ⟨c, (Host.Outcome.next.inj (hc.symm.trans hx)).symm⟩
  · obtain rfl := Host.Outcome.next.inj (hc.symm.trans hx)
    cases ht

/-- The codes of R124 are all there are. -/
theorem FaultCode.code_mem (c : FaultCode) : c.code ∈ ([0x01, 0x02, 0x03, 0x04, 0x05] : List Byte) := by
  cases c <;> decide

end

/-- Settles O23: the step goes on (`Inv.seqStep_goesOn`), not to `FAULTED` (`Inv.not_faulted_of_seqStep`), and the invariant
it keeps leaves no fault code. -/
theorem runningRequestNeverFaults : Obligations.RunningRequestNeverFaults := by
  intro s h hb
  have hs : s.seqState ≠ .faulted := by simp [hb]
  obtain ⟨t, ht⟩ := h.seqStep_goesOn hs
  have hf := h.not_faulted_of_seqStep hs ht
  exact ⟨t, ht, hf, (h.of_seqStep ht).faultCode_eq_none hf⟩

/-- Settles O14: of the steps of `step_cases` only a request taken ends in `FAULTED`, by a fault raised
(`takeRequest_faulted`). -/
theorem faultSavesOnlyItsCode : Obligations.FaultSavesOnlyItsCode := by
  intro s t h hs ht
  have hf := not_faulted_of_step hs
  have hmoves {u : State} (hx : step s = .next u) (hu : u.seqState = s.seqState) : False := by
    obtain rfl := Host.Outcome.next.inj (hx.symm.trans hs)
    exact hf (hu.symm.trans ht)
  rcases step_cases hf with ⟨e, hx⟩ | ⟨r, e, he, hx⟩ | ⟨a, v, e, -, -, hx⟩ | ⟨x, e, -, -, -, hx⟩ | ⟨x, e, -, hx⟩
  · exact absurd ht (Inv.not_faulted_of_seqStep (s := { s with env := e }) h hf (hx.symm.trans hs))
  · obtain ⟨c, rfl⟩ := takeRequest_faulted (s := { s with env := e }) hf (hx.symm.trans hs) ht
    refine ⟨r, e, c.code, he, c.code_mem, ?_⟩
    simp [State.raiseFault, State.record]
  · exact (hmoves hx rfl).elim
  · exact (hmoves hx rfl).elim
  · exact (hmoves hx rfl).elim

end Sys2Proof.Machine
end

section
/-! Construction (R141): the table of reset values, and the invariant where every run starts. -/

namespace Sys2Proof.Machine

/-- No working register holds a value at reset (R141). -/
@[simp] theorem RegFile.get_empty (r : Reg) : RegFile.empty.get r = RegCell.empty := by
  cases r <;> rfl

/-- What is enough for the invariant before INIT, whatever the transport's settings (R44); `Inv.of_uninit` goes the other way. -/
theorem inv_of_uninit {s : State} (hmem : s.mem.wf = true) (hs : s.seqState = .uninit)
    (htr : traceBracket s.cfg s.par .undriven s.trace = some .undriven) (hcs : s.cs = .undriven) (hpc : s.pc = none)
    (hcurrent : s.current = none) (hfault : s.faultCode = none) : Inv s := by
  have hcontrol : controlOk s .undriven = true := by simp [controlOk, hs, hpc, hcurrent, hfault]
  have htransport : transportOk s = true := by simp [transportOk, hs]
  exact ⟨hmem, .undriven, htr, hcs.symm, hcontrol, htransport⟩

/-- Settles O19: the table is `State.construct` row by row, with no register holding a value (`RegFile.get_empty`), and
`State.reset` is built by it. -/
theorem constructedState : Obligations.ConstructedState := by
  have hregs (c : Cfg) (p : Params) (r : Reg) : ((State.construct c p).regs.get r).value = none :=
    congrArg RegCell.value (RegFile.get_empty r)
  exact ⟨fun c p => ⟨rfl, rfl, rfl, rfl, rfl, rfl, hregs c p, rfl, rfl, rfl, rfl⟩,
    Config.resetCfg, Config.resetParams, rfl⟩

/-- Settles O20: a constructed sequencer is before INIT with an empty trace, empty memory and no request, which is all
`inv_of_uninit` asks. -/
theorem constructMeetsInv : Obligations.ConstructMeetsInv := by
  intro c p
  exact inv_of_uninit (s := State.construct c p) rfl rfl rfl rfl rfl rfl rfl

end Sys2Proof.Machine
end
